-- ==== Sys2Proof/Word.lean ====
section
/-! DEFINITION. The word types of the block (R9, R20 of 10_state.md, R55 of 20_memory.md). -/

namespace Sys2Proof

/-- A register or a 32-bit bus word; bit 0 is the least significant bit (R9). -/
abbrev Word := BitVec 32

/-- An octet of a buffer or of a byte string (R10). -/
abbrev Byte := BitVec 8

end Sys2Proof
end

