-- ==== Sys2Proof/Syntax.lean ====
section
/-! DEFINITION. The commands of the block: the rows of the opcode map (R71). -/

namespace Sys2Proof

/-- The 13 commands (R71). The format has no operand fields (R70): a command's operands are registers (R75). -/
inductive Instr where
  /-- 0x00, no operation (R104). -/
  | nop
  /-- 0x01, prepend the sync marker (R150). -/
  | asmAttach
  /-- 0x02, check and strip the sync marker (R151). -/
  | asmDetach
  /-- 0x03, pseudo-randomize a sub-range (R162). -/
  | rand
  /-- 0x04, Reed-Solomon encode (R184). -/
  | rsEncode
  /-- 0x05, Reed-Solomon decode (R186). -/
  | rsDecode
  /-- 0x06, pseudo-BCH encode one block (R203). -/
  | bchEncode
  /-- 0x07, pseudo-BCH check one codeword (R204). -/
  | bchDecode
  /-- 0x08, wrap the input in a CLTU (R206). -/
  | cltuEncode
  /-- 0x09, find, check and unwrap a CLTU (R208). -/
  | cltuDecode
  /-- 0x0A, unpack a bit field into VALUE (R121). -/
  | bfExtract
  /-- 0x0B, pack VALUE into a bit field of IBUF (R122). -/
  | bfInsert
  /-- 0x0C, copy the last output into the input (R105). -/
  | move
  deriving DecidableEq, Repr

end Sys2Proof
end

