-- ==== Sys2Proof/Decode.lean ====
section
/-! DEFINITION. Decoding a command word and encoding a command (R70 to R74). -/

namespace Sys2Proof

/-- Why a command word is illegal (R72). -/
inductive Illegal where
  /-- `RSV ≠ 0`: some bit of [31:8] is set. -/
  | reservedBits
  /-- `RSV = 0` and `OPC` is one of 0x0D to 0xFF. -/
  | reservedOpcode
  deriving DecidableEq, Repr

/-- Field OPC, bits [7:0] of a command word (R70). -/
def opcField (w : Word) : BitVec 8 := w.extractLsb' 0 8

/-- Field RSV, bits [31:8] of a command word (R70). -/
def rsvField (w : Word) : BitVec 24 := w.extractLsb' 8 24

/-- The command a code names (R71); `none` for the reserved codes 0x0D to 0xFF (R73). -/
def ofOpcode (opc : Nat) : Option Instr :=
  match opc with
  | 0x00 => some .nop
  | 0x01 => some .asmAttach
  | 0x02 => some .asmDetach
  | 0x03 => some .rand
  | 0x04 => some .rsEncode
  | 0x05 => some .rsDecode
  | 0x06 => some .bchEncode
  | 0x07 => some .bchDecode
  | 0x08 => some .cltuEncode
  | 0x09 => some .cltuDecode
  | 0x0A => some .bfExtract
  | 0x0B => some .bfInsert
  | 0x0C => some .move
  | _ => none

/-- The decoder: every 32-bit word is one of the 13 legal words or illegal (R72). -/
def decode (w : Word) : Except Illegal Instr :=
  if rsvField w = 0 then
    match ofOpcode (opcField w).toNat with
    | some i => .ok i
    | none => .error .reservedOpcode
  else .error .reservedBits

/-- The code of a command (R71). -/
def opcode : Instr → BitVec 8
  | .nop => 0x00
  | .asmAttach => 0x01
  | .asmDetach => 0x02
  | .rand => 0x03
  | .rsEncode => 0x04
  | .rsDecode => 0x05
  | .bchEncode => 0x06
  | .bchDecode => 0x07
  | .cltuEncode => 0x08
  | .cltuDecode => 0x09
  | .bfExtract => 0x0A
  | .bfInsert => 0x0B
  | .move => 0x0C

/-- The encoder: the one word of a command, RSV zero above its OPC (R70). -/
def encode (i : Instr) : Word := (0#24 ++ opcode i)

/-- The low `nbits` bits of `w` as a 32-bit command word, zero above: the layout the opcode table numbers. A command
is one 32-bit register word, so no byte order enters. -/
def tableWord (nbits w : Nat) : Word := BitVec.ofNat 32 (w % 2 ^ nbits)

/-- The command the decoder reads from a word numbered as the opcode table numbers it. -/
def decodeTableWord (nbits w : Nat) : Option Instr :=
  match decode (tableWord nbits w) with
  | .ok i => some i
  | .error _ => none

end Sys2Proof
end

