-- ==== Sys2Proof/Config.lean ====
section
/-! DEFINITION. The implementation parameters of R8 and the free values: the opaque constants stand for what the spec
leaves unspecified, and nothing in Lean can evaluate them or prove a value of one. -/

namespace Sys2Proof.Config

/-- The check-byte function of the pseudo-BCH code (`BCH_VARIANT`, R200 and R201). -/
inductive BchVariant where
  /-- (63,56) code, complemented parity, one filler bit (R200). -/
  | ccsds231
  /-- Plain remainder modulo the degree-8 generator (R201). -/
  | docG8
  deriving DecidableEq, Repr

/-- The Reed-Solomon profile (`RS_PROFILE`, R189). -/
inductive RsProfile where
  /-- Field 0x11D, conventional basis, root step 1 (R180 to R182). -/
  | doc11D
  /-- Any other profile: the spec defines none, and the RS commands are refused under it (R189, U10). -/
  | other
  deriving DecidableEq, Repr

/-- How the platform reports the block's bus-error response to the host (`BUS_ERROR_EFFECT`, R54). -/
inductive BusErrorEffect where
  /-- The access is a fault of the host agent, as R54 tells a model to treat it. -/
  | hostFault
  /-- The response is ignored: the host goes on, and a read returns the block's data 0x00000000. -/
  | ignoredResponse
  deriving DecidableEq, Repr

/-- `BUF_SIZE`: the bytes of IBUF, and of OBUF (R8, R35, R36). -/
abbrev bufSize : Nat := 4096

/-- The bytes of the register window (R51). -/
abbrev windowSize : Nat := 0x3000

/-- This hardware's `BCH_VARIANT` (R8). Log entry 14. -/
def bchVariant : BchVariant := .ccsds231

/-- This hardware's `RS_PROFILE` (R8). Log entry 15. -/
def rsProfile : RsProfile := .doc11D

/-- `BUS_ERROR_EFFECT` is OPEN; R54 says that a model should treat a bus error as a fault of the host. Log entry 11. -/
def busErrorEffect : BusErrorEffect := .hostFault

/-- `BASE` in units of 0x1000 bytes: the platform fixes it (R51). Log entry 13. -/
opaque basePage : Nat

/-- `BASE`, the platform address of the window: a multiple of 0x1000 (R51). -/
def base : Nat := 0x1000 * basePage

/-- `LATENCY` (R8, U5): how many steps of its host's the command accepted at this draw stays busy. Every value is a
finite number, and nothing bounds it. Log entry 5. -/
opaque latency : Nat → Nat

/-- The free value of byte `i` of a buffer whose contents became unspecified at the draw `n` (R36, R40, R235; U2, U3,
U4). Log entries 1 and 7. -/
opaque freeByte (n i : Nat) : Byte

/-- The free value a busy read of IBUF, ILEN, OBUF, OLEN or VALUE returns at the draw `n` (R101, U1). Log entry 6. -/
opaque freeRead (n : Nat) : Word

/-- The free value of the LFSR state after a command that used it (R37 (b)). Log entry 4. -/
opaque freeLfsr (n : Nat) : BitVec 8

/-- The free value of the BCH shift register after a command that used it (R37 (c)). Log entry 4. -/
opaque freeBchShift (n : Nat) : BitVec 8

/-- The free value of the RS encoder's shift register after a command that used the RS unit (R37 (c)). Log entry 4. -/
opaque freeRsShift (n : Nat) : Vector Byte 32

/-- The free value of the RS syndromes after a command that used the RS unit (R37 (c)). Log entry 4. -/
opaque freeRsSyndromes (n : Nat) : Vector Byte 32

/-- The free value of the RS locator after a command that used the RS unit (R37 (c)). Log entry 4. -/
opaque freeRsLocator (n : Nat) : Vector Byte 17

end Sys2Proof.Config
end

