-- ==== Sys2Proof/Machine/State.lean ====
section
/-! DEFINITION. The state of the machine, its reasons to stop, and the state after reset (10_state.md). -/

namespace Sys2Proof.Machine

/-! ## Bus accesses and host events -/

/-- Whether an access reads or writes (R79). -/
inductive AccessKind where
  | read
  | write
  deriving DecidableEq, Repr

/-- One bus access, as R79 encodes it. A read's `data` is not used. -/
structure Access where
  kind : AccessKind
  /-- The offset from `BASE` (R51). -/
  offset : Nat
  /-- The width in bytes (R52). -/
  width : Nat
  /-- The data of a write: the whole word, or its low 8 bits for an 8-bit write. -/
  data : Word
  deriving DecidableEq, Repr

/-- What the world outside the block does next. -/
inductive HostEvent where
  /-- One bus access of the host (R52 to R60). -/
  | access (a : Access)
  /-- The host's WAIT: read STATUS until its bit 0 is 0 (R78). -/
  | wait
  /-- The platform asserts and releases the reset input (R260). -/
  | reset
  deriving DecidableEq, Repr

/-! ## Reasons to stop -/

/-- The faults a step can end in. -/
inductive Fault where
  /-- Raised by an illegal host access under `BusErrorEffect.hostFault`: a 16-bit access, an 8-bit access to the
  register region, a misaligned 32-bit access, or any other width (R52 to R54). Safe: the spec says to treat it as a
  fault of the host (R54, U6), and the block's state does not change. -/
  | busError (a : Access)
  deriving DecidableEq, Repr

/-- The refusals a step can end in. -/
inductive Refusal where
  /-- Raised only by an arm of `exec` whose instruction has no meaning yet. Safe: nothing is claimed of it. -/
  | notModelled (mnemonic : String)
  /-- Raised by a host access at an offset of 0x3000 or more, which is not addressed to the block (R51). Safe: the spec
  says nothing of such an access. -/
  | notAddressed (a : Access)
  /-- Raised by the RS commands under a profile other than DOC_11D (R189, U10). Safe: the spec tells a model to
  refuse. -/
  | rsProfile
  deriving DecidableEq, Repr

/-! ## Registers and buffers -/

/-- The eleven host-visible registers (R20). -/
inductive Reg where
  | cmd
  | status
  | ctrl
  | ilen
  | olen
  | arg0
  | arg1
  | value
  | asmLen
  | asmPat0
  | asmPat1
  deriving DecidableEq, Repr

/-- The kinds of error a command reports (R230). -/
inductive ErrorKind where
  | structural
  | fieldConstraint
  | lengthMismatch
  | checksum
  | markerNotFound
  /-- Named by the source's taxonomy and never raised by the block (R230). -/
  | builderState
  | illegalCommand
  | capacity
  deriving DecidableEq, Repr

/-- The named bits of STATUS (R24); its other bits read 0. -/
structure Status where
  busy : Bool
  done : Bool
  err : Bool
  errcode : BitVec 4
  deriving DecidableEq, Repr

/-- A byte buffer. `cells` lists the bytes something has written, addresses strictly rising; an unlisted byte has no
value the spec gives, and `draw` names the free values of all of them. Log entry 1. -/
structure Memory where
  cells : List Host.Cell
  draw : Nat
  deriving DecidableEq, Repr

/-- The registers and the buffer a command reads, as they stand at its acceptance (R62, R100). -/
structure Inputs where
  ibuf : Memory
  ilen : BitVec 16
  /-- CTRL.CLTU_RAND (R26). -/
  cltuRand : Bool
  arg0 : Word
  arg1 : Word
  value : Word
  asmLen : BitVec 4
  asmPat0 : Word
  asmPat1 : Word
  deriving DecidableEq, Repr

/-- The command in flight (R37 (a)). -/
structure InFlight where
  /-- The accepted command word. -/
  word : Word
  /-- What the command latched. -/
  inputs : Inputs
  /-- How many more steps it stays busy before the step that completes it (R106). Log entry 5. -/
  delay : Nat
  deriving DecidableEq, Repr

/-- The working state of the units (R37 (b), (c)). No rule reads it between commands. Log entries 3 and 4. -/
structure Work where
  /-- The LFSR state S (R160). -/
  lfsr : BitVec 8
  /-- The BCH shift register r: 7 bits are used under CCSDS_231, 8 under DOC_G8 (R202). -/
  bchShift : BitVec 8
  /-- The RS encoder's shift register rem (R185). -/
  rsShift : Vector Byte 32
  /-- The RS syndromes (R183). -/
  rsSyndromes : Vector Byte 32
  /-- The RS error-locator polynomial, of degree at most 16 (R187). -/
  rsLocator : Vector Byte 17
  deriving DecidableEq, Repr

/-- The machine: the block's architectural and hidden state (R20, R35 to R37), and the model's own fields. -/
structure State where
  /-- CMD: the last accepted command word (R23). -/
  cmd : Word
  /-- STATUS (R24). -/
  status : Status
  /-- CTRL bit 0, CLTU_RAND (R26). -/
  cltuRand : Bool
  /-- ILEN.LEN (R27). -/
  ilen : BitVec 16
  /-- OLEN.LEN (R28). -/
  olen : BitVec 16
  /-- ARG0 (R29). -/
  arg0 : Word
  /-- ARG1 (R30). -/
  arg1 : Word
  /-- VALUE (R31). -/
  value : Word
  /-- ASM_LEN.L (R32). -/
  asmLen : BitVec 4
  /-- ASM_PAT0 (R33). -/
  asmPat0 : Word
  /-- ASM_PAT1 (R33). -/
  asmPat1 : Word
  /-- IBUF (R35). -/
  ibuf : Memory
  /-- OBUF (R36). -/
  obuf : Memory
  /-- The command in flight, none while the block is idle (R37 (a)). -/
  inFlight : Option InFlight
  /-- The hidden working state (R37 (b), (c)). -/
  work : Work
  /-- The model's own: how many free values have been drawn. Log entry 2. -/
  draws : Nat
  /-- The model's own: what the outside world does next, oldest first. Log entry 8. -/
  host : List HostEvent
  /-- The model's own: what the host's reads returned, oldest first (R77). Log entry 8. -/
  reads : List Word
  deriving DecidableEq, Repr

/-- A buffer nothing has written since the draw `n`. -/
def Memory.unwritten (n : Nat) : Memory := { cells := [], draw := n }

/-- STATUS after reset: 0x00000000 (R24, R40). -/
def Status.reset : Status := { busy := false, done := false, err := false, errcode := 0 }

/-- The working state after reset. The spec gives no value (R40). DESIGN CHOICE, unsafe: zeros. Log entry 3. -/
def Work.reset : Work :=
  { lfsr := 0, bchShift := 0, rsShift := .replicate 32 0, rsSyndromes := .replicate 32 0,
    rsLocator := .replicate 17 0 }

/-- The machine right after reset (R40). -/
def State.reset : State :=
  { cmd := 0x00000000
    status := Status.reset
    cltuRand := false
    ilen := 0
    olen := 0
    arg0 := 0x00000000
    arg1 := 0x00000000
    value := 0x00000000
    asmLen := 4
    asmPat0 := 0x1ACFFC1D
    asmPat1 := 0x00000000
    ibuf := Memory.unwritten 0
    obuf := Memory.unwritten 1
    inFlight := none
    work := Work.reset
    draws := 2
    host := []
    reads := [] }

end Sys2Proof.Machine
end

