-- ==== Sys2Proof/Machine/Flags.lean ====
section
/-! DEFINITION. STATUS, the only flag register (R22, R24), and the error codes it reports (R232). -/

namespace Sys2Proof.Machine

/-- The code of an error kind in STATUS.ERRCODE (R232). -/
def ErrorKind.code : ErrorKind → BitVec 4
  | .structural => 1
  | .fieldConstraint => 2
  | .lengthMismatch => 3
  | .checksum => 4
  | .markerNotFound => 5
  | .builderState => 6
  | .illegalCommand => 7
  | .capacity => 8

/-- STATUS at acceptance: BUSY alone (R24, R100). -/
def Status.accepted : Status := { busy := true, done := false, err := false, errcode := 0 }

/-- STATUS at a successful completion: DONE alone (R24, R100). -/
def Status.succeeded : Status := { busy := false, done := true, err := false, errcode := 0 }

/-- STATUS at a failed completion: DONE, ERR and the code of the error (R24, R100, R233). -/
def Status.failed (k : ErrorKind) : Status := { busy := false, done := true, err := true, errcode := k.code }

/-- STATUS as the host reads it: ERRCODE in bits [7:4], ERR, DONE and BUSY in bits 2, 1 and 0, every other bit 0
(R24). -/
def Status.word (st : Status) : Word :=
  (0#24 ++ st.errcode ++ 0#1 ++ BitVec.ofBool st.err ++ BitVec.ofBool st.done ++ BitVec.ofBool st.busy)

end Sys2Proof.Machine
end

