-- ==== Sys2Proof/Machine/Ops.lean ====
section
/-! DEFINITION. The named operations over buffers, registers and the command in flight: every reading and writing of
State goes through them. -/

namespace Sys2Proof.Machine

/-! ## Buffers -/

/-- The byte listed at index `i`, if one is. -/
def lookupCell (cells : List Host.Cell) (i : Nat) : Option Byte :=
  match cells with
  | [] => none
  | (a, b) :: rest => if a = i then some b else lookupCell rest i

/-- The cells with byte `b` listed at index `i`, in rising order. -/
def insertCell (cells : List Host.Cell) (i : Nat) (b : Byte) : List Host.Cell :=
  match cells with
  | [] => [(i, b)]
  | (a, c) :: rest =>
    if a < i then (a, c) :: insertCell rest i b
    else if a = i then (i, b) :: rest
    else (i, b) :: (a, c) :: rest

/-- What byte `i` of a buffer reads as: the listed byte, or the free value of an unlisted one (R35, R36, R40). This is
the one place that says what an unlisted byte reads as. -/
def Memory.byte (m : Memory) (i : Nat) : Byte :=
  (lookupCell m.cells i).getD (Config.freeByte m.draw i)

/-- Store one byte. -/
def Memory.write (m : Memory) (i : Nat) (b : Byte) : Memory :=
  { m with cells := insertCell m.cells i b }

/-- Store a byte string at rising indices from `i`. -/
def Memory.writeBytes (m : Memory) (i : Nat) (bs : List Byte) : Memory :=
  match bs with
  | [] => m
  | b :: rest => (m.write i b).writeBytes (i + 1) rest

/-- The byte string `m[0:n)` (R10). -/
def Memory.bytes (m : Memory) (n : Nat) : List Byte := (List.range n).map m.byte

/-- The cells that list a byte string at rising indices from `i`. -/
def cellsFrom (i : Nat) (bs : List Byte) : List Host.Cell :=
  match bs with
  | [] => []
  | b :: rest => (i, b) :: cellsFrom (i + 1) rest

/-- A buffer that holds `bs` at index 0 and is unspecified above it, its free values named by the draw `n` (R36). -/
def Memory.holding (n : Nat) (bs : List Byte) : Memory := { cells := cellsFrom 0 bs, draw := n }

/-- The canonical form: addresses strictly rising and inside the buffer. An unlisted byte has no value to compare a
listed one with, so no entry can equal it. -/
abbrev Memory.wf (m : Memory) : Prop :=
  m.cells.Pairwise (fun c d => c.1 < d.1) ∧ ∀ c ∈ m.cells, c.1 < Config.bufSize

/-- The big-endian word of four bytes, the first in bits [31:24] (R56). -/
def wordOfBytes (b0 b1 b2 b3 : Byte) : Word := (b0 ++ b1 ++ b2 ++ b3)

/-- Byte `j` of a big-endian word: bits [31-8j : 24-8j] (R56). -/
def byteOfWord (w : Word) (j : Nat) : Byte := w.extractLsb' (24 - 8 * j) 8

/-- A 32-bit read of the bytes `i` to `i + 3` (R56). -/
def Memory.word (m : Memory) (i : Nat) : Word :=
  wordOfBytes (m.byte i) (m.byte (i + 1)) (m.byte (i + 2)) (m.byte (i + 3))

/-- A 32-bit write of the bytes `i` to `i + 3` (R56). -/
def Memory.writeWord (m : Memory) (i : Nat) (w : Word) : Memory :=
  m.writeBytes i [byteOfWord w 0, byteOfWord w 1, byteOfWord w 2, byteOfWord w 3]

/-! ## The command in flight -/

/-- The registers and IBUF as they stand now: what a command accepted now latches (R62, R100). -/
def latch (s : State) : Inputs :=
  { ibuf := s.ibuf, ilen := s.ilen, cltuRand := s.cltuRand, arg0 := s.arg0, arg1 := s.arg1, value := s.value,
    asmLen := s.asmLen, asmPat0 := s.asmPat0, asmPat1 := s.asmPat1 }

/-- What a command that runs in this state reads: what the command in flight latched (R62), or, where none is in
flight, the registers as they stand. -/
def State.inputs (s : State) : Inputs :=
  match s.inFlight with
  | some f => f.inputs
  | none => latch s

/-- Accept a command word that stays busy for `delay` steps: CMD takes the whole word, STATUS becomes BUSY, the inputs
are latched (R23, R24, R100). -/
def acceptFor (delay : Nat) (w : Word) (s : State) : State :=
  { s with cmd := w, status := Status.accepted, inFlight := some { word := w, inputs := latch s, delay := delay } }

/-- Accept a command word; the time it takes is a free value (R100, R106). -/
def accept (w : Word) (s : State) : State :=
  acceptFor (Config.latency s.draws) w { s with draws := s.draws + 1 }

/-- One step of the delay of the command in flight (R106). -/
def countDown (s : State) : State :=
  { s with inFlight := s.inFlight.map fun f => { f with delay := f.delay - 1 } }

/-! ## Completion -/

/-- The command in flight completes with this STATUS (R24, R100). -/
def complete (st : Status) (s : State) : State := { s with status := st, inFlight := none }

/-- A successful completion with no further effect (R100). -/
def succeed (s : State) : State := complete Status.succeeded s

/-- OLEN becomes 0 and every byte of OBUF unspecified (R235). -/
def dropOutput (s : State) : State :=
  { s with olen := 0, obuf := Memory.unwritten s.draws, draws := s.draws + 1 }

/-- The error entry, in full (R231, R235, R237): the command completes, STATUS reports the kind, and a command that
writes OBUF (`output`) leaves OLEN 0 and OBUF unspecified. Nothing is saved or masked and control goes nowhere; there
is no operation that returns from it (R238). -/
def raiseError (output : Bool) (k : ErrorKind) (s : State) : State :=
  complete (Status.failed k) (if output then dropOutput s else s)

/-- A successful completion that delivers the byte string `out`: `OBUF[0:len(out)) <- out`, `OLEN.LEN <- len(out)`, the
bytes above it unspecified (R36, R103). -/
def deliver (out : List Byte) (s : State) : State :=
  succeed { s with olen := BitVec.ofNat 16 out.length, obuf := Memory.holding s.draws out, draws := s.draws + 1 }

/-- The completion of a command whose result is a byte string for OBUF (R103, R235). -/
def finishOutput (r : Except ErrorKind (List Byte)) (s : State) : State :=
  match r with
  | .ok out => deliver out s
  | .error k => raiseError true k s

/-! ## The units' working state -/

/-- The LFSR state after a command that used it: no defined value (R37). -/
def spendLfsr (s : State) : State :=
  { s with work := { s.work with lfsr := Config.freeLfsr s.draws }, draws := s.draws + 1 }

/-- The BCH shift register after a command that used it: no defined value (R37). -/
def spendBch (s : State) : State :=
  { s with work := { s.work with bchShift := Config.freeBchShift s.draws }, draws := s.draws + 1 }

/-- The RS shift register, syndromes and locator after a command that used them: no defined value (R37). -/
def spendRs (s : State) : State :=
  { s with
    work := { s.work with
      rsShift := Config.freeRsShift s.draws
      rsSyndromes := Config.freeRsSyndromes s.draws
      rsLocator := Config.freeRsLocator s.draws }
    draws := s.draws + 1 }

/-! ## Registers as the host reads and writes them -/

/-- The offset of a register from `BASE` (R20). -/
def Reg.offset : Reg → Nat
  | .cmd => 0x000
  | .status => 0x004
  | .ctrl => 0x008
  | .ilen => 0x00C
  | .olen => 0x010
  | .arg0 => 0x014
  | .arg1 => 0x018
  | .value => 0x01C
  | .asmLen => 0x020
  | .asmPat0 => 0x024
  | .asmPat1 => 0x028

/-- The register at an offset (R20); `none` at the reserved offsets (R34). -/
def regAt (offset : Nat) : Option Reg :=
  match offset with
  | 0x000 => some .cmd
  | 0x004 => some .status
  | 0x008 => some .ctrl
  | 0x00C => some .ilen
  | 0x010 => some .olen
  | 0x014 => some .arg0
  | 0x018 => some .arg1
  | 0x01C => some .value
  | 0x020 => some .asmLen
  | 0x024 => some .asmPat0
  | 0x028 => some .asmPat1
  | _ => none

/-- What a register reads as; reserved bits read 0 (R20, R23 to R33). -/
def readReg (r : Reg) (s : State) : Word :=
  match r with
  | .cmd => s.cmd
  | .status => s.status.word
  | .ctrl => (BitVec.ofBool s.cltuRand).setWidth 32
  | .ilen => s.ilen.setWidth 32
  | .olen => s.olen.setWidth 32
  | .arg0 => s.arg0
  | .arg1 => s.arg1
  | .value => s.value
  | .asmLen => s.asmLen.setWidth 32
  | .asmPat0 => s.asmPat0
  | .asmPat1 => s.asmPat1

/-- The effect of a host write to a register of an idle block. A write to CMD starts a command (R100); STATUS and OLEN
ignore writes (R24, R28); writes to reserved bits are ignored (R20). -/
def writeReg (r : Reg) (v : Word) (s : State) : State :=
  match r with
  | .cmd => accept v s
  | .status => s
  | .ctrl => { s with cltuRand := v.getLsbD 0 }
  | .ilen => { s with ilen := v.setWidth 16 }
  | .olen => s
  | .arg0 => { s with arg0 := v }
  | .arg1 => { s with arg1 := v }
  | .value => { s with value := v }
  | .asmLen => { s with asmLen := v.setWidth 4 }
  | .asmPat0 => { s with asmPat0 := v }
  | .asmPat1 => { s with asmPat1 := v }

/-! ## Reset -/

/-- The reset input (R260): every register takes its value after reset, a command in flight is abandoned with none of
its effects, and the buffers become unspecified. The outside world's events and the values it has read stay. Log entry
10. -/
def applyReset (s : State) : State :=
  { State.reset with
    ibuf := Memory.unwritten s.draws
    obuf := Memory.unwritten (s.draws + 1)
    draws := s.draws + 2
    host := s.host
    reads := s.reads }

end Sys2Proof.Machine
end

