-- ==== Sys2Proof/Machine/Operands.lean ====
section
/-! DEFINITION. The operand forms of the commands (R75, R76): the input string, the sync marker, stream bits and bit
fields. Every operand is unsigned; none is sign-extended, scaled or shifted (R76). -/

namespace Sys2Proof.Machine

/-- The input string `D = IBUF[0:ILEN.LEN)` (R102). -/
def Inputs.string (inp : Inputs) : List Byte := inp.ibuf.bytes inp.ilen.toNat

/-- Run a command's own rule on its input string, after the length check every command that reads IBUF makes first
(R102, step 2). -/
def onInput {α : Type} (inp : Inputs) (rule : List Byte → Except ErrorKind α) : Except ErrorKind α :=
  if inp.ilen.toNat > Config.bufSize then .error .structural else rule inp.string

/-- Bytewise exclusive-or of two strings (R10). -/
def xorBytes (xs ys : List Byte) : List Byte := List.zipWith (· ^^^ ·) xs ys

/-! ## The sync marker -/

/-- `ASM_BYTE(i)`, for `i` below 8 (R33). -/
def asmByte (inp : Inputs) (i : Nat) : Byte :=
  if i < 4 then byteOfWord inp.asmPat0 i else byteOfWord inp.asmPat1 (i - 4)

/-- The marker, `ASM_BYTE(0)` to `ASM_BYTE(L-1)` (R33). -/
def asmMarker (inp : Inputs) : List Byte := (List.range inp.asmLen.toNat).map (asmByte inp)

/-- The legal marker lengths, 1 to 8 (R32). -/
def asmLenLegal (inp : Inputs) : Bool := decide (1 ≤ inp.asmLen.toNat ∧ inp.asmLen.toNat ≤ 8)

/-! ## Bit fields -/

/-- `sbit(D, i)`: stream bit `i`, the most significant bit of byte 0 first (R9, R120). -/
def streamBit (d : List Byte) (i : Nat) : Bool := (d.getD (i / 8) 0).getLsbD (7 - i % 8)

/-- `field(D, off, w)`: the first stream bit is the most significant (R120). -/
def streamField (d : List Byte) (off w : Nat) : Nat :=
  ((List.range w).map fun k => (streamBit d (off + k)).toNat * 2 ^ (w - 1 - k)).sum

/-- The legal field widths, 1 to 32 bits (R120). -/
def widthLegal (w : Nat) : Bool := decide (1 ≤ w ∧ w ≤ 32)

/-- Write stream bit `i` of a buffer, leaving the other bits of its byte (R122). -/
def setStreamBit (m : Memory) (i : Nat) (b : Bool) : Memory :=
  m.write (i / 8)
    ((m.byte (i / 8) &&& ~~~(1#8 <<< (7 - i % 8))) ||| ((BitVec.ofBool b).setWidth 8 <<< (7 - i % 8)))

/-- Write the low `w` bits of `v` to stream bits `off` to `off + w - 1`, most significant first (R122). -/
def insertField (m : Memory) (off w : Nat) (v : Word) : Memory :=
  (List.range w).foldl (fun m k => setStreamBit m (off + k) (v.getLsbD (w - 1 - k))) m

end Sys2Proof.Machine
end

