-- ==== Sys2Proof/Machine/Asm.lean ====
section
/-! DEFINITION. Attached sync marker framing (42_asm.md). -/

namespace Sys2Proof.Machine

/-- `Execute` of ASM_ATTACH: the marker, then the input (R150). -/
def asmAttach (inp : Inputs) : Except ErrorKind (List Byte) :=
  onInput inp fun d =>
    if asmLenLegal inp = false then .error .fieldConstraint
    else if d.length + inp.asmLen.toNat > Config.bufSize then .error .capacity
    else .ok (asmMarker inp ++ d)

/-- `Execute` of ASM_DETACH: the input without its marker, which stands at index 0 exactly (R151). -/
def asmDetach (inp : Inputs) : Except ErrorKind (List Byte) :=
  onInput inp fun d =>
    if asmLenLegal inp = false then .error .fieldConstraint
    else if d.length < inp.asmLen.toNat then .error .markerNotFound
    else if d.take inp.asmLen.toNat ≠ asmMarker inp then .error .markerNotFound
    else .ok (d.drop inp.asmLen.toNat)

/-- ASM_ATTACH (R150). -/
def execAsmAttach (s : State) : Host.Outcome State Fault Refusal := .next (finishOutput (asmAttach s.inputs) s)

/-- ASM_DETACH (R151). -/
def execAsmDetach (s : State) : Host.Outcome State Fault Refusal := .next (finishOutput (asmDetach s.inputs) s)

end Sys2Proof.Machine
end

