-- ==== Sys2Proof/Machine/Bch.lean ====
section
/-! DEFINITION. The pseudo-BCH block codec (45_bch_cltu.md, R200 to R205). A binary polynomial is the integer whose bit
`i` is the coefficient of `x^i` (R12). -/

namespace Sys2Proof.Machine

/-- `D(x)`: the stream bits of a block, its first bit the highest coefficient (R200). -/
def blockPoly (b : List Byte) : Nat := b.foldl (fun acc x => acc * 256 + x.toNat) 0

/-- The remainder of `p`, of degree below `deg + n`, by `g` of degree `deg`: long division from the top. -/
def polyMod (g deg n p : Nat) : Nat :=
  match n with
  | 0 => p
  | n + 1 => polyMod g deg n (if p.testBit (deg + n) then p ^^^ (g <<< n) else p)

/-- The check byte under CCSDS_231: the complement of the 7 parity bits of `x^7 + x^6 + x^2 + 1`, then a 0 filler bit
(R200). -/
def check231 (b : List Byte) : Byte := BitVec.ofNat 8 ((polyMod 0xC5 7 56 (blockPoly b <<< 7) ^^^ 0x7F) <<< 1)

/-- The check byte under DOC_G8: the remainder by `x^8 + x^7 + x^5 + x^3 + 1` (R201). -/
def checkG8 (b : List Byte) : Byte := BitVec.ofNat 8 (polyMod 0x1A9 8 56 (blockPoly b <<< 8))

/-- `check(B)` of a 7-byte block under a variant (R200, R201). -/
def bchCheck (v : Config.BchVariant) (b : List Byte) : Byte :=
  match v with
  | .ccsds231 => check231 b
  | .docG8 => checkG8 b

/-- One bit into the 7-bit register of R202. -/
def serial231 (r : BitVec 7) (bit : Bool) : BitVec 7 :=
  if r.getLsbD 6 ^^ bit then (r <<< 1) ^^^ 0x45 else r <<< 1

/-- One bit into the 8-bit register of R202, for DOC_G8. -/
def serialG8 (r : BitVec 8) (bit : Bool) : BitVec 8 :=
  if r.getLsbD 7 ^^ bit then (r <<< 1) ^^^ 0xA9 else r <<< 1

/-- The 56 stream bits of a block, in order (R202). -/
def blockBits (b : List Byte) : List Bool := (List.range 56).map (streamBit b)

/-- The bit-serial form of the check byte (R202). -/
def serialCheck (v : Config.BchVariant) (b : List Byte) : Byte :=
  match v with
  | .ccsds231 => (~~~((blockBits b).foldl serial231 0)).setWidth 8 <<< 1
  | .docG8 => (blockBits b).foldl serialG8 0

/-- Check one 8-byte codeword and return its data (R204, R208). All 8 bits of the check byte are compared. -/
def checkCodeword (v : Config.BchVariant) (c : List Byte) : Except ErrorKind (List Byte) :=
  if c.getD 7 0 ≠ bchCheck v (c.take 7) then .error .checksum else .ok (c.take 7)

/-- `Execute` of BCH_ENCODE (R203). -/
def bchEncode (v : Config.BchVariant) (inp : Inputs) : Except ErrorKind (List Byte) :=
  onInput inp fun b => if b.length ≠ 7 then .error .lengthMismatch else .ok (b ++ [bchCheck v b])

/-- `Execute` of BCH_DECODE (R204): it detects errors and corrects none. -/
def bchDecode (v : Config.BchVariant) (inp : Inputs) : Except ErrorKind (List Byte) :=
  onInput inp fun c => if c.length ≠ 8 then .error .lengthMismatch else checkCodeword v c

/-- BCH_ENCODE (R203). -/
def execBchEncode (s : State) : Host.Outcome State Fault Refusal :=
  .next (finishOutput (bchEncode Config.bchVariant s.inputs) (spendBch s))

/-- BCH_DECODE (R204). -/
def execBchDecode (s : State) : Host.Outcome State Fault Refusal :=
  .next (finishOutput (bchDecode Config.bchVariant s.inputs) (spendBch s))

end Sys2Proof.Machine
end

