-- ==== Sys2Proof/Machine/BitField.lean ====
section
/-! DEFINITION. The bit-field packer and unpacker (41_bitfield.md). -/

namespace Sys2Proof.Machine

/-- `Execute` of BF_EXTRACT: the value unpacked (R121). -/
def bfExtract (inp : Inputs) : Except ErrorKind Word :=
  onInput inp fun d =>
    if widthLegal inp.arg1.toNat = false then .error .fieldConstraint
    else if inp.arg0.toNat + inp.arg1.toNat > 8 * d.length then .error .structural
    else .ok (BitVec.ofNat 32 (streamField d inp.arg0.toNat inp.arg1.toNat))

/-- `Execute` of BF_INSERT on IBUF `m`: the buffer with the field written (R122). -/
def bfInsert (inp : Inputs) (m : Memory) : Except ErrorKind Memory :=
  onInput inp fun d =>
    if widthLegal inp.arg1.toNat = false then .error .fieldConstraint
    else if inp.value.toNat ≥ 2 ^ inp.arg1.toNat then .error .fieldConstraint
    else if inp.arg0.toNat + inp.arg1.toNat > 8 * d.length then .error .structural
    else .ok (insertField m inp.arg0.toNat inp.arg1.toNat inp.value)

/-- BF_EXTRACT (R121): VALUE takes the field; on an error VALUE, OBUF and OLEN keep theirs (R235). -/
def execBfExtract (s : State) : Host.Outcome State Fault Refusal :=
  match bfExtract s.inputs with
  | .ok v => .next (succeed { s with value := v })
  | .error k => .next (raiseError false k s)

/-- BF_INSERT (R122): IBUF is edited in place; on an error it keeps its bytes (R235). -/
def execBfInsert (s : State) : Host.Outcome State Fault Refusal :=
  match bfInsert s.inputs s.ibuf with
  | .ok m => .next (succeed { s with ibuf := m })
  | .error k => .next (raiseError false k s)

end Sys2Proof.Machine
end

