-- ==== Sys2Proof/Machine/Randomizer.lean ====
section
/-! DEFINITION. The LFSR pseudo-randomizer (43_randomizer.md). -/

namespace Sys2Proof.Machine

/-- The LFSR state at the start of every run (R160, R161). -/
def lfsrSeed : BitVec 8 := 0xFF

/-- `step1(S)`: one bit of the sequence (R160). -/
def lfsrStep1 (r : BitVec 8) : BitVec 8 :=
  (r <<< 1) ||| (BitVec.ofBool (r.getLsbD 7 ^^ r.getLsbD 4 ^^ r.getLsbD 2 ^^ r.getLsbD 0)).setWidth 8

/-- `n` bits of the sequence. -/
def lfsrSteps (n : Nat) (r : BitVec 8) : BitVec 8 :=
  match n with
  | 0 => r
  | n + 1 => lfsrSteps n (lfsrStep1 r)

/-- One clock: eight bits of the sequence (R160). -/
def lfsrClock (r : BitVec 8) : BitVec 8 := lfsrSteps 8 r

/-- The next `n` output bytes of an LFSR in state `r`: each clock outputs the state (R160). -/
def pnFrom (r : BitVec 8) (n : Nat) : List Byte :=
  match n with
  | 0 => []
  | n + 1 => r :: pnFrom (lfsrClock r) n

/-- `PN[0:n)`: the first `n` bytes of a run (R160, R161). -/
def pnRun (n : Nat) : List Byte := pnFrom lfsrSeed n

/-- `PN[k]` (R160): the state after `8k` bits of the sequence from the seed. -/
def pnByte (k : Nat) : Byte := lfsrSteps (8 * k) lfsrSeed

/-- `Execute` of RAND: one run exclusive-ored into `[start, stop)`, the bytes outside copied (R162). -/
def rand (inp : Inputs) : Except ErrorKind (List Byte) :=
  onInput inp fun d =>
    let start := inp.arg0.toNat
    let stop := inp.arg1.toNat
    if start > stop ∨ stop > d.length then .error .structural
    else .ok (d.take start ++ xorBytes ((d.drop start).take (stop - start)) (pnRun (stop - start)) ++ d.drop stop)

/-- RAND (R162). -/
def execRand (s : State) : Host.Outcome State Fault Refusal := .next (finishOutput (rand s.inputs) (spendLfsr s))

end Sys2Proof.Machine
end

