-- ==== Sys2Proof/Machine/Cltu.lean ====
section
/-! DEFINITION. CLTU framing (45_bch_cltu.md, R206 to R210). -/

namespace Sys2Proof.Machine

/-- START_SEQUENCE (R206, R207). -/
def startSequence : List Byte := [0xEB, 0x90]

/-- STOP_SEQUENCE: eight C5 bytes (R206, R207). -/
def stopSequence : List Byte := List.replicate 8 0xC5

/-- The filler byte of the last block (R206). -/
def filler : Byte := 0x55

/-- Randomize or derandomize one 7-byte block, each a fresh run, where CTRL.CLTU_RAND is set (R26, R206, R208, R210). -/
def cltuMask (rnd : Bool) (blk : List Byte) : List Byte := if rnd then xorBytes blk (pnRun 7) else blk

/-- How many blocks an input makes: an empty one makes one (R206). -/
def cltuBlocks (d : List Byte) : Nat := max 1 ((d.length + 6) / 7)

/-- Block `b` of the input, filled up to 7 bytes (R206). -/
def cltuBlock (d : List Byte) (b : Nat) : List Byte :=
  let blk := (d.drop (7 * b)).take 7
  blk ++ List.replicate (7 - blk.length) filler

/-- The codeword of one block (R206). -/
def cltuCodeword (v : Config.BchVariant) (rnd : Bool) (blk : List Byte) : List Byte :=
  cltuMask rnd blk ++ [bchCheck v (cltuMask rnd blk)]

/-- The CLTU of an input (R206, R207). -/
def cltuFrame (v : Config.BchVariant) (rnd : Bool) (d : List Byte) : List Byte :=
  startSequence ++ ((List.range (cltuBlocks d)).flatMap fun b => cltuCodeword v rnd (cltuBlock d b)) ++ stopSequence

/-- `Execute` of CLTU_ENCODE (R206). -/
def cltuEncode (v : Config.BchVariant) (inp : Inputs) : Except ErrorKind (List Byte) :=
  onInput inp fun d =>
    if 2 + 8 * cltuBlocks d + 8 > Config.bufSize then .error .capacity else .ok (cltuFrame v inp.cltuRand d)

/-- The least index at which the start sequence stands (R208). -/
def findStart (d : List Byte) : Option Nat :=
  (List.range d.length).find? fun i => (d.drop i).take 2 == startSequence

/-- The greatest index, at `lo` or above, at which the stop sequence stands (R208). -/
def findStop (d : List Byte) (lo : Nat) : Option Nat :=
  (List.range d.length).reverse.find? fun j => decide (lo ≤ j) && (d.drop j).take 8 == stopSequence

/-- Check and unwrap `n` codewords in order; the first that fails ends it (R208, R236). -/
def unwrapCodewords (v : Config.BchVariant) (rnd : Bool) (n : Nat) (span : List Byte) :
    Except ErrorKind (List Byte) :=
  match n with
  | 0 => .ok []
  | n + 1 =>
    match checkCodeword v (span.take 8) with
    | .error k => .error k
    | .ok blk =>
      match unwrapCodewords v rnd n (span.drop 8) with
      | .error k => .error k
      | .ok rest => .ok (cltuMask rnd blk ++ rest)

/-- Drop every trailing filler byte (R208). -/
def stripFiller (out : List Byte) : List Byte := (out.reverse.dropWhile (· == filler)).reverse

/-- The data of the codewords between the start and the stop sequence (R208). -/
def unwrapSpan (v : Config.BchVariant) (rnd : Bool) (span : List Byte) : Except ErrorKind (List Byte) :=
  if span.length = 0 then .error .structural
  else if span.length % 8 ≠ 0 then .error .structural
  else
    match unwrapCodewords v rnd (span.length / 8) span with
    | .error k => .error k
    | .ok out => .ok (stripFiller out)

/-- Find the CLTU in a string and unwrap it (R208). -/
def cltuUnframe (v : Config.BchVariant) (rnd : Bool) (d : List Byte) : Except ErrorKind (List Byte) :=
  match findStart d with
  | none => .error .markerNotFound
  | some i =>
    match findStop d (i + 2) with
    | none => .error .markerNotFound
    | some j => unwrapSpan v rnd ((d.drop (i + 2)).take (j - (i + 2)))

/-- `Execute` of CLTU_DECODE (R208). -/
def cltuDecode (v : Config.BchVariant) (inp : Inputs) : Except ErrorKind (List Byte) :=
  onInput inp fun d => cltuUnframe v inp.cltuRand d

/-- CLTU_ENCODE (R206). -/
def execCltuEncode (s : State) : Host.Outcome State Fault Refusal :=
  .next (finishOutput (cltuEncode Config.bchVariant s.inputs) (spendBch (spendLfsr s)))

/-- CLTU_DECODE (R208). -/
def execCltuDecode (s : State) : Host.Outcome State Fault Refusal :=
  .next (finishOutput (cltuDecode Config.bchVariant s.inputs) (spendBch (spendLfsr s)))

end Sys2Proof.Machine
end

