-- ==== Sys2Proof/Machine/Common.lean ====
section
/-! DEFINITION. NOP, MOVE and the illegal command word (40_command_common.md, R72). -/

namespace Sys2Proof.Machine

/-- An accepted illegal command word: IllegalCommand, and no state changes but CMD and STATUS (R72, R102, R235). -/
def execIllegal (s : State) : Host.Outcome State Fault Refusal := .next (raiseError false .illegalCommand s)

/-- NOP (R104): no effect, no check, success. -/
def execNop (s : State) : Host.Outcome State Fault Refusal := .next (succeed s)

/-- MOVE (R105): `IBUF[0:n) <- OBUF[0:n)` and `ILEN.LEN <- n`, with `n = OLEN.LEN`. It makes no check of ILEN. -/
def execMove (s : State) : Host.Outcome State Fault Refusal :=
  .next (succeed { s with ibuf := s.ibuf.writeBytes 0 (s.obuf.bytes s.olen.toNat), ilen := s.olen })

end Sys2Proof.Machine
end

