-- ==== Sys2Proof/Machine/Gf256.lean ====
section
/-! DEFINITION. The field GF(2^8) of R180 and polynomials over it, as lists of coefficients. -/

namespace Sys2Proof.Machine

/-- The product with `x`, reduced by `x^8 = x^4 + x^3 + x^2 + 1` (R180). -/
def xtime (b : Byte) : Byte := (b <<< 1) ^^^ (if b.getLsbD 7 then 0x1D else 0)

/-- The product of `b` with the low `n` bits of `a`, bit `i` of `a` standing for `x^i` (R180). -/
def gmulBits (n : Nat) (a b : Byte) : Byte :=
  match n with
  | 0 => 0
  | n + 1 => (if a.getLsbD 0 then b else 0) ^^^ gmulBits n (a >>> 1) (xtime b)

/-- Multiplication (R180). Addition is `^^^`. -/
def gmul (a b : Byte) : Byte := gmulBits 8 a b

/-- Powers. -/
def gpow (a : Byte) (n : Nat) : Byte :=
  match n with
  | 0 => 1
  | n + 1 => gmul (gpow a n) a

/-- The inverse of a non-zero byte: its power 254, since the non-zero bytes are the 255 powers of alpha (R180). -/
def ginv (a : Byte) : Byte := gpow a 254

/-- `alpha^e`, with `alpha = 0x02` and the exponent taken modulo 255 (R180). -/
def alphaPow (e : Nat) : Byte := gpow 0x02 (e % 255)

/-- The value at `x` of the polynomial whose first coefficient is that of the highest power (R181). -/
def evalHigh (c : List Byte) (x : Byte) : Byte := c.foldl (fun acc b => gmul acc x ^^^ b) 0

/-- The value at `x` of the polynomial whose first coefficient is the constant one. -/
def evalLow (p : List Byte) (x : Byte) : Byte := p.foldr (fun c acc => c ^^^ gmul x acc) 0

/-- The sum of the products of two coefficient lists, index by index. -/
def dot (p q : List Byte) : Byte := (List.zipWith gmul p q).foldr (· ^^^ ·) 0

/-- The product of a polynomial, constant coefficient first, with `x - a`. -/
def mulLinear (a : Byte) (p : List Byte) : List Byte := xorLists (0 :: p) (p.map (gmul a) ++ [0])
where
  /-- The sum of two coefficient lists of one length. -/
  xorLists (p q : List Byte) : List Byte := List.zipWith (· ^^^ ·) p q

/-- The monic polynomial, constant coefficient first, whose roots are the listed values. -/
def rootProduct (xs : List Byte) : List Byte := xs.foldr mulLinear [1]

end Sys2Proof.Machine
end

