-- ==== Sys2Proof/Machine/ReedSolomon.lean ====
section
/-! DEFINITION. The Reed-Solomon (255,223) encoder and decoder (44_reed_solomon.md). -/

namespace Sys2Proof.Machine

/-! ## The code -/

/-- The first consecutive root's exponent, `RS_FCR` (R8). -/
def rsFcr : Nat := 112

/-- Root `j` of the generator, `alpha^(112 + j)` (R182). -/
def rsRoot (j : Nat) : Byte := alphaPow (rsFcr + j)

/-- The coefficients of the generator, from `x^32` down to `x^0` (R182). -/
def rsGenerator : List Byte :=
  [0x01, 0xEC, 0xF4, 0xDC, 0x85, 0xEE, 0x89, 0xC9, 0x07, 0x8D, 0x0B, 0xE2, 0x22, 0xFC, 0xD1, 0x16, 0x4E,
    0x16, 0xD1, 0xFC, 0x22, 0xE2, 0x0B, 0x8D, 0x07, 0xC9, 0x89, 0xEE, 0x85, 0xDC, 0xF4, 0xEC, 0x01]

/-- Syndrome `j` of a block: its value at root `j`, its first byte the highest coefficient (R181, R183). -/
def syndrome (r : List Byte) (j : Nat) : Byte := evalHigh r (rsRoot j)

/-- The 32 syndromes of a block (R183). -/
def syndromes (r : List Byte) : List Byte := (List.range 32).map (syndrome r)

/-- A 255-byte block is a codeword when every syndrome is 0 (R183). -/
def isCodeword (c : List Byte) : Bool := decide (c.length = 255) && (syndromes c).all (· == 0)

/-- In how many positions two blocks differ (R186). -/
def distance (c r : List Byte) : Nat := (List.zipWith (fun a b => if a = b then 0 else 1) c r).sum

/-! ## Encoding -/

/-- One data byte into the encoder's shift register (R185). -/
def rsShiftIn (rem : List Byte) (d : Byte) : List Byte :=
  let fb := d ^^^ rem.headD 0
  List.zipWith (fun r g => r ^^^ gmul fb g) (rem.tail ++ [0]) rsGenerator.tail

/-- The 32 check bytes of the data: the remainder of `d(x) x^32` by the generator, highest coefficient first (R184), by
the shift register of R185. -/
def rsParity (d : List Byte) : List Byte := d.foldl rsShiftIn (List.replicate 32 0)

/-- `Execute` of RS_ENCODE (R184). -/
def rsEncode (inp : Inputs) : Except ErrorKind (List Byte) :=
  onInput inp fun d => if d.length ≠ 223 then .error .lengthMismatch else .ok (d ++ rsParity d)

/-! ## Decoding

R187 leaves the algorithm open and R186 fixes its result. This one finds a polynomial `u` of degree at most 16 with
`u_0 S_m + ... + u_16 S_(m+16) = 0` for `m` in 0..15: its roots hold the location `alpha^(254-i)` of every error when
there are at most 16. It then takes each error value from the syndromes, and delivers the corrected block only if that
is a codeword within 16 byte errors of the received one. Log entry 16. -/

/-- Keep of a list of vectors those that `row` sends to 0, making them so by adding multiples of the first that it does
not, which is dropped. -/
def eliminate (row : List Byte) (basis : List (List Byte)) : List (List Byte) :=
  match basis with
  | [] => []
  | b :: rest =>
    if dot row b = 0 then b :: eliminate row rest
    else rest.map fun c => List.zipWith (· ^^^ ·) c (b.map (gmul (gmul (dot row c) (ginv (dot row b)))))

/-- Unit vector `i` of length 17. -/
def unitVector (i : Nat) : List Byte := (List.range 17).map fun k => if k = i then 1 else 0

/-- The polynomial `u`, constant coefficient first: the first vector that all 16 rows of syndromes send to 0. It is the
reciprocal of the error-locator polynomial of R187. -/
def rsLocator (syn : List Byte) : List Byte :=
  (((List.range 16).foldl (fun basis m => eliminate ((syn.drop m).take 17) basis)
    ((List.range 17).map unitVector))).headD []

/-- The location of position `i`: `X = alpha^(254-i)` (R187). -/
def location (i : Nat) : Byte := alphaPow (254 - i)

/-- The positions whose location is a root of `u`, the search over the 255 positions of R187. -/
def rsPositions (u : List Byte) : List Nat := (List.range 255).filter fun i => evalLow u (location i) = 0

/-- The error at position `i`, the suspected positions being `ps`: with `M` the product of `x - X'` over the locations
of the others, it is `(M_0 S_0 + M_1 S_1 + ...) / (X^112 M(X))`. -/
def rsErrorValue (syn : List Byte) (ps : List Nat) (i : Nat) : Byte :=
  let m := rootProduct ((ps.filter (· ≠ i)).map location)
  gmul (dot m syn) (ginv (gmul (gpow (location i) rsFcr) (evalLow m (location i))))

/-- The received block with the suspected positions corrected. -/
def rsCorrect (r : List Byte) : List Byte :=
  let syn := syndromes r
  let ps := rsPositions (rsLocator syn)
  (List.range 255).map fun i => if i ∈ ps then r.getD i 0 ^^^ rsErrorValue syn ps i else r.getD i 0

/-- The data of the codeword within 16 byte errors of a 255-byte block, if there is one (R186). -/
def rsDecodeBlock (r : List Byte) : Except ErrorKind (List Byte) :=
  let c := rsCorrect r
  if isCodeword c && decide (distance c r ≤ 16) then .ok (c.take 223) else .error .checksum

/-- `Execute` of RS_DECODE (R186). -/
def rsDecode (inp : Inputs) : Except ErrorKind (List Byte) :=
  onInput inp fun r => if r.length ≠ 255 then .error .lengthMismatch else rsDecodeBlock r

/-! ## Commands -/

/-- Run an RS command under a profile: only DOC_11D is specified (R189). Log entry 15. -/
def underProfile (p : Config.RsProfile) (run : Host.Outcome State Fault Refusal) : Host.Outcome State Fault Refusal :=
  match p with
  | .doc11D => run
  | .other => .refused .rsProfile

/-- RS_ENCODE (R184). -/
def execRsEncode (s : State) : Host.Outcome State Fault Refusal :=
  underProfile Config.rsProfile (.next (finishOutput (rsEncode s.inputs) (spendRs s)))

/-- RS_DECODE (R186). -/
def execRsDecode (s : State) : Host.Outcome State Fault Refusal :=
  underProfile Config.rsProfile (.next (finishOutput (rsDecode s.inputs) (spendRs s)))

end Sys2Proof.Machine
end

