-- ==== Sys2Proof/Machine/Dispatch.lean ====
section
/-! DEFINITION. The meaning of every command, one arm each (R71). -/

namespace Sys2Proof.Machine

def exec (i : Instr) (s : State) : Host.Outcome State Fault Refusal :=
  match i with
  | .nop => Sys2Proof.Machine.execNop s
  | .asmAttach => Sys2Proof.Machine.execAsmAttach s
  | .asmDetach => Sys2Proof.Machine.execAsmDetach s
  | .rand => Sys2Proof.Machine.execRand s
  | .rsEncode => Sys2Proof.Machine.execRsEncode s
  | .rsDecode => Sys2Proof.Machine.execRsDecode s
  | .bchEncode => Sys2Proof.Machine.execBchEncode s
  | .bchDecode => Sys2Proof.Machine.execBchDecode s
  | .cltuEncode => Sys2Proof.Machine.execCltuEncode s
  | .cltuDecode => Sys2Proof.Machine.execCltuDecode s
  | .bfExtract => Sys2Proof.Machine.execBfExtract s
  | .bfInsert => Sys2Proof.Machine.execBfInsert s
  | .move => Sys2Proof.Machine.execMove s

end Sys2Proof.Machine
end

