-- ==== Sys2Proof/Machine/Execute.lean ====
section
/-! DEFINITION. Fetching and running the accepted command word (R100, R102). -/

namespace Sys2Proof.Machine

/-- The command word the block runs next: the accepted word of the command in flight, once its delay is over (R65,
R100, R106). -/
def readyWord (s : State) : Option Word :=
  match s.inFlight with
  | some f => if f.delay = 0 then some f.word else none
  | none => none

/-- Run a command word to its completion: the command it names, or IllegalCommand (R72, R102). -/
def execWord (w : Word) (s : State) : Host.Outcome State Fault Refusal :=
  match decode w with
  | .ok i => exec i s
  | .error _ => execIllegal s

end Sys2Proof.Machine
end

