-- ==== Sys2Proof/Machine/Bus.lean ====
section
/-! DEFINITION. The host's bus accesses: which are legal, and what each does (20_memory.md). -/

namespace Sys2Proof.Machine

/-- The block's answer to one access. -/
inductive Response where
  /-- The data of a read. -/
  | data (v : Word)
  /-- A write was performed, or ignored as its rule says. -/
  | written
  /-- The error response; a read's data is 0x00000000 (R54). -/
  | busError
  deriving DecidableEq, Repr

/-- An access that is addressed to the block (R51). -/
def Access.addressed (a : Access) : Bool := decide (a.offset < Config.windowSize)

/-- The legal accesses (R52): 32 bits aligned in the register region; 8 bits, or 32 bits aligned, in the buffers. -/
def Access.legal (a : Access) : Bool :=
  if a.offset < 0x1000 then a.width = 4 ∧ a.offset % 4 = 0
  else a.width = 1 ∨ (a.width = 4 ∧ a.offset % 4 = 0)

/-- The bus address of an offset of the window (R51). -/
def busAddress (offset : Nat) : Nat := Config.base + offset

/-- The offset of a bus address that is addressed to the block; `none` outside the window (R51). -/
def windowOffset (address : Nat) : Option Nat :=
  if Config.base ≤ address ∧ address < Config.base + Config.windowSize then some (address - Config.base) else none

/-- The locations a command may be writing while it is in flight: IBUF, OBUF, ILEN, OLEN and VALUE (R101). -/
def resultLocation (offset : Nat) : Bool :=
  if offset < 0x1000 then
    match regAt offset with
    | some .ilen => true
    | some .olen => true
    | some .value => true
    | _ => false
  else true

/-- A read of a buffer: one byte in bits [7:0], or four bytes big-endian (R52, R56). -/
def bufferRead (m : Memory) (i width : Nat) : Word :=
  if width = 1 then (m.byte i).setWidth 32 else m.word i

/-- A write of a buffer: the low byte of the data, or four bytes big-endian (R52, R56). -/
def bufferWrite (m : Memory) (i width : Nat) (v : Word) : Memory :=
  if width = 1 then m.write i (v.setWidth 8) else m.writeWord i v

/-- What a legal read of the location returns where its value is specified (R20, R34, R55, R56). -/
def storedValue (a : Access) (s : State) : Word :=
  if a.offset < 0x1000 then
    match regAt a.offset with
    | some r => readReg r s
    | none => 0
  else if a.offset < 0x2000 then bufferRead s.ibuf (a.offset - 0x1000) a.width
  else bufferRead s.obuf (a.offset - 0x2000) a.width

/-- What a busy read of a result location returns (R101, U1): the free value of the draw `n`, in the bits the location
has. A byte access has 8; of ILEN and OLEN only LEN, bits [15:0], is free, and the reserved bits read 0 as always (R20,
U9). Log entry 6. -/
def unspecifiedRead (a : Access) (n : Nat) : Word :=
  if a.width = 1 then ((Config.freeRead n).setWidth 8).setWidth 32
  else
    match regAt a.offset with
    | some .ilen => ((Config.freeRead n).setWidth 16).setWidth 32
    | some .olen => ((Config.freeRead n).setWidth 16).setWidth 32
    | _ => Config.freeRead n

/-- A legal read: the data, and the state after it, which differs only where a free value was drawn (R60, R101). -/
def busRead (a : Access) (s : State) : Word × State :=
  if s.status.busy && resultLocation a.offset then
    (unspecifiedRead a s.draws, { s with draws := s.draws + 1 })
  else (storedValue a s, s)

/-- A legal write. While the block is busy it is ignored (R101); a write to a reserved offset or to OBUF always is
(R34, R36). -/
def busWrite (a : Access) (s : State) : State :=
  if s.status.busy then s
  else if a.offset < 0x1000 then
    match regAt a.offset with
    | some r => writeReg r a.data s
    | none => s
  else if a.offset < 0x2000 then { s with ibuf := bufferWrite s.ibuf (a.offset - 0x1000) a.width a.data }
  else s

/-- One access addressed to the block: its response and the block's next state. An illegal access gets a bus error and
changes no state (R53, R54). -/
def busAccess (a : Access) (s : State) : Response × State :=
  if a.legal then
    match a.kind with
    | .read => (.data (busRead a s).1, (busRead a s).2)
    | .write => (.written, busWrite a s)
  else (.busError, s)

end Sys2Proof.Machine
end

