-- ==== Sys2Proof/Machine/HostAgent.lean ====
section
/-! DEFINITION. The host's turn: the next event of its queue (R61, R77, R78). Log entry 8. -/

namespace Sys2Proof.Machine

/-- Take the first event off the queue. -/
def nextEvent (s : State) : State := { s with host := s.host.tail }

/-- The host records a value it has read (R77). -/
def record (v : Word) (s : State) : State := { s with reads := s.reads ++ [v] }

/-- How a bus error reaches the host (R54): a fault of the host, or an ignored response, whose read data is
0x00000000. -/
def reportBusError (e : Config.BusErrorEffect) (a : Access) (s : State) : Host.Outcome State Fault Refusal :=
  match e with
  | .hostFault => .fault (.busError a)
  | .ignoredResponse =>
    match a.kind with
    | .read => .next (record 0 s)
    | .write => .next s

/-- The host performs one bus access. -/
def performAccess (a : Access) (s : State) : Host.Outcome State Fault Refusal :=
  if a.addressed then
    match busAccess a s with
    | (.data v, t) => .next (record v t)
    | (.written, t) => .next t
    | (.busError, t) => reportBusError Config.busErrorEffect a t
  else .refused (.notAddressed a)

/-- One read of STATUS by the WAIT of R78, which ends when the value read has bit 0 clear. -/
def pollStatus (s : State) : State :=
  if s.status.word.getLsbD 0 then record s.status.word s else nextEvent (record s.status.word s)

/-- The host's turn: it performs the first event of its queue, if it has one (R61). -/
def hostTurn (s : State) : Host.Outcome State Fault Refusal :=
  match s.host with
  | [] => .next s
  | .access a :: _ => performAccess a (nextEvent s)
  | .wait :: _ => .next (pollStatus s)
  | .reset :: _ => .next (applyReset (nextEvent s))

end Sys2Proof.Machine
end

