-- ==== Sys2Proof/Machine/Step.lean ====
section
/-! DEFINITION. One step of the machine (R61, R62, R100): the command in flight completes when its delay is over;
until then, and while none is in flight, the host has its turn. -/

namespace Sys2Proof.Machine

/-- One step. Log entries 5, 8 and 21. -/
def step (s : State) : Host.Outcome State Fault Refusal :=
  match readyWord s with
  | some w => execWord w s
  | none => hostTurn (countDown s)

/-- The state in which that command word has been accepted and its delay is over, so that the very next step runs it.
Log entry 9. -/
def State.withFetchWord (s : State) (nbits w : Nat) : State := acceptFor 0 (tableWord nbits w) s

end Sys2Proof.Machine
end

