-- ==== Sys2Proof/Machine/HeaderMaps.lean ====
section
/-! DEFINITION. The Transfer Frame header maps (R123 to R127): data of the host's frame software. The block neither
knows nor checks them. Log entry 23. -/

namespace Sys2Proof.Machine

/-- A header field: its stream bit offset from the first byte of the frame, and its width (R123 to R125). -/
structure HeaderField where
  name : String
  offset : Nat
  width : Nat
  deriving DecidableEq, Repr

/-- The field's value in a frame, as BF_EXTRACT reads it (R120). -/
def HeaderField.get (f : HeaderField) (frame : List Byte) : Nat := streamField frame f.offset f.width

/-- The TM primary header, 6 bytes (R123). -/
def tmHeader : List HeaderField :=
  [⟨"version", 0, 2⟩, ⟨"spacecraft_id", 2, 10⟩, ⟨"virtual_channel_id", 12, 3⟩, ⟨"ocf_present", 15, 1⟩,
    ⟨"master_channel_frame_count", 16, 8⟩, ⟨"virtual_channel_frame_count", 24, 8⟩,
    ⟨"secondary_header_present", 32, 1⟩, ⟨"synchronisation_flag", 33, 1⟩, ⟨"packet_order_flag", 34, 1⟩,
    ⟨"segment_length_identifier", 35, 2⟩, ⟨"first_header_pointer", 37, 11⟩]

/-- The AOS primary header, 6 bytes (R124, conflict C2). -/
def aosHeader : List HeaderField :=
  [⟨"version", 0, 2⟩, ⟨"spacecraft_id", 2, 8⟩, ⟨"virtual_channel_id", 10, 6⟩,
    ⟨"virtual_channel_frame_count", 16, 24⟩, ⟨"replay_flag", 40, 1⟩,
    ⟨"virtual_channel_frame_count_usage_flag", 41, 1⟩, ⟨"reserved", 42, 2⟩,
    ⟨"virtual_channel_frame_count_cycle", 44, 4⟩]

/-- The TC primary header, 5 bytes (R125, conflict C3). -/
def tcHeader : List HeaderField :=
  [⟨"version", 0, 2⟩, ⟨"bypass_flag", 2, 1⟩, ⟨"control_command_flag", 3, 1⟩, ⟨"reserved", 4, 2⟩,
    ⟨"spacecraft_id", 6, 10⟩, ⟨"virtual_channel_id", 16, 6⟩, ⟨"frame_length_minus_1", 22, 10⟩,
    ⟨"virtual_channel_frame_count", 32, 8⟩]

/-- The AOS M_PDU pointer in its 2-byte field: 5 spare bits, then 11 bits (R124). -/
def aosFirstHeaderPointer : HeaderField := ⟨"first_header_pointer", 5, 11⟩

/-- The AOS B_PDU pointer in its 2-byte field: 2 spare bits, then 14 bits (R124). -/
def aosBitstreamDataPointer : HeaderField := ⟨"bitstream_data_pointer", 2, 14⟩

/-- The fields stand one after the other from bit `at` and end at bit `stop`. -/
def fieldsTile (at_ stop : Nat) (fs : List HeaderField) : Bool :=
  match fs with
  | [] => at_ == stop
  | f :: rest => f.offset == at_ && fieldsTile (at_ + f.width) stop rest

/-- The idle value of an 11-bit first header pointer, TM and AOS (R126). -/
def fhpIdle : Nat := 0x7FE

/-- The no-packet-start value of an 11-bit first header pointer (R126). -/
def fhpNoPacket : Nat := 0x7FF

/-- The idle value of a bitstream data pointer (R126). -/
def bdpIdle : Nat := 0x3FFE

/-- The all-valid value of a bitstream data pointer (R126). -/
def bdpAllValid : Nat := 0x3FFF

/-- The AOS virtual channel of idle frames, whatever the pointer value (R126). -/
def aosIdleChannel : Nat := 63

/-- The pad octet of idle frames (R127). -/
def padOctet : Byte := 0x55

/-- TM: without the synchronisation flag, the packet order flag is clear and the segment length identifier 3 (R127). -/
def tmSyncRule (synchronisation packetOrder : Bool) (segmentLengthId : Nat) : Bool :=
  synchronisation || (!packetOrder && segmentLengthId == 3)

/-- AOS: the frame count cycle is 0 where its usage flag is clear (R127). -/
def aosCycleRule (usageFlag : Bool) (cycle : Nat) : Bool := usageFlag || cycle == 0

/-- TC: the encoded length plus 1 is the buffer's length, at most 1024 octets (R127). -/
def tcLengthRule (frameLengthMinus1 bufferLength : Nat) : Bool :=
  frameLengthMinus1 + 1 == bufferLength && decide (bufferLength ≤ 1024)

/-- The TC frame types (R127). -/
inductive TcFrameType where
  | ad
  | bd
  | bc
  deriving DecidableEq, Repr

/-- BC exactly when the control command flag is set, else BD exactly when the bypass flag is, else AD (R127). -/
def tcFrameType (controlCommand bypass : Bool) : TcFrameType :=
  if controlCommand then .bc else if bypass then .bd else .ad

/-- The data field of the TC control command UNLOCK (R127). -/
def tcUnlock : List Byte := [0x00]

/-- The data field of the TC control command SET_VR(n) (R127). -/
def tcSetVr (n : Byte) : List Byte := [0x82, 0x00, n]

/-- The OCF holds a CLCW where its stream bit 0 is 0 (R127). -/
def ocfIsClcw (ocf : List Byte) : Bool := streamBit ocf 0 == false

end Sys2Proof.Machine
end

