-- ==== Sys2Proof/Machine/HostProgram.lean ====
section
/-! DEFINITION. Host programs: the statements of R77, the pseudo-statements of R78, and their encoding as bus accesses
(R79). -/

namespace Sys2Proof.Machine

/-- One statement of a host program (R77, R78). -/
inductive Stmt where
  /-- `WRITE <reg>, <v>` -/
  | write (r : Reg) (v : Word)
  /-- `READ <reg>` -/
  | read (r : Reg)
  /-- `STOREB IBUF+<i>, <b>` -/
  | storeb (i : Nat) (b : Byte)
  /-- `STOREW IBUF+<4k>, <w>` -/
  | storew (i : Nat) (w : Word)
  /-- `LOADB OBUF+<i>` -/
  | loadb (i : Nat)
  /-- `CMD <mnemonic>` -/
  | cmd (c : Instr)
  /-- `WAIT` -/
  | wait
  /-- `RUN <mnemonic>` -/
  | run (c : Instr)
  /-- `LOAD IBUF+<i>, <hex>` -/
  | load (i : Nat) (bs : List Byte)
  /-- `FILL IBUF+<i>, <n>, <b>` -/
  | fill (i n : Nat) (b : Byte)
  /-- `SETLEN <n>` -/
  | setlen (n : Word)
  /-- `RAND_RANGE <a>, <b>` -/
  | randRange (a b : Word)
  /-- `RAND_ALL <n>` -/
  | randAll (n : Word)
  /-- `EXTRACT <off>, <w>` -/
  | extract (off w : Word)
  /-- `INSERT <off>, <w>, <v>` -/
  | insert (off w v : Word)
  /-- `SETASM <hex>` -/
  | setasm (bs : List Byte)
  /-- `CHAIN` -/
  | chain
  deriving DecidableEq, Repr

/-- The access of `WRITE <reg>, <v>` (R77). -/
def writeAccess (r : Reg) (v : Word) : HostEvent :=
  .access { kind := .write, offset := r.offset, width := 4, data := v }

/-- The access of `READ <reg>` (R77). -/
def readAccess (r : Reg) : HostEvent := .access { kind := .read, offset := r.offset, width := 4, data := 0 }

/-- The access of `STOREB IBUF+<i>, <b>` (R77). -/
def storebAccess (i : Nat) (b : Byte) : HostEvent :=
  .access { kind := .write, offset := 0x1000 + i, width := 1, data := b.setWidth 32 }

/-- The access of `STOREW IBUF+<4k>, <w>` (R77). -/
def storewAccess (i : Nat) (w : Word) : HostEvent :=
  .access { kind := .write, offset := 0x1000 + i, width := 4, data := w }

/-- The access of `LOADB OBUF+<i>` (R77). -/
def loadbAccess (i : Nat) : HostEvent := .access { kind := .read, offset := 0x2000 + i, width := 1, data := 0 }

/-- `LOAD` and `FILL`: one byte store per byte. R78 also lets each aligned group of four bytes be emitted as one STOREW,
with the same effect (R58); DESIGN CHOICE: byte stores only. Log entry 25. -/
def loadAccesses (i : Nat) (bs : List Byte) : List HostEvent :=
  match bs with
  | [] => []
  | b :: rest => storebAccess i b :: loadAccesses (i + 1) rest

/-- `RUN <mnemonic>` (R78). -/
def runEvents (c : Instr) : List HostEvent := [writeAccess .cmd (encode c), .wait]

/-- Marker bytes `4j` to `4j + 3` as ASM_PAT0 or ASM_PAT1 holds them, unused bytes zero (R33, R78). -/
def packPattern (bs : List Byte) (j : Nat) : Word :=
  wordOfBytes (bs.getD (4 * j) 0) (bs.getD (4 * j + 1) 0) (bs.getD (4 * j + 2) 0) (bs.getD (4 * j + 3) 0)

/-- The expansion of a statement (R77, R78). -/
def Stmt.expand : Stmt → List HostEvent
  | .write r v => [writeAccess r v]
  | .read r => [readAccess r]
  | .storeb i b => [storebAccess i b]
  | .storew i w => [storewAccess i w]
  | .loadb i => [loadbAccess i]
  | .cmd c => [writeAccess .cmd (encode c)]
  | .wait => [.wait]
  | .run c => runEvents c
  | .load i bs => loadAccesses i bs
  | .fill i n b => loadAccesses i (List.replicate n b)
  | .setlen n => [writeAccess .ilen n]
  | .randRange a b => [writeAccess .arg0 a, writeAccess .arg1 b] ++ runEvents .rand
  | .randAll n => [writeAccess .arg0 0, writeAccess .arg1 n] ++ runEvents .rand
  | .extract off w => [writeAccess .arg0 off, writeAccess .arg1 w] ++ runEvents .bfExtract ++ [readAccess .value]
  | .insert off w v => [writeAccess .arg0 off, writeAccess .arg1 w, writeAccess .value v] ++ runEvents .bfInsert
  | .setasm bs =>
    [writeAccess .asmLen (BitVec.ofNat 32 bs.length), writeAccess .asmPat0 (packPattern bs 0),
      writeAccess .asmPat1 (packPattern bs 1)]
  | .chain => runEvents .move

/-- The encoding of a host program (R79). -/
def encodeProgram (p : List Stmt) : List HostEvent := p.flatMap Stmt.expand

/-- The state in which the host goes on to run this program. -/
def State.withProgram (s : State) (p : List Stmt) : State := { s with host := s.host ++ encodeProgram p }

end Sys2Proof.Machine
end

