-- ==== Sys2Proof/WellFormed.lean ====
section
/-! DEFINITION. Well-formedness: of a command, of a bus access, and of a statement of a host program. -/

namespace Sys2Proof

/-- A command has no operand fields (R70), so every command is well formed. -/
def Instr.wellFormed : Instr → Bool
  | .nop | .asmAttach | .asmDetach | .rand | .rsEncode | .rsDecode | .bchEncode | .bchDecode | .cltuEncode
  | .cltuDecode | .bfExtract | .bfInsert | .move => true

/-- An access is addressed to the block and legal (R51, R52). -/
def Machine.Access.wellFormed (a : Machine.Access) : Bool := a.addressed && a.legal

/-- A statement stays inside the buffer it names, a word store is aligned, and a marker has 1 to 8 bytes (R35, R36, R52,
R78). -/
def Machine.Stmt.wellFormed : Machine.Stmt → Bool
  | .storeb i _ => decide (i < Config.bufSize)
  | .storew i _ => decide (i + 4 ≤ Config.bufSize) && i % 4 == 0
  | .loadb i => decide (i < Config.bufSize)
  | .load i bs => decide (i + bs.length ≤ Config.bufSize)
  | .fill i n _ => decide (i + n ≤ Config.bufSize)
  | .setasm bs => decide (1 ≤ bs.length ∧ bs.length ≤ 8)
  | .write _ _ | .read _ | .cmd _ | .wait | .run _ | .setlen _ | .randRange _ _ | .randAll _ | .extract _ _
  | .insert _ _ _ | .chain => true

end Sys2Proof
end

