-- ==== Sys2Proof/Safety.lean ====
section
/-! DEFINITION. What counts as a good state, and how a command can leave one: the terms the statements use. -/

namespace Sys2Proof.Machine

/-! ## The invariant of the machine -/

/-- The values STATUS can have: reset, accepted, succeeded, or failed with a kind the block raises (R24, R232, R233). -/
def StatusLegal (st : Status) : Prop :=
  st = Status.reset ∨ st = Status.accepted ∨ st = Status.succeeded ∨ ∃ k, k ≠ .builderState ∧ st = Status.failed k

/-- What every step keeps. -/
structure MachineInv (s : State) : Prop where
  /-- STATUS has one of its legal values. -/
  status : StatusLegal s.status
  /-- A command is in flight exactly while BUSY is 1 (R24, R100). -/
  busy : s.inFlight.isSome = s.status.busy
  /-- CMD holds the word of the command in flight (R23, R101). -/
  word : ∀ f, s.inFlight = some f → f.word = s.cmd
  /-- The registers and IBUF still hold what the command in flight latched (R62, R101). -/
  latched : ∀ f, s.inFlight = some f → f.inputs = latch s
  /-- IBUF is in canonical form. -/
  ibuf : s.ibuf.wf
  /-- OBUF is in canonical form. -/
  obuf : s.obuf.wf
  /-- OLEN is at most BUF_SIZE (R28). -/
  olen : s.olen.toNat ≤ Config.bufSize
  /-- The specified bytes of OBUF are those below OLEN (R36). -/
  output : ∀ i, (lookupCell s.obuf.cells i).isSome = decide (i < s.olen.toNat)

/-! ## How a command leaves the machine -/

/-- STATUS after a failure with `k`: 0x00000006 | (code << 4) (R233). -/
def failedWord (k : ErrorKind) : Word := 0x06 ||| (k.code.setWidth 32 <<< 4)

/-- What no command changes: CMD, CTRL, ARG0, ARG1, the marker registers, and the world outside (R21, R75, R107). -/
structure Kept (s t : State) : Prop where
  cmd : t.cmd = s.cmd
  ctrl : t.cltuRand = s.cltuRand
  arg0 : t.arg0 = s.arg0
  arg1 : t.arg1 = s.arg1
  asmLen : t.asmLen = s.asmLen
  asmPat0 : t.asmPat0 = s.asmPat0
  asmPat1 : t.asmPat1 = s.asmPat1
  host : t.host = s.host
  reads : t.reads = s.reads

/-- IBUF, ILEN and VALUE are unchanged. -/
structure InputKept (s t : State) : Prop where
  ilen : t.ilen = s.ilen
  value : t.value = s.value
  ibuf : ∀ i, t.ibuf.byte i = s.ibuf.byte i

/-- OBUF and OLEN are unchanged. -/
structure OutputKept (s t : State) : Prop where
  olen : t.olen = s.olen
  obuf : ∀ i, t.obuf.byte i = s.obuf.byte i

/-- The same output: OLEN, and the bytes of OBUF it makes valid (R28, R36). -/
structure SameOutput (s t : State) : Prop where
  olen : s.olen = t.olen
  bytes : ∀ j, j < s.olen.toNat → s.obuf.byte j = t.obuf.byte j

/-- `t` is `s` after a command that delivered the byte string `out` (R36, R100, R103). -/
structure Delivered (s t : State) (out : List Byte) : Prop where
  status : t.status.word = 0x02
  idle : t.inFlight = none
  kept : Kept s t
  input : InputKept s t
  olen : t.olen.toNat = out.length
  bytes : t.obuf.bytes out.length = out

/-- `t` is `s` after a command that writes OBUF failed with `k` (R233, R235). -/
structure FailedOutput (s t : State) (k : ErrorKind) : Prop where
  status : t.status.word = failedWord k
  idle : t.inFlight = none
  kept : Kept s t
  input : InputKept s t
  olen : t.olen = 0

/-- `t` is `s` after a command with no effect but on STATUS, which then reads `st` (R100, R235). -/
structure OnlyStatus (s t : State) (st : Word) : Prop where
  status : t.status.word = st
  idle : t.inFlight = none
  kept : Kept s t
  input : InputKept s t
  output : OutputKept s t
  work : t.work = s.work

/-- No hidden register but the LFSR has changed (R37). -/
def OnlyLfsrSpent (s t : State) : Prop := t.work = { s.work with lfsr := t.work.lfsr }

/-- No hidden register but the BCH shift register has changed (R37). -/
def OnlyBchSpent (s t : State) : Prop := t.work = { s.work with bchShift := t.work.bchShift }

/-- No hidden register but the LFSR and the BCH shift register has changed (R37). -/
def OnlyLfsrBchSpent (s t : State) : Prop :=
  t.work = { s.work with lfsr := t.work.lfsr, bchShift := t.work.bchShift }

/-- The LFSR and the BCH shift register have not changed (R37). -/
def OnlyRsSpent (s t : State) : Prop := t.work.lfsr = s.work.lfsr ∧ t.work.bchShift = s.work.bchShift

/-! ## What the commands find in their input -/

/-- The data's stop sequence or start sequence stands at index `i` of `d` (R208). -/
def StandsAt (mark d : List Byte) (i : Nat) : Prop := (d.drop i).take mark.length = mark

/-- `i` is the least index at which the start sequence stands (R208). -/
def FirstStart (d : List Byte) (i : Nat) : Prop :=
  StandsAt [0xEB, 0x90] d i ∧ ∀ i', i' < i → ¬ StandsAt [0xEB, 0x90] d i'

/-- `j` is the greatest index, at `i + 2` or above, at which the stop sequence stands (R208). -/
def LastStop (d : List Byte) (i j : Nat) : Prop :=
  i + 2 ≤ j ∧ StandsAt (List.replicate 8 0xC5) d j ∧ ∀ j', j < j' → ¬ StandsAt (List.replicate 8 0xC5) d j'

/-- Codeword `q` of a span of codewords (R208). -/
def codewordAt (span : List Byte) (q : Nat) : List Byte := (span.drop (8 * q)).take 8

/-- An 8-byte codeword whose check byte is that of its first 7 bytes (R204). -/
abbrev CodewordGood (v : Config.BchVariant) (c : List Byte) : Prop := c.getD 7 0 = bchCheck v (c.take 7)

/-- Byte `j` of a 7-byte block is exclusive-ored with PN[j] where randomization is on (R206, R208). -/
def maskByte (rnd : Bool) (b : Byte) (j : Nat) : Byte := if rnd then b ^^^ pnByte j else b

/-- The data of the codewords of a span, derandomized where randomization is on (R208). -/
def spanData (rnd : Bool) (span : List Byte) : List Byte :=
  (List.range (span.length / 8 * 7)).map fun k => maskByte rnd ((codewordAt span (k / 7)).getD (k % 7) 0) (k % 7)

/-- `out` is `d` without its trailing filler bytes (R208). -/
def Stripped (d out : List Byte) : Prop :=
  (∃ n, d = out ++ List.replicate n 0x55) ∧ (out = [] ∨ out.getD (out.length - 1) 0 ≠ 0x55)

/-- How many stream bits of a string are set. -/
def bitsSet (e : List Byte) : Nat := ((List.range (8 * e.length)).filter (streamBit e)).length

/-- The product of two binary polynomials, the first of degree below `n` (R12). -/
def carryless (n a b : Nat) : Nat :=
  (List.range n).foldl (fun acc i => if a.testBit i then acc ^^^ (b <<< i) else acc) 0

/-- Coefficient `k` of the product of two polynomials over GF(2^8), both from their constant coefficient up (R180). -/
def productCoefficient (p q : List Byte) (k : Nat) : Byte :=
  ((List.range (k + 1)).map fun i => gmul (p.getD i 0) (q.getD (k - i) 0)).foldr (· ^^^ ·) 0

/-- Bit `n` of the pseudo-random sequence (R160): the oldest bit of the LFSR state after `n` bits. -/
def lfsrBit (n : Nat) : Bool := (lfsrSteps n lfsrSeed).getLsbD 7

/-- Stream bit `j` of a buffer (R9, R120). -/
def bufferBit (m : Memory) (j : Nat) : Bool := (m.byte (j / 8)).getLsbD (7 - j % 8)

/-! ## Runs -/

/-- The answer is a next state. -/
def Completes (o : Host.Outcome State Fault Refusal) : Prop := ∃ t, o = .next t

/-- A host access neither faults nor is refused, and no reset comes: the events of an undisturbed host. -/
def HostEvent.undisturbed : HostEvent → Bool
  | .access a => a.wellFormed
  | .wait => true
  | .reset => false

end Sys2Proof.Machine
end

