-- ==== Sys2Proof/Certificates/Slice0/Obligations.lean ====
section
/-! DEFINITION. The statements for the provers. Each names the rule of spec/ it formalises; what rests on a choice of the
model says so and names the log entry. -/

open Sys2Proof Sys2Proof.Machine

/-! ## Encoding -/

/-- R71: the code of every command, and a decoder that matches the whole 32-bit word. -/
def Obligations.DecoderMatchesTheWholeWord : Prop :=
  [Instr.nop, .asmAttach, .asmDetach, .rand, .rsEncode, .rsDecode, .bchEncode, .bchDecode, .cltuEncode, .cltuDecode,
      .bfExtract, .bfInsert, .move].map (fun i => (encode i).toNat) = List.range 13 ∧
    ∀ (w : Word) (i : Instr), decode w = .ok i ↔ w = encode i

/-- R72: which words are illegal; running an accepted one completes with IllegalCommand and changes STATUS alone (CMD
took the word when it was accepted), from every state. -/
def Obligations.IllegalWordsCompleteWithIllegalCommand : Prop :=
  (∀ w : Word, (∃ e, decode w = .error e) ↔ w.extractLsb' 8 24 ≠ 0 ∨ 0x0D ≤ (w.extractLsb' 0 8).toNat) ∧
    (∀ w : Word, (∃ i, decode w = .ok i) ∨ ∃ e, decode w = .error e) ∧
    ∀ (s : State) (w : Word) (e : Illegal), decode w = .error e →
      ∃ t, execWord w s = .next t ∧ OnlyStatus s t 0x76

/-- Words written out from the table of R71 decode to their commands, and four illegal words to none. -/
def Obligations.WordsOfTheTableDecode : Prop :=
  decodeTableWord 32 0b00000000000000000000000000000000 = some .nop ∧
  decodeTableWord 32 0b00000000000000000000000000000010 = some .asmDetach ∧
  decodeTableWord 32 0b00000000000000000000000000000011 = some .rand ∧
  decodeTableWord 32 0b00000000000000000000000000000101 = some .rsDecode ∧
  decodeTableWord 32 0b00000000000000000000000000000110 = some .bchEncode ∧
  decodeTableWord 32 0b00000000000000000000000000001001 = some .cltuDecode ∧
  decodeTableWord 32 0b00000000000000000000000000001011 = some .bfInsert ∧
  decodeTableWord 32 0b00000000000000000000000000001100 = some .move ∧
  decodeTableWord 32 0x0000000D = none ∧ decodeTableWord 32 0x000000FF = none ∧
  decodeTableWord 32 0x00000104 = none ∧ decodeTableWord 32 0x80000000 = none

/-! ## The step -/

/-- A step runs the decoded command: when the command in flight is ready (its delay is over; the delay is the model's
LATENCY, log entry 5) and its word decodes, the step is `exec` of that command in that state, and nothing else; where
its word is illegal, the step is the completion with IllegalCommand. -/
def Obligations.StepRunsTheDecodedCommand : Prop :=
  (∀ (s : State) (f : InFlight) (i : Instr), s.inFlight = some f → f.delay = 0 → decode f.word = .ok i →
    i.wellFormed = true ∧ step s = exec i s) ∧
  ∀ (s : State) (f : InFlight) (e : Illegal), s.inFlight = some f → f.delay = 0 → decode f.word = .error e →
    step s = execWord f.word s

/-- Where no command is ready, the step is the host's turn, the delay of a command in flight one less (log entries 5
and 8). -/
def Obligations.StepElseIsTheHostsTurn : Prop :=
  (∀ s : State, s.inFlight = none → step s = hostTurn s) ∧
    ∀ (s : State) (f : InFlight), s.inFlight = some f → f.delay ≠ 0 →
      step s = hostTurn { s with inFlight := some { f with delay := f.delay - 1 } }

/-- The state prepared for a command's word runs exactly that command next, on the registers as they stood, with CMD
holding the word and STATUS reading BUSY (log entry 9). -/
def Obligations.FetchWordRunsNext : Prop :=
  ∀ (s : State) (i : Instr),
    step (s.withFetchWord 32 (encode i).toNat) = exec i (s.withFetchWord 32 (encode i).toNat) ∧
    (s.withFetchWord 32 (encode i).toNat).inputs = latch s ∧
    (s.withFetchWord 32 (encode i).toNat).cmd = encode i ∧
    (s.withFetchWord 32 (encode i).toNat).status.word = 0x01 ∧
    Kept { s with cmd := encode i } (s.withFetchWord 32 (encode i).toNat) ∧
    InputKept s (s.withFetchWord 32 (encode i).toNat) ∧ OutputKept s (s.withFetchWord 32 (encode i).toNat)

/-! ## The invariant -/

/-- Every step keeps the invariant: STATUS has a legal value and never both BUSY and DONE, a command is in flight
exactly while BUSY is 1, CMD and the registers still hold what it latched, both buffers are in canonical form, OLEN is
at most BUF_SIZE and the specified bytes of OBUF are those below it. From every state that meets it. -/
def Obligations.EveryStepKeepsTheInvariant : Prop :=
  ∀ s t : State, MachineInv s → step s = .next t → MachineInv t

/-- The state after reset meets the invariant. -/
def Obligations.ResetMeetsTheInvariant : Prop := MachineInv State.reset

/-- R24: BUSY and DONE are never both 1, ERRCODE is 0 where ERR is, and ERRCODE never holds a code the block does not
produce (R232), in every state that meets the invariant. -/
def Obligations.StatusOfTheInvariant : Prop :=
  ∀ s : State, MachineInv s →
    ¬ (s.status.busy = true ∧ s.status.done = true) ∧ (s.status.err = false ↔ s.status.errcode = 0) ∧
    s.status.errcode.toNat ∉ [6, 9, 10, 11, 12, 13, 14, 15] ∧ s.status.word.toNat ∈ [0x00, 0x01, 0x02, 0x16, 0x26,
      0x36, 0x46, 0x56, 0x76, 0x86]

/-! ## The commands: result, errors in their order, and frame

Each says that `exec` answers a next state from EVERY state, and what that state is: the errors in the order their rule
checks them, then the command's own effect. `s.inputs` is what the command in flight latched (R62); in a state with none
in flight, which no run brings to `exec`, the registers as they stand (log entry 17). The clauses on the hidden registers
of `work` say only that a command leaves those of the units it does not use (R107); the ones it uses are free values
(R37, log entry 4) and nothing is said of them. -/

/-- R104, NOP. -/
def Obligations.NopOnlySucceeds : Prop :=
  encode .nop = 0x00000000 ∧ ∀ s : State, ∃ t, exec .nop s = .next t ∧ OnlyStatus s t 0x02

/-- R105, MOVE: `IBUF[0:n) <- OBUF[0:n)`, `ILEN.LEN <- n` with `n = OLEN.LEN`; the bytes of IBUF from `n` on, and all of
OBUF, are unchanged. -/
def Obligations.MoveCopiesOutputToInput : Prop :=
  encode .move = 0x0000000C ∧
  ∀ s : State, ∃ t, exec .move s = .next t ∧ t.status.word = 0x02 ∧ t.inFlight = none ∧ Kept s t ∧ OutputKept s t ∧
    t.value = s.value ∧ t.work = s.work ∧ t.ilen = s.olen ∧
    ∀ i, t.ibuf.byte i = if i < s.olen.toNat then s.obuf.byte i else s.ibuf.byte i

/-- R105: MOVE twice in a row is the same as once. -/
def Obligations.MoveTwiceIsMoveOnce : Prop :=
  ∀ s : State, ∃ t u, exec .move s = .next t ∧ exec .move t = .next u ∧ Kept t u ∧ OutputKept t u ∧ InputKept t u ∧
    u.status = t.status

/-- R150, ASM_ATTACH. -/
def Obligations.AsmAttachPrependsTheMarker : Prop :=
  encode .asmAttach = 0x00000001 ∧
  ∀ s : State, ∃ t, exec .asmAttach s = .next t ∧ t.work = s.work ∧
    let len := s.inputs.ilen.toNat
    let l := s.inputs.asmLen.toNat
    if len > 4096 then FailedOutput s t .structural
    else if l = 0 ∨ l > 8 then FailedOutput s t .fieldConstraint
    else if len + l > 4096 then FailedOutput s t .capacity
    else Delivered s t ((List.range l).map (asmByte s.inputs) ++ s.inputs.string)

/-- R151, ASM_DETACH. -/
def Obligations.AsmDetachStripsTheMarker : Prop :=
  encode .asmDetach = 0x00000002 ∧
  ∀ s : State, ∃ t, exec .asmDetach s = .next t ∧ t.work = s.work ∧
    let len := s.inputs.ilen.toNat
    let l := s.inputs.asmLen.toNat
    if len > 4096 then FailedOutput s t .structural
    else if l = 0 ∨ l > 8 then FailedOutput s t .fieldConstraint
    else if len < l then FailedOutput s t .markerNotFound
    else if ∃ i, i < l ∧ s.inputs.ibuf.byte i ≠ asmByte s.inputs i then FailedOutput s t .markerNotFound
    else Delivered s t (s.inputs.string.drop l)

/-- R33: the marker bytes are the bytes of ASM_PAT0 and ASM_PAT1 from their most significant one down, and the marker
after reset is `1A CF FC 1D`. -/
def Obligations.MarkerBytesOfThePatternRegisters : Prop :=
  (∀ (inp : Inputs) (i : Nat), i < 4 → (asmByte inp i).toNat = inp.asmPat0.toNat / 2 ^ (24 - 8 * i) % 256) ∧
  (∀ (inp : Inputs) (i : Nat), 4 ≤ i → i < 8 →
    (asmByte inp i).toNat = inp.asmPat1.toNat / 2 ^ (24 - 8 * (i - 4)) % 256) ∧
  (∀ inp : Inputs, asmMarker inp = (List.range inp.asmLen.toNat).map (asmByte inp)) ∧
  readReg .asmPat0 State.reset = 0x1ACFFC1D ∧ readReg .asmPat1 State.reset = 0 ∧
  asmMarker State.reset.inputs = [0x1A, 0xCF, 0xFC, 0x1D]

/-- R162, RAND. -/
def Obligations.RandExclusiveOrsOneRun : Prop :=
  encode .rand = 0x00000003 ∧
  ∀ s : State, ∃ t, exec .rand s = .next t ∧ OnlyLfsrSpent s t ∧
    let len := s.inputs.ilen.toNat
    let start := s.inputs.arg0.toNat
    let stop := s.inputs.arg1.toNat
    if len > 4096 then FailedOutput s t .structural
    else if start > stop ∨ stop > len then FailedOutput s t .structural
    else Delivered s t ((List.range len).map fun i =>
      if start ≤ i ∧ i < stop then s.inputs.ibuf.byte i ^^^ pnByte (i - start) else s.inputs.ibuf.byte i)

/-- R184, RS_ENCODE: the check bytes are the remainder of `d(x) x^32` by the generator of R182. `q` is the quotient, and
the product is written out from the constant coefficients up. -/
def Obligations.RsEncodeAppendsTheRemainder : Prop :=
  encode .rsEncode = 0x00000004 ∧
  ∀ s : State, ∃ t, exec .rsEncode s = .next t ∧ OnlyRsSpent s t ∧
    let len := s.inputs.ilen.toNat
    if len > 4096 then FailedOutput s t .structural
    else if len ≠ 223 then FailedOutput s t .lengthMismatch
    else ∃ p q : List Byte, p.length = 32 ∧ q.length = 223 ∧ Delivered s t (s.inputs.string ++ p) ∧
      ∀ k, k < 255 → (s.inputs.string ++ p).reverse.getD k 0 = productCoefficient q rsGenerator.reverse k

/-- R186, RS_DECODE: the data of a codeword within 16 byte errors if there is one, else ChecksumError. -/
def Obligations.RsDecodeIsBoundedDistance : Prop :=
  encode .rsDecode = 0x00000005 ∧
  ∀ s : State, ∃ t, exec .rsDecode s = .next t ∧ OnlyRsSpent s t ∧
    let len := s.inputs.ilen.toNat
    let r := s.inputs.string
    if len > 4096 then FailedOutput s t .structural
    else if len ≠ 255 then FailedOutput s t .lengthMismatch
    else (∀ c, isCodeword c = true → distance c r ≤ 16 → Delivered s t (c.take 223)) ∧
      ((∀ c, isCodeword c = true → distance c r > 16) → FailedOutput s t .checksum)

/-- R203, BCH_ENCODE. -/
def Obligations.BchEncodeAppendsTheCheckByte : Prop :=
  encode .bchEncode = 0x00000006 ∧
  ∀ s : State, ∃ t, exec .bchEncode s = .next t ∧ OnlyBchSpent s t ∧
    let len := s.inputs.ilen.toNat
    if len > 4096 then FailedOutput s t .structural
    else if len ≠ 7 then FailedOutput s t .lengthMismatch
    else Delivered s t (s.inputs.string ++ [bchCheck Config.bchVariant s.inputs.string])

/-- R204, BCH_DECODE. -/
def Obligations.BchDecodeChecksAndStrips : Prop :=
  encode .bchDecode = 0x00000007 ∧
  ∀ s : State, ∃ t, exec .bchDecode s = .next t ∧ OnlyBchSpent s t ∧
    let len := s.inputs.ilen.toNat
    if len > 4096 then FailedOutput s t .structural
    else if len ≠ 8 then FailedOutput s t .lengthMismatch
    else if s.inputs.ibuf.byte 7 ≠ bchCheck Config.bchVariant (s.inputs.ibuf.bytes 7) then FailedOutput s t .checksum
    else Delivered s t (s.inputs.ibuf.bytes 7)

/-- R206, CLTU_ENCODE: the start sequence, `nb` codewords of seven filled and masked bytes and their check byte, the stop
sequence. -/
def Obligations.CltuEncodeFramesTheInput : Prop :=
  encode .cltuEncode = 0x00000008 ∧
  ∀ s : State, ∃ t, exec .cltuEncode s = .next t ∧ OnlyLfsrBchSpent s t ∧
    let len := s.inputs.ilen.toNat
    let nb := max 1 ((len + 6) / 7)
    if len > 4096 then FailedOutput s t .structural
    else if 2 + 8 * nb + 8 > 4096 then FailedOutput s t .capacity
    else ∃ out : List Byte, Delivered s t out ∧ out.length = 10 + 8 * nb ∧ out.take 2 = [0xEB, 0x90] ∧
      out.drop (2 + 8 * nb) = List.replicate 8 0xC5 ∧
      ∀ b, b < nb →
        (∀ j, j < 7 → out.getD (2 + 8 * b + j) 0 =
          maskByte s.inputs.cltuRand (if 7 * b + j < len then s.inputs.ibuf.byte (7 * b + j) else 0x55) j) ∧
        out.getD (2 + 8 * b + 7) 0 = bchCheck Config.bchVariant ((out.drop (2 + 8 * b)).take 7)

/-- R208, CLTU_DECODE: the first start sequence, the last stop sequence after it, whole codewords between them, every one
checked, derandomized where CTRL.CLTU_RAND is set, and the trailing filler dropped. -/
def Obligations.CltuDecodeUnwrapsTheInput : Prop :=
  encode .cltuDecode = 0x00000009 ∧
  ∀ s : State, ∃ t, exec .cltuDecode s = .next t ∧ OnlyLfsrBchSpent s t ∧
    let d := s.inputs.string
    if s.inputs.ilen.toNat > 4096 then FailedOutput s t .structural
    else
      ((∀ i, ¬ StandsAt [0xEB, 0x90] d i) → FailedOutput s t .markerNotFound) ∧
      ∀ i, FirstStart d i →
        ((∀ j, i + 2 ≤ j → ¬ StandsAt (List.replicate 8 0xC5) d j) → FailedOutput s t .markerNotFound) ∧
        ∀ j, LastStop d i j →
          let span := (d.drop (i + 2)).take (j - (i + 2))
          if span.length = 0 ∨ span.length % 8 ≠ 0 then FailedOutput s t .structural
          else if ∃ q, q < span.length / 8 ∧ ¬ CodewordGood Config.bchVariant (codewordAt span q) then
            FailedOutput s t .checksum
          else ∃ out, Stripped (spanData s.inputs.cltuRand span) out ∧ Delivered s t out

/-- R121, BF_EXTRACT: bit `w - 1 - k` of VALUE is stream bit `off + k` of the input, and the bits from `w` on are 0. -/
def Obligations.BfExtractUnpacksTheField : Prop :=
  encode .bfExtract = 0x0000000A ∧
  ∀ s : State, ∃ t, exec .bfExtract s = .next t ∧
    let len := s.inputs.ilen.toNat
    let off := s.inputs.arg0.toNat
    let w := s.inputs.arg1.toNat
    if len > 4096 then OnlyStatus s t 0x16
    else if w = 0 ∨ w > 32 then OnlyStatus s t 0x26
    else if off + w > 8 * len then OnlyStatus s t 0x16
    else t.status.word = 0x02 ∧ t.inFlight = none ∧ Kept s t ∧ OutputKept s t ∧ t.work = s.work ∧ t.ilen = s.ilen ∧
      (∀ i, t.ibuf.byte i = s.ibuf.byte i) ∧
      (∀ k, k < w → t.value.getLsbD (w - 1 - k) = bufferBit s.inputs.ibuf (off + k)) ∧
      ∀ k, w ≤ k → t.value.getLsbD k = false

/-- R122, BF_INSERT: stream bit `off + k` of IBUF becomes bit `w - 1 - k` of the value, and every other bit of IBUF is
unchanged. -/
def Obligations.BfInsertPacksTheField : Prop :=
  encode .bfInsert = 0x0000000B ∧
  ∀ s : State, ∃ t, exec .bfInsert s = .next t ∧
    let len := s.inputs.ilen.toNat
    let off := s.inputs.arg0.toNat
    let w := s.inputs.arg1.toNat
    if len > 4096 then OnlyStatus s t 0x16
    else if w = 0 ∨ w > 32 then OnlyStatus s t 0x26
    else if s.inputs.value.toNat ≥ 2 ^ w then OnlyStatus s t 0x26
    else if off + w > 8 * len then OnlyStatus s t 0x16
    else t.status.word = 0x02 ∧ t.inFlight = none ∧ Kept s t ∧ OutputKept s t ∧ t.work = s.work ∧ t.ilen = s.ilen ∧
      t.value = s.value ∧
      ∀ j, bufferBit t.ibuf j =
        if off ≤ j ∧ j < off + w then s.inputs.value.getLsbD (w - 1 - (j - off)) else bufferBit s.ibuf j

/-! ## Laws between commands -/

/-- R122: extracting a field just inserted returns the inserted value, and inserting the value just extracted leaves
IBUF unchanged. -/
def Obligations.InsertAndExtractAreInverse : Prop :=
  ∀ s : State, s.inputs = latch s → s.ilen.toNat ≤ 4096 → 1 ≤ s.arg1.toNat → s.arg1.toNat ≤ 32 →
    s.arg0.toNat + s.arg1.toNat ≤ 8 * s.ilen.toNat →
    (s.value.toNat < 2 ^ s.arg1.toNat → ∃ t u, exec .bfInsert s = .next t ∧ exec .bfExtract t = .next u ∧
      u.status.word = 0x02 ∧ u.value = s.value) ∧
    ∃ t u, exec .bfExtract s = .next t ∧ exec .bfInsert t = .next u ∧ u.status.word = 0x02 ∧
      ∀ i, u.ibuf.byte i = s.ibuf.byte i

/-- R151: ASM_DETACH of an ASM_ATTACH output, after MOVE, returns the original input. -/
def Obligations.DetachUndoesAttach : Prop :=
  ∀ s : State, s.inputs = latch s → 1 ≤ s.asmLen.toNat → s.asmLen.toNat ≤ 8 →
    s.ilen.toNat + s.asmLen.toNat ≤ 4096 →
    ∃ t u v, exec .asmAttach s = .next t ∧ exec .move t = .next u ∧ exec .asmDetach u = .next v ∧
      v.status.word = 0x02 ∧ v.olen = s.ilen ∧ ∀ i, i < s.ilen.toNat → v.obuf.byte i = s.ibuf.byte i

/-- R164: RAND is self-inverse: running it on its own output, with the same range and after MOVE, restores the
input. -/
def Obligations.RandIsSelfInverse : Prop :=
  ∀ s : State, s.inputs = latch s → s.ilen.toNat ≤ 4096 → s.arg0.toNat ≤ s.arg1.toNat →
    s.arg1.toNat ≤ s.ilen.toNat →
    ∃ t u v, exec .rand s = .next t ∧ exec .move t = .next u ∧ exec .rand u = .next v ∧
      v.status.word = 0x02 ∧ v.olen = s.ilen ∧ ∀ i, i < s.ilen.toNat → v.obuf.byte i = s.ibuf.byte i

/-- R38, R39, R62, R75, R100: a command's result depends on what it latched, and for MOVE alone on OLEN and OBUF, and on
nothing else: two states that agree there complete alike, whatever ran before. What a command leaves is alike where it
was: OLEN and OBUF for NOP, BF_EXTRACT and BF_INSERT, and VALUE, ILEN and IBUF where the command does not write them. -/
def Obligations.ResultsDependOnlyOnTheInputs : Prop :=
  ∀ (i : Instr) (s s' t t' : State), s.inputs = s'.inputs → (i = .move → SameOutput s s') →
    exec i s = .next t → exec i s' = .next t' →
    t.status = t'.status ∧
    (i ∉ [Instr.nop, .bfExtract, .bfInsert] → SameOutput t t') ∧ (SameOutput s s' → SameOutput t t') ∧
    (i = .bfExtract → t.status.err = false → t.value = t'.value) ∧ (s.value = s'.value → t.value = t'.value) ∧
    (i = .move → t.ilen = t'.ilen) ∧ (s.ilen = s'.ilen → t.ilen = t'.ilen) ∧
    (i = .move → ∀ j, j < t.ilen.toNat → t.ibuf.byte j = t'.ibuf.byte j) ∧
    ((∀ j, s.ibuf.byte j = s'.ibuf.byte j) → ∀ j, t.ibuf.byte j = t'.ibuf.byte j)

/-! ## The randomizer -/

/-- R160: the bit sequence has the seed and the recurrence of its polynomial, PN is its bytes, most significant bit
first, and the register form outputs PN. -/
def Obligations.LfsrFollowsItsRecurrence : Prop :=
  (∀ n, n < 8 → lfsrBit n = true) ∧
  (∀ n, lfsrBit (n + 8) = (lfsrBit (n + 7) ^^ lfsrBit (n + 5) ^^ lfsrBit (n + 3) ^^ lfsrBit n)) ∧
  (∀ k j, j < 8 → (pnByte k).getLsbD (7 - j) = lfsrBit (8 * k + j)) ∧
  ∀ n k, k < n → (pnRun n).getD k 0 = pnByte k

/-- R163: the bit sequence and the byte sequence have period 255 and none shorter; the first 32 bytes; the key of every
CLTU block. -/
def Obligations.SequenceHasPeriod255 : Prop :=
  (∀ n, lfsrBit (n + 255) = lfsrBit n) ∧ (∀ p, 0 < p → p < 255 → ∃ n, lfsrBit (n + p) ≠ lfsrBit n) ∧
  (∀ k, pnByte (k + 255) = pnByte k) ∧ (∀ p, 0 < p → p < 255 → ∃ k, pnByte (k + p) ≠ pnByte k) ∧
  pnRun 32 = [0xFF, 0x48, 0x0E, 0xC0, 0x9A, 0x0D, 0x70, 0xBC, 0x8E, 0x2C, 0x93, 0xAD, 0xA7, 0xB7, 0x46, 0xCE, 0x5A,
    0x97, 0x7D, 0xCC, 0x32, 0xA2, 0xBF, 0x3E, 0x0A, 0x10, 0xF1, 0x88, 0x94, 0xCD, 0xEA, 0xB1] ∧
  pnRun 7 = [0xFF, 0x48, 0x0E, 0xC0, 0x9A, 0x0D, 0x70]

/-! ## The Reed-Solomon code -/

/-- R180: multiplication is the product of polynomials over GF(2) modulo 0x11D; the powers of alpha are the 255 non-zero
bytes, each once; the examples. -/
def Obligations.FieldOfTheGenerator0x11D : Prop :=
  (∀ a b : Byte, gmul a b = BitVec.ofNat 8 (polyMod 0x11D 8 7 (carryless 8 a.toNat b.toNat))) ∧
  (∀ b : Byte, b ≠ 0 → ∃ e, e < 255 ∧ alphaPow e = b ∧ ∀ e', e' < 255 → alphaPow e' = b → e' = e) ∧
  (∀ e, alphaPow e ≠ 0 ∧ alphaPow e = alphaPow (e % 255) ∧ alphaPow (e + 1) = gmul (alphaPow e) 0x02) ∧
  alphaPow 0 = 1 ∧ gmul 0x80 0x02 = 0x1D ∧ gmul 0x53 0xCA = 0x8F ∧ gmul 0x53 0x8C = 1 ∧ alphaPow 112 = 0x81 ∧
  alphaPow 143 = 0x54

/-- R182: the generator is the product of `x - alpha^(112+j)`, `j` in 0..31, and its coefficients are those of the rule,
a palindrome. -/
def Obligations.GeneratorIsTheProductOfItsRoots : Prop :=
  rsGenerator = [0x01, 0xEC, 0xF4, 0xDC, 0x85, 0xEE, 0x89, 0xC9, 0x07, 0x8D, 0x0B, 0xE2, 0x22, 0xFC, 0xD1, 0x16, 0x4E,
    0x16, 0xD1, 0xFC, 0x22, 0xE2, 0x0B, 0x8D, 0x07, 0xC9, 0x89, 0xEE, 0x85, 0xDC, 0xF4, 0xEC, 0x01] ∧
  rootProduct ((List.range 32).map fun j => alphaPow (112 + j)) = rsGenerator.reverse ∧
    rsGenerator.reverse = rsGenerator

/-- R184, a corner case: the output of the encoder is always a codeword. -/
def Obligations.EncoderOutputIsACodeword : Prop :=
  ∀ d : List Byte, d.length = 223 → isCodeword (d ++ rsParity d) = true

/-- R184, a corner case: encoding is linear. -/
def Obligations.EncodingIsLinear : Prop :=
  ∀ d e : List Byte, d.length = 223 → e.length = 223 →
    rsParity (xorBytes d e) = xorBytes (rsParity d) (rsParity e)

/-- R183: two distinct codewords differ in at least 33 byte positions. -/
def Obligations.DistinctCodewordsDifferIn33Positions : Prop :=
  ∀ c c' : List Byte, isCodeword c = true → isCodeword c' = true → c ≠ c' → 33 ≤ distance c c'

/-- R188: decoding undoes encoding, for up to 16 byte errors; a block with no codeword within 16 errors fails, and one
with a codeword within 16 errors gives that codeword's data. -/
def Obligations.DecodingRecoversFromSixteenErrors : Prop :=
  (∀ d : List Byte, d.length = 223 → rsDecodeBlock (d ++ rsParity d) = .ok d) ∧
  (∀ d r : List Byte, d.length = 223 → r.length = 255 → distance (d ++ rsParity d) r ≤ 16 →
    rsDecodeBlock r = .ok d) ∧
  ∀ r : List Byte, r.length = 255 →
    (rsDecodeBlock r = .error .checksum ↔ ∀ c, isCodeword c = true → distance c r > 16)

/-! ## The pseudo-BCH code and the CLTU -/

/-- R200 and R201: the check byte of both variants. `D(x)` has the stream bits as coefficients, first bit highest; with
`q` the quotient, `p` is the remainder of `x^7 D(x)` by `x^7 + x^6 + x^2 + 1`, or of `x^8 D(x)` by
`x^8 + x^7 + x^5 + x^3 + 1`. -/
def Obligations.CheckByteIsThePolynomialRemainder : Prop :=
  ∀ b : List Byte, b.length = 7 →
    blockPoly b < 2 ^ 56 ∧ (∀ i, i < 56 → (blockPoly b).testBit (55 - i) = streamBit b i) ∧
    (∃ q p, p < 2 ^ 7 ∧ carryless 56 q 0xC5 = (blockPoly b <<< 7) ^^^ p ∧
      (bchCheck .ccsds231 b).toNat = 2 * (127 - p)) ∧
    ∃ q p, p < 2 ^ 8 ∧ carryless 56 q 0x1A9 = (blockPoly b <<< 8) ^^^ p ∧ (bchCheck .docG8 b).toNat = p

/-- R202: the bit-serial forms equal the polynomial ones. -/
def Obligations.SerialCheckEqualsThePolynomialOne : Prop :=
  ∀ (v : Config.BchVariant) (b : List Byte), b.length = 7 → serialCheck v b = bchCheck v b

/-- R205: under CCSDS_231 every error of 1, 2 or 3 bits is detected, under DOC_G8 every error of 1 or 2 bits, and under
both every error confined to the check byte. -/
def Obligations.BchDetectsSmallErrors : Prop :=
  ∀ c e : List Byte, c.length = 8 → e.length = 8 →
    (CodewordGood .ccsds231 c → 1 ≤ bitsSet e → bitsSet e ≤ 3 → ¬ CodewordGood .ccsds231 (xorBytes c e)) ∧
    (CodewordGood .docG8 c → 1 ≤ bitsSet e → bitsSet e ≤ 2 → ¬ CodewordGood .docG8 (xorBytes c e)) ∧
    ∀ v, CodewordGood v c → e.take 7 = List.replicate 7 0 → e.getD 7 0 ≠ 0 → ¬ CodewordGood v (xorBytes c e)

/-- R209: CLTU_DECODE of the output of CLTU_ENCODE, with the same CTRL.CLTU_RAND and after MOVE, returns its input
unless that ends in 0x55. The codec itself does so under both variants, with and without randomization, and from an
input that ends in 0x55 it loses those trailing bytes. -/
def Obligations.CltuRoundTrip : Prop :=
  (∀ s : State, s.inputs = latch s → s.ilen.toNat ≤ 3570 →
    (s.ilen = 0 ∨ s.ibuf.byte (s.ilen.toNat - 1) ≠ 0x55) →
    ∃ t u v, exec .cltuEncode s = .next t ∧ exec .move t = .next u ∧ exec .cltuDecode u = .next v ∧
      v.status.word = 0x02 ∧ v.olen = s.ilen ∧ ∀ i, i < s.ilen.toNat → v.obuf.byte i = s.ibuf.byte i) ∧
  ∀ (v : Config.BchVariant) (rnd : Bool) (d : List Byte), d.length ≤ 3570 →
    ((d = [] ∨ d.getD (d.length - 1) 0 ≠ 0x55) → cltuUnframe v rnd (cltuFrame v rnd d) = .ok d) ∧
    ∃ out, Stripped d out ∧ cltuUnframe v rnd (cltuFrame v rnd d) = .ok out

/-! ## STATUS and the registers on the bus -/

/-- R233: what STATUS reads after a failed and after a successful command. -/
def Obligations.StatusWordsOfTheOutcomes : Prop :=
  Status.succeeded.word = 0x02 ∧ (∀ k : ErrorKind, (Status.failed k).word = 0x00000006 ||| (k.code.setWidth 32 <<< 4)) ∧
  (Status.failed .structural).word = 0x16 ∧ (Status.failed .fieldConstraint).word = 0x26 ∧
  (Status.failed .lengthMismatch).word = 0x36 ∧ (Status.failed .checksum).word = 0x46 ∧
  (Status.failed .markerNotFound).word = 0x56 ∧ (Status.failed .illegalCommand).word = 0x76 ∧
  (Status.failed .capacity).word = 0x86

/-- R20, R26, R27, R29 to R33, R60: a register written by the host of an idle block reads back with its reserved bits 0,
and nothing else changes: no other register, buffer, command in flight or working register, nor the model's own fields
(log entries 2 and 8). -/
def Obligations.RegistersReadBackWhatWasWritten : Prop :=
  ∀ (s : State) (v : Word), s.status.busy = false →
    ∀ r m, (r, m) ∈ [(Reg.ctrl, 0x00000001), (.ilen, 0x0000FFFF), (.arg0, 0xFFFFFFFF), (.arg1, 0xFFFFFFFF),
        (.value, 0xFFFFFFFF), (.asmLen, 0x0000000F), (.asmPat0, 0xFFFFFFFF), (.asmPat1, (0xFFFFFFFF : Word))] →
      ∃ t, busAccess { kind := .write, offset := r.offset, width := 4, data := v } s = (.written, t) ∧
        busAccess { kind := .read, offset := r.offset, width := 4, data := 0 } t = (.data (v &&& m), t) ∧
        (∀ r', r' ≠ r → readReg r' t = readReg r' s) ∧ t.ibuf = s.ibuf ∧ t.obuf = s.obuf ∧
        t.inFlight = s.inFlight ∧ t.work = s.work ∧ t.draws = s.draws ∧ t.host = s.host ∧ t.reads = s.reads

/-- R34 and R60: reserved offsets read 0 and ignore writes; STATUS, OLEN and OBUF ignore writes; none is a bus error. -/
def Obligations.ReservedAndReadOnlyLocationsIgnoreWrites : Prop :=
  ∀ (s : State) (v : Word),
    (∀ off, 0x02C ≤ off → off < 0x1000 → off % 4 = 0 →
      busAccess { kind := .read, offset := off, width := 4, data := v } s = (.data 0, s) ∧
      busAccess { kind := .write, offset := off, width := 4, data := v } s = (.written, s)) ∧
    busAccess { kind := .write, offset := 0x004, width := 4, data := v } s = (.written, s) ∧
    busAccess { kind := .write, offset := 0x010, width := 4, data := v } s = (.written, s) ∧
    ∀ i, i < 4096 →
      busAccess { kind := .write, offset := 0x2000 + i, width := 1, data := v } s = (.written, s) ∧
      (i % 4 = 0 → busAccess { kind := .write, offset := 0x2000 + i, width := 4, data := v } s = (.written, s))

/-- R52, R53, R54: every access of another width or alignment gets a bus error and changes no state, and is a fault of
the host (the fault is the model's BUS_ERROR_EFFECT, log entry 11). -/
def Obligations.OtherAccessesAreBusErrors : Prop :=
  ∀ (s : State) (a : Access), a.offset < 0x3000 →
    ¬ (a.offset < 0x1000 ∧ a.width = 4 ∧ a.offset % 4 = 0) →
    ¬ (0x1000 ≤ a.offset ∧ (a.width = 1 ∨ a.width = 4 ∧ a.offset % 4 = 0)) →
    busAccess a s = (.busError, s) ∧ performAccess a s = .fault (.busError a)

/-- R52, R61, R77: every legal access addressed to the block is performed: the host goes on in the state that
`busAccess` gives, and a read's data is recorded. The host performs the first event of its queue, and takes it off (the
queue and the record are the model's, log entry 8). An access outside the window is not addressed to the block (R51) and
is refused (log entry 12). -/
def Obligations.LegalAccessesArePerformed : Prop :=
  (∀ (s : State) (a : Access),
    (a.offset < 0x1000 ∧ a.width = 4 ∧ a.offset % 4 = 0 ∨
      0x1000 ≤ a.offset ∧ a.offset < 0x3000 ∧ (a.width = 1 ∨ a.width = 4 ∧ a.offset % 4 = 0)) →
    (a.kind = .read → ∃ v t, busAccess a s = (.data v, t) ∧
      performAccess a s = .next { t with reads := s.reads ++ [v] }) ∧
    (a.kind = .write → ∃ t, busAccess a s = (.written, t) ∧ performAccess a s = .next t)) ∧
  (∀ (s : State) (a : Access) (rest : List HostEvent), s.host = .access a :: rest →
    hostTurn s = performAccess a { s with host := rest }) ∧
  ∀ (s : State) (a : Access), 0x3000 ≤ a.offset → performAccess a s = .refused (.notAddressed a)

/-- R51: BASE is a multiple of 0x1000, and exactly the addresses of the 0x3000-byte window have an offset. -/
def Obligations.WindowAddressesHaveOffsets : Prop :=
  0x1000 ∣ Config.base ∧ ∀ address off, windowOffset address = some off ↔ address = busAddress off ∧ off < 0x3000

/-- R60: a read has no side effect: it changes no location and starts no command (only the count of free values drawn,
the model's own, can move, log entry 2). -/
def Obligations.ReadsHaveNoSideEffects : Prop :=
  ∀ (s : State) (a : Access), a.kind = .read → ∃ n, (busAccess a s).2 = { s with draws := n }

/-- R56: the big-endian mapping of 32-bit buffer accesses, with the bytes outside the word unchanged by a write. -/
def Obligations.BufferWordsAreBigEndian : Prop :=
  ∀ (s : State) (k : Nat) (w : Word), s.status.busy = false → k < 1024 →
    (∃ v, busAccess { kind := .read, offset := 0x1000 + 4 * k, width := 4, data := 0 } s = (.data v, s) ∧
      v.toNat = (s.ibuf.byte (4 * k)).toNat * 2 ^ 24 + (s.ibuf.byte (4 * k + 1)).toNat * 2 ^ 16 +
        (s.ibuf.byte (4 * k + 2)).toNat * 2 ^ 8 + (s.ibuf.byte (4 * k + 3)).toNat) ∧
    (∃ v, busAccess { kind := .read, offset := 0x2000 + 4 * k, width := 4, data := 0 } s = (.data v, s) ∧
      v.toNat = (s.obuf.byte (4 * k)).toNat * 2 ^ 24 + (s.obuf.byte (4 * k + 1)).toNat * 2 ^ 16 +
        (s.obuf.byte (4 * k + 2)).toNat * 2 ^ 8 + (s.obuf.byte (4 * k + 3)).toNat) ∧
    ∃ t, busAccess { kind := .write, offset := 0x1000 + 4 * k, width := 4, data := w } s = (.written, t) ∧
      t = { s with ibuf := t.ibuf } ∧
      (∀ j, j < 4 → (t.ibuf.byte (4 * k + j)).toNat = w.toNat / 2 ^ (24 - 8 * j) % 256) ∧
      ∀ i, (i < 4 * k ∨ 4 * k + 4 ≤ i) → t.ibuf.byte i = s.ibuf.byte i

/-- R58: a byte write is seen by a word read in its lane, and a word write by a byte read. And what the byte accesses
themselves do (R52, R55): a byte read of either buffer returns the byte at its index, zero above it, and a byte write of
IBUF stores the low byte of the data and leaves every other byte and all other state. -/
def Obligations.MixedWidthAccessesAgree : Prop :=
  ∀ (s : State) (v : Word), s.status.busy = false →
    (∀ i, i < 4096 →
      busAccess { kind := .read, offset := 0x1000 + i, width := 1, data := 0 } s =
        (.data ((s.ibuf.byte i).setWidth 32), s) ∧
      busAccess { kind := .read, offset := 0x2000 + i, width := 1, data := 0 } s =
        (.data ((s.obuf.byte i).setWidth 32), s)) ∧
    (∀ i, i < 4096 → ∃ t x, busAccess { kind := .write, offset := 0x1000 + i, width := 1, data := v } s = (.written, t) ∧
      t = { s with ibuf := t.ibuf } ∧ (t.ibuf.byte i).toNat = v.toNat % 256 ∧
      (∀ j, j ≠ i → t.ibuf.byte j = s.ibuf.byte j) ∧
      busAccess { kind := .read, offset := 0x1000 + (i - i % 4), width := 4, data := 0 } t = (.data x, t) ∧
      x.toNat / 2 ^ (24 - 8 * (i % 4)) % 256 = v.toNat % 256) ∧
    ∀ k j, k < 1024 → j < 4 →
      ∃ t x, busAccess { kind := .write, offset := 0x1000 + 4 * k, width := 4, data := v } s = (.written, t) ∧
        busAccess { kind := .read, offset := 0x1000 + 4 * k + j, width := 1, data := 0 } t = (.data x, t) ∧
        x.toNat = v.toNat / 2 ^ (24 - 8 * j) % 256

/-! ## Acceptance, busy and completion -/

/-- R23, R24, R100: a write to CMD of an idle block, legal word or not, is accepted: CMD takes the whole word, STATUS
reads 1, and the command in flight holds the word and the inputs as they stood; nothing else changes. -/
def Obligations.AcceptanceLatchesTheInputs : Prop :=
  ∀ (s : State) (w : Word), s.status.busy = false →
    ∃ t f, busAccess { kind := .write, offset := 0x000, width := 4, data := w } s = (.written, t) ∧
      t.inFlight = some f ∧ f.word = w ∧ f.inputs = latch s ∧ t.status.word = 0x00000001 ∧ t.cmd = w ∧
      Kept { s with cmd := w } t ∧ InputKept s t ∧ OutputKept s t ∧ t.work = s.work

/-- R264: a write to any register or to IBUF while BUSY is 1 is silently ignored. -/
def Obligations.BusyWritesAreLost : Prop :=
  ∀ (s : State) (a : Access), s.status.busy = true → a.kind = .write → a.wellFormed = true →
    busAccess a s = (.written, s)

/-- R23 to R33, R101: a read of any register of an idle block, and in every state a read of STATUS or of a register no
command writes, returns the register and changes nothing. While busy, a read of IBUF, OBUF, ILEN, OLEN or VALUE tells
nothing of the state: its data is made from the free value of the draw (log entry 6), the same for every two busy states
that draw alike; the reserved bits of ILEN and OLEN read 0 all the same (R20). -/
def Obligations.BusyReadsAreExactOrUnspecified : Prop :=
  (∀ (s : State) (r : Reg),
    (s.status.busy = false ∨ r ∈ [Reg.cmd, .status, .ctrl, .arg0, .arg1, .asmLen, .asmPat0, .asmPat1]) →
    busAccess { kind := .read, offset := r.offset, width := 4, data := 0 } s = (.data (readReg r s), s)) ∧
  (∀ (s s' : State) (a : Access), s.status.busy = true → s'.status.busy = true → s.draws = s'.draws →
    a.kind = .read → (a.offset ∈ [0x00C, 0x010, 0x01C] ∨ 0x1000 ≤ a.offset) →
    (busAccess a s).1 = (busAccess a s').1) ∧
  ∀ (s : State) (r : Reg), s.status.busy = true → r ∈ [Reg.ilen, .olen] →
    ∃ v n, busAccess { kind := .read, offset := r.offset, width := 4, data := 0 } s = (.data v, { s with draws := n }) ∧
      v.toNat < 2 ^ 16

/-- R106: every accepted command completes after finitely many steps, if no reset comes and the host's accesses are
legal. The bound is the delay the model drew (log entry 5). -/
def Obligations.EveryAcceptedCommandCompletes : Prop :=
  ∀ (s : State) (f : InFlight), s.inFlight = some f → s.status.busy = true →
    (∀ e ∈ s.host, e.undisturbed = true) →
    ∃ t, Host.Core.run core (f.delay + 1) s = .next t ∧ t.inFlight = none ∧ t.status.busy = false ∧
      t.status.done = true ∧ t.cmd = s.cmd

/-- The host's WAIT (R78) reads STATUS once a turn, records the value, and ends exactly when bit 0 of it is 0; the
block does not change. The queue and the record are the model's (log entry 8). -/
def Obligations.WaitReadsStatusUntilIdle : Prop :=
  ∀ (s : State) (rest : List HostEvent), s.host = .wait :: rest →
    ∃ t, hostTurn s = .next t ∧ t.reads = s.reads ++ [readReg .status s] ∧
      t.host = (if s.status.busy = true then s.host else rest) ∧
      t = { s with host := t.host, reads := t.reads }

/-- Every event of a well-formed host program (R77, R78) is a legal access of the block or a wait. -/
def Obligations.HostProgramsMakeLegalAccesses : Prop :=
  ∀ st : Stmt, st.wellFormed = true → ∀ e ∈ st.expand, e.undisturbed = true

/-! ## Reset -/

/-- R40, the registers: what each reads after reset. The contents of IBUF and OBUF are unspecified: no byte is
listed. -/
def Obligations.RegistersAfterReset : Prop :=
  readReg .cmd State.reset = 0 ∧ readReg .status State.reset = 0 ∧ readReg .ctrl State.reset = 0 ∧
  readReg .ilen State.reset = 0 ∧ readReg .olen State.reset = 0 ∧ readReg .arg0 State.reset = 0 ∧
  readReg .arg1 State.reset = 0 ∧ readReg .value State.reset = 0 ∧ readReg .asmLen State.reset = 4 ∧
  readReg .asmPat0 State.reset = 0x1ACFFC1D ∧ readReg .asmPat1 State.reset = 0 ∧ State.reset.inFlight = none ∧
  State.reset.ibuf.cells = [] ∧ State.reset.obuf.cells = []

/-- R260: when the reset input is asserted, every register takes its value after reset and a command in flight is
abandoned with none of its effects. The event queue is the model's (log entry 10). -/
def Obligations.ResetAbandonsTheCommand : Prop :=
  ∀ (s : State) (rest : List HostEvent), readyWord s = none → s.host = .reset :: rest →
    ∃ t, step s = .next t ∧ (∀ r, readReg r t = readReg r State.reset) ∧ t.inFlight = none ∧ t.host = rest ∧
      t.reads = s.reads ∧ t.ibuf.cells = [] ∧ t.obuf.cells = []

/-! ## Header maps -/

/-- R123 to R125: the fields of each primary header stand one after the other and fill 6, 6 and 5 bytes. -/
def Obligations.HeaderFieldsFillTheirHeaders : Prop :=
  fieldsTile 0 48 tmHeader = true ∧ fieldsTile 0 48 aosHeader = true ∧ fieldsTile 0 40 tcHeader = true ∧
  (tmHeader.map HeaderField.width).sum = 48 ∧ (aosHeader.map HeaderField.width).sum = 48 ∧
  (tcHeader.map HeaderField.width).sum = 40
end

