-- ==== Sys2Proof/Laws/State.lean ====
section
/-! SUPPORT. What each update of State leaves in each field, and the small facts about STATUS and the latched inputs. -/

namespace Sys2Proof.Machine

/-! ### `complete` -/

@[simp] theorem complete_cmd (st : Status) (s : State) : (complete st s).cmd = s.cmd := rfl
@[simp] theorem complete_status (st : Status) (s : State) : (complete st s).status = st := rfl
@[simp] theorem complete_cltuRand (st : Status) (s : State) : (complete st s).cltuRand = s.cltuRand := rfl
@[simp] theorem complete_ilen (st : Status) (s : State) : (complete st s).ilen = s.ilen := rfl
@[simp] theorem complete_olen (st : Status) (s : State) : (complete st s).olen = s.olen := rfl
@[simp] theorem complete_arg0 (st : Status) (s : State) : (complete st s).arg0 = s.arg0 := rfl
@[simp] theorem complete_arg1 (st : Status) (s : State) : (complete st s).arg1 = s.arg1 := rfl
@[simp] theorem complete_value (st : Status) (s : State) : (complete st s).value = s.value := rfl
@[simp] theorem complete_asmLen (st : Status) (s : State) : (complete st s).asmLen = s.asmLen := rfl
@[simp] theorem complete_asmPat0 (st : Status) (s : State) : (complete st s).asmPat0 = s.asmPat0 := rfl
@[simp] theorem complete_asmPat1 (st : Status) (s : State) : (complete st s).asmPat1 = s.asmPat1 := rfl
@[simp] theorem complete_ibuf (st : Status) (s : State) : (complete st s).ibuf = s.ibuf := rfl
@[simp] theorem complete_obuf (st : Status) (s : State) : (complete st s).obuf = s.obuf := rfl
@[simp] theorem complete_inFlight (st : Status) (s : State) : (complete st s).inFlight = none := rfl
@[simp] theorem complete_work (st : Status) (s : State) : (complete st s).work = s.work := rfl
@[simp] theorem complete_draws (st : Status) (s : State) : (complete st s).draws = s.draws := rfl
@[simp] theorem complete_host (st : Status) (s : State) : (complete st s).host = s.host := rfl
@[simp] theorem complete_reads (st : Status) (s : State) : (complete st s).reads = s.reads := rfl

/-! ### `succeed` -/

@[simp] theorem succeed_cmd (s : State) : (succeed s).cmd = s.cmd := rfl
@[simp] theorem succeed_status (s : State) : (succeed s).status = Status.succeeded := rfl
@[simp] theorem succeed_cltuRand (s : State) : (succeed s).cltuRand = s.cltuRand := rfl
@[simp] theorem succeed_ilen (s : State) : (succeed s).ilen = s.ilen := rfl
@[simp] theorem succeed_olen (s : State) : (succeed s).olen = s.olen := rfl
@[simp] theorem succeed_arg0 (s : State) : (succeed s).arg0 = s.arg0 := rfl
@[simp] theorem succeed_arg1 (s : State) : (succeed s).arg1 = s.arg1 := rfl
@[simp] theorem succeed_value (s : State) : (succeed s).value = s.value := rfl
@[simp] theorem succeed_asmLen (s : State) : (succeed s).asmLen = s.asmLen := rfl
@[simp] theorem succeed_asmPat0 (s : State) : (succeed s).asmPat0 = s.asmPat0 := rfl
@[simp] theorem succeed_asmPat1 (s : State) : (succeed s).asmPat1 = s.asmPat1 := rfl
@[simp] theorem succeed_ibuf (s : State) : (succeed s).ibuf = s.ibuf := rfl
@[simp] theorem succeed_obuf (s : State) : (succeed s).obuf = s.obuf := rfl
@[simp] theorem succeed_inFlight (s : State) : (succeed s).inFlight = none := rfl
@[simp] theorem succeed_work (s : State) : (succeed s).work = s.work := rfl
@[simp] theorem succeed_draws (s : State) : (succeed s).draws = s.draws := rfl
@[simp] theorem succeed_host (s : State) : (succeed s).host = s.host := rfl
@[simp] theorem succeed_reads (s : State) : (succeed s).reads = s.reads := rfl

/-! ### `dropOutput` -/

@[simp] theorem dropOutput_cmd (s : State) : (dropOutput s).cmd = s.cmd := rfl
@[simp] theorem dropOutput_status (s : State) : (dropOutput s).status = s.status := rfl
@[simp] theorem dropOutput_cltuRand (s : State) : (dropOutput s).cltuRand = s.cltuRand := rfl
@[simp] theorem dropOutput_ilen (s : State) : (dropOutput s).ilen = s.ilen := rfl
@[simp] theorem dropOutput_olen (s : State) : (dropOutput s).olen = 0 := rfl
@[simp] theorem dropOutput_arg0 (s : State) : (dropOutput s).arg0 = s.arg0 := rfl
@[simp] theorem dropOutput_arg1 (s : State) : (dropOutput s).arg1 = s.arg1 := rfl
@[simp] theorem dropOutput_value (s : State) : (dropOutput s).value = s.value := rfl
@[simp] theorem dropOutput_asmLen (s : State) : (dropOutput s).asmLen = s.asmLen := rfl
@[simp] theorem dropOutput_asmPat0 (s : State) : (dropOutput s).asmPat0 = s.asmPat0 := rfl
@[simp] theorem dropOutput_asmPat1 (s : State) : (dropOutput s).asmPat1 = s.asmPat1 := rfl
@[simp] theorem dropOutput_ibuf (s : State) : (dropOutput s).ibuf = s.ibuf := rfl
@[simp] theorem dropOutput_obuf (s : State) : (dropOutput s).obuf = Memory.unwritten s.draws := rfl
@[simp] theorem dropOutput_inFlight (s : State) : (dropOutput s).inFlight = s.inFlight := rfl
@[simp] theorem dropOutput_work (s : State) : (dropOutput s).work = s.work := rfl
@[simp] theorem dropOutput_draws (s : State) : (dropOutput s).draws = s.draws + 1 := rfl
@[simp] theorem dropOutput_host (s : State) : (dropOutput s).host = s.host := rfl
@[simp] theorem dropOutput_reads (s : State) : (dropOutput s).reads = s.reads := rfl

/-! ### `deliver` -/

@[simp] theorem deliver_cmd (out : List Byte) (s : State) : (deliver out s).cmd = s.cmd := rfl
@[simp] theorem deliver_status (out : List Byte) (s : State) : (deliver out s).status = Status.succeeded := rfl
@[simp] theorem deliver_cltuRand (out : List Byte) (s : State) : (deliver out s).cltuRand = s.cltuRand := rfl
@[simp] theorem deliver_ilen (out : List Byte) (s : State) : (deliver out s).ilen = s.ilen := rfl
@[simp] theorem deliver_olen (out : List Byte) (s : State) : (deliver out s).olen = BitVec.ofNat 16 out.length := rfl
@[simp] theorem deliver_arg0 (out : List Byte) (s : State) : (deliver out s).arg0 = s.arg0 := rfl
@[simp] theorem deliver_arg1 (out : List Byte) (s : State) : (deliver out s).arg1 = s.arg1 := rfl
@[simp] theorem deliver_value (out : List Byte) (s : State) : (deliver out s).value = s.value := rfl
@[simp] theorem deliver_asmLen (out : List Byte) (s : State) : (deliver out s).asmLen = s.asmLen := rfl
@[simp] theorem deliver_asmPat0 (out : List Byte) (s : State) : (deliver out s).asmPat0 = s.asmPat0 := rfl
@[simp] theorem deliver_asmPat1 (out : List Byte) (s : State) : (deliver out s).asmPat1 = s.asmPat1 := rfl
@[simp] theorem deliver_ibuf (out : List Byte) (s : State) : (deliver out s).ibuf = s.ibuf := rfl
@[simp] theorem deliver_obuf (out : List Byte) (s : State) : (deliver out s).obuf = Memory.holding s.draws out := rfl
@[simp] theorem deliver_inFlight (out : List Byte) (s : State) : (deliver out s).inFlight = none := rfl
@[simp] theorem deliver_work (out : List Byte) (s : State) : (deliver out s).work = s.work := rfl
@[simp] theorem deliver_draws (out : List Byte) (s : State) : (deliver out s).draws = s.draws + 1 := rfl
@[simp] theorem deliver_host (out : List Byte) (s : State) : (deliver out s).host = s.host := rfl
@[simp] theorem deliver_reads (out : List Byte) (s : State) : (deliver out s).reads = s.reads := rfl

/-! ### `spendLfsr` -/

@[simp] theorem spendLfsr_cmd (s : State) : (spendLfsr s).cmd = s.cmd := rfl
@[simp] theorem spendLfsr_status (s : State) : (spendLfsr s).status = s.status := rfl
@[simp] theorem spendLfsr_cltuRand (s : State) : (spendLfsr s).cltuRand = s.cltuRand := rfl
@[simp] theorem spendLfsr_ilen (s : State) : (spendLfsr s).ilen = s.ilen := rfl
@[simp] theorem spendLfsr_olen (s : State) : (spendLfsr s).olen = s.olen := rfl
@[simp] theorem spendLfsr_arg0 (s : State) : (spendLfsr s).arg0 = s.arg0 := rfl
@[simp] theorem spendLfsr_arg1 (s : State) : (spendLfsr s).arg1 = s.arg1 := rfl
@[simp] theorem spendLfsr_value (s : State) : (spendLfsr s).value = s.value := rfl
@[simp] theorem spendLfsr_asmLen (s : State) : (spendLfsr s).asmLen = s.asmLen := rfl
@[simp] theorem spendLfsr_asmPat0 (s : State) : (spendLfsr s).asmPat0 = s.asmPat0 := rfl
@[simp] theorem spendLfsr_asmPat1 (s : State) : (spendLfsr s).asmPat1 = s.asmPat1 := rfl
@[simp] theorem spendLfsr_ibuf (s : State) : (spendLfsr s).ibuf = s.ibuf := rfl
@[simp] theorem spendLfsr_obuf (s : State) : (spendLfsr s).obuf = s.obuf := rfl
@[simp] theorem spendLfsr_inFlight (s : State) : (spendLfsr s).inFlight = s.inFlight := rfl
@[simp] theorem spendLfsr_work (s : State) : (spendLfsr s).work = { s.work with lfsr := Config.freeLfsr s.draws } := rfl
@[simp] theorem spendLfsr_draws (s : State) : (spendLfsr s).draws = s.draws + 1 := rfl
@[simp] theorem spendLfsr_host (s : State) : (spendLfsr s).host = s.host := rfl
@[simp] theorem spendLfsr_reads (s : State) : (spendLfsr s).reads = s.reads := rfl

/-! ### `spendBch` -/

@[simp] theorem spendBch_cmd (s : State) : (spendBch s).cmd = s.cmd := rfl
@[simp] theorem spendBch_status (s : State) : (spendBch s).status = s.status := rfl
@[simp] theorem spendBch_cltuRand (s : State) : (spendBch s).cltuRand = s.cltuRand := rfl
@[simp] theorem spendBch_ilen (s : State) : (spendBch s).ilen = s.ilen := rfl
@[simp] theorem spendBch_olen (s : State) : (spendBch s).olen = s.olen := rfl
@[simp] theorem spendBch_arg0 (s : State) : (spendBch s).arg0 = s.arg0 := rfl
@[simp] theorem spendBch_arg1 (s : State) : (spendBch s).arg1 = s.arg1 := rfl
@[simp] theorem spendBch_value (s : State) : (spendBch s).value = s.value := rfl
@[simp] theorem spendBch_asmLen (s : State) : (spendBch s).asmLen = s.asmLen := rfl
@[simp] theorem spendBch_asmPat0 (s : State) : (spendBch s).asmPat0 = s.asmPat0 := rfl
@[simp] theorem spendBch_asmPat1 (s : State) : (spendBch s).asmPat1 = s.asmPat1 := rfl
@[simp] theorem spendBch_ibuf (s : State) : (spendBch s).ibuf = s.ibuf := rfl
@[simp] theorem spendBch_obuf (s : State) : (spendBch s).obuf = s.obuf := rfl
@[simp] theorem spendBch_inFlight (s : State) : (spendBch s).inFlight = s.inFlight := rfl
@[simp] theorem spendBch_work (s : State) : (spendBch s).work = { s.work with bchShift := Config.freeBchShift s.draws } := rfl
@[simp] theorem spendBch_draws (s : State) : (spendBch s).draws = s.draws + 1 := rfl
@[simp] theorem spendBch_host (s : State) : (spendBch s).host = s.host := rfl
@[simp] theorem spendBch_reads (s : State) : (spendBch s).reads = s.reads := rfl

/-! ### `spendRs` -/

@[simp] theorem spendRs_cmd (s : State) : (spendRs s).cmd = s.cmd := rfl
@[simp] theorem spendRs_status (s : State) : (spendRs s).status = s.status := rfl
@[simp] theorem spendRs_cltuRand (s : State) : (spendRs s).cltuRand = s.cltuRand := rfl
@[simp] theorem spendRs_ilen (s : State) : (spendRs s).ilen = s.ilen := rfl
@[simp] theorem spendRs_olen (s : State) : (spendRs s).olen = s.olen := rfl
@[simp] theorem spendRs_arg0 (s : State) : (spendRs s).arg0 = s.arg0 := rfl
@[simp] theorem spendRs_arg1 (s : State) : (spendRs s).arg1 = s.arg1 := rfl
@[simp] theorem spendRs_value (s : State) : (spendRs s).value = s.value := rfl
@[simp] theorem spendRs_asmLen (s : State) : (spendRs s).asmLen = s.asmLen := rfl
@[simp] theorem spendRs_asmPat0 (s : State) : (spendRs s).asmPat0 = s.asmPat0 := rfl
@[simp] theorem spendRs_asmPat1 (s : State) : (spendRs s).asmPat1 = s.asmPat1 := rfl
@[simp] theorem spendRs_ibuf (s : State) : (spendRs s).ibuf = s.ibuf := rfl
@[simp] theorem spendRs_obuf (s : State) : (spendRs s).obuf = s.obuf := rfl
@[simp] theorem spendRs_inFlight (s : State) : (spendRs s).inFlight = s.inFlight := rfl
@[simp] theorem spendRs_work (s : State) : (spendRs s).work = { s.work with rsShift := Config.freeRsShift s.draws, rsSyndromes := Config.freeRsSyndromes s.draws, rsLocator := Config.freeRsLocator s.draws } := rfl
@[simp] theorem spendRs_draws (s : State) : (spendRs s).draws = s.draws + 1 := rfl
@[simp] theorem spendRs_host (s : State) : (spendRs s).host = s.host := rfl
@[simp] theorem spendRs_reads (s : State) : (spendRs s).reads = s.reads := rfl

/-! ### `acceptFor` -/

@[simp] theorem acceptFor_cmd (n : Nat) (w : Word) (s : State) : (acceptFor n w s).cmd = w := rfl
@[simp] theorem acceptFor_status (n : Nat) (w : Word) (s : State) : (acceptFor n w s).status = Status.accepted := rfl
@[simp] theorem acceptFor_cltuRand (n : Nat) (w : Word) (s : State) : (acceptFor n w s).cltuRand = s.cltuRand := rfl
@[simp] theorem acceptFor_ilen (n : Nat) (w : Word) (s : State) : (acceptFor n w s).ilen = s.ilen := rfl
@[simp] theorem acceptFor_olen (n : Nat) (w : Word) (s : State) : (acceptFor n w s).olen = s.olen := rfl
@[simp] theorem acceptFor_arg0 (n : Nat) (w : Word) (s : State) : (acceptFor n w s).arg0 = s.arg0 := rfl
@[simp] theorem acceptFor_arg1 (n : Nat) (w : Word) (s : State) : (acceptFor n w s).arg1 = s.arg1 := rfl
@[simp] theorem acceptFor_value (n : Nat) (w : Word) (s : State) : (acceptFor n w s).value = s.value := rfl
@[simp] theorem acceptFor_asmLen (n : Nat) (w : Word) (s : State) : (acceptFor n w s).asmLen = s.asmLen := rfl
@[simp] theorem acceptFor_asmPat0 (n : Nat) (w : Word) (s : State) : (acceptFor n w s).asmPat0 = s.asmPat0 := rfl
@[simp] theorem acceptFor_asmPat1 (n : Nat) (w : Word) (s : State) : (acceptFor n w s).asmPat1 = s.asmPat1 := rfl
@[simp] theorem acceptFor_ibuf (n : Nat) (w : Word) (s : State) : (acceptFor n w s).ibuf = s.ibuf := rfl
@[simp] theorem acceptFor_obuf (n : Nat) (w : Word) (s : State) : (acceptFor n w s).obuf = s.obuf := rfl
@[simp] theorem acceptFor_inFlight (n : Nat) (w : Word) (s : State) : (acceptFor n w s).inFlight = some { word := w, inputs := latch s, delay := n } := rfl
@[simp] theorem acceptFor_work (n : Nat) (w : Word) (s : State) : (acceptFor n w s).work = s.work := rfl
@[simp] theorem acceptFor_draws (n : Nat) (w : Word) (s : State) : (acceptFor n w s).draws = s.draws := rfl
@[simp] theorem acceptFor_host (n : Nat) (w : Word) (s : State) : (acceptFor n w s).host = s.host := rfl
@[simp] theorem acceptFor_reads (n : Nat) (w : Word) (s : State) : (acceptFor n w s).reads = s.reads := rfl

/-! ### `accept` -/

@[simp] theorem accept_cmd (w : Word) (s : State) : (accept w s).cmd = w := rfl
@[simp] theorem accept_status (w : Word) (s : State) : (accept w s).status = Status.accepted := rfl
@[simp] theorem accept_cltuRand (w : Word) (s : State) : (accept w s).cltuRand = s.cltuRand := rfl
@[simp] theorem accept_ilen (w : Word) (s : State) : (accept w s).ilen = s.ilen := rfl
@[simp] theorem accept_olen (w : Word) (s : State) : (accept w s).olen = s.olen := rfl
@[simp] theorem accept_arg0 (w : Word) (s : State) : (accept w s).arg0 = s.arg0 := rfl
@[simp] theorem accept_arg1 (w : Word) (s : State) : (accept w s).arg1 = s.arg1 := rfl
@[simp] theorem accept_value (w : Word) (s : State) : (accept w s).value = s.value := rfl
@[simp] theorem accept_asmLen (w : Word) (s : State) : (accept w s).asmLen = s.asmLen := rfl
@[simp] theorem accept_asmPat0 (w : Word) (s : State) : (accept w s).asmPat0 = s.asmPat0 := rfl
@[simp] theorem accept_asmPat1 (w : Word) (s : State) : (accept w s).asmPat1 = s.asmPat1 := rfl
@[simp] theorem accept_ibuf (w : Word) (s : State) : (accept w s).ibuf = s.ibuf := rfl
@[simp] theorem accept_obuf (w : Word) (s : State) : (accept w s).obuf = s.obuf := rfl
@[simp] theorem accept_inFlight (w : Word) (s : State) : (accept w s).inFlight = some { word := w, inputs := latch s, delay := Config.latency s.draws } := rfl
@[simp] theorem accept_work (w : Word) (s : State) : (accept w s).work = s.work := rfl
@[simp] theorem accept_draws (w : Word) (s : State) : (accept w s).draws = s.draws + 1 := rfl
@[simp] theorem accept_host (w : Word) (s : State) : (accept w s).host = s.host := rfl
@[simp] theorem accept_reads (w : Word) (s : State) : (accept w s).reads = s.reads := rfl

/-! ### `countDown` -/

@[simp] theorem countDown_cmd (s : State) : (countDown s).cmd = s.cmd := rfl
@[simp] theorem countDown_status (s : State) : (countDown s).status = s.status := rfl
@[simp] theorem countDown_cltuRand (s : State) : (countDown s).cltuRand = s.cltuRand := rfl
@[simp] theorem countDown_ilen (s : State) : (countDown s).ilen = s.ilen := rfl
@[simp] theorem countDown_olen (s : State) : (countDown s).olen = s.olen := rfl
@[simp] theorem countDown_arg0 (s : State) : (countDown s).arg0 = s.arg0 := rfl
@[simp] theorem countDown_arg1 (s : State) : (countDown s).arg1 = s.arg1 := rfl
@[simp] theorem countDown_value (s : State) : (countDown s).value = s.value := rfl
@[simp] theorem countDown_asmLen (s : State) : (countDown s).asmLen = s.asmLen := rfl
@[simp] theorem countDown_asmPat0 (s : State) : (countDown s).asmPat0 = s.asmPat0 := rfl
@[simp] theorem countDown_asmPat1 (s : State) : (countDown s).asmPat1 = s.asmPat1 := rfl
@[simp] theorem countDown_ibuf (s : State) : (countDown s).ibuf = s.ibuf := rfl
@[simp] theorem countDown_obuf (s : State) : (countDown s).obuf = s.obuf := rfl
@[simp] theorem countDown_inFlight (s : State) : (countDown s).inFlight = s.inFlight.map fun f => { f with delay := f.delay - 1 } := rfl
@[simp] theorem countDown_work (s : State) : (countDown s).work = s.work := rfl
@[simp] theorem countDown_draws (s : State) : (countDown s).draws = s.draws := rfl
@[simp] theorem countDown_host (s : State) : (countDown s).host = s.host := rfl
@[simp] theorem countDown_reads (s : State) : (countDown s).reads = s.reads := rfl

/-! ### `nextEvent` -/

@[simp] theorem nextEvent_cmd (s : State) : (nextEvent s).cmd = s.cmd := rfl
@[simp] theorem nextEvent_status (s : State) : (nextEvent s).status = s.status := rfl
@[simp] theorem nextEvent_cltuRand (s : State) : (nextEvent s).cltuRand = s.cltuRand := rfl
@[simp] theorem nextEvent_ilen (s : State) : (nextEvent s).ilen = s.ilen := rfl
@[simp] theorem nextEvent_olen (s : State) : (nextEvent s).olen = s.olen := rfl
@[simp] theorem nextEvent_arg0 (s : State) : (nextEvent s).arg0 = s.arg0 := rfl
@[simp] theorem nextEvent_arg1 (s : State) : (nextEvent s).arg1 = s.arg1 := rfl
@[simp] theorem nextEvent_value (s : State) : (nextEvent s).value = s.value := rfl
@[simp] theorem nextEvent_asmLen (s : State) : (nextEvent s).asmLen = s.asmLen := rfl
@[simp] theorem nextEvent_asmPat0 (s : State) : (nextEvent s).asmPat0 = s.asmPat0 := rfl
@[simp] theorem nextEvent_asmPat1 (s : State) : (nextEvent s).asmPat1 = s.asmPat1 := rfl
@[simp] theorem nextEvent_ibuf (s : State) : (nextEvent s).ibuf = s.ibuf := rfl
@[simp] theorem nextEvent_obuf (s : State) : (nextEvent s).obuf = s.obuf := rfl
@[simp] theorem nextEvent_inFlight (s : State) : (nextEvent s).inFlight = s.inFlight := rfl
@[simp] theorem nextEvent_work (s : State) : (nextEvent s).work = s.work := rfl
@[simp] theorem nextEvent_draws (s : State) : (nextEvent s).draws = s.draws := rfl
@[simp] theorem nextEvent_host (s : State) : (nextEvent s).host = s.host.tail := rfl
@[simp] theorem nextEvent_reads (s : State) : (nextEvent s).reads = s.reads := rfl

/-! ### `record` -/

@[simp] theorem record_cmd (v : Word) (s : State) : (record v s).cmd = s.cmd := rfl
@[simp] theorem record_status (v : Word) (s : State) : (record v s).status = s.status := rfl
@[simp] theorem record_cltuRand (v : Word) (s : State) : (record v s).cltuRand = s.cltuRand := rfl
@[simp] theorem record_ilen (v : Word) (s : State) : (record v s).ilen = s.ilen := rfl
@[simp] theorem record_olen (v : Word) (s : State) : (record v s).olen = s.olen := rfl
@[simp] theorem record_arg0 (v : Word) (s : State) : (record v s).arg0 = s.arg0 := rfl
@[simp] theorem record_arg1 (v : Word) (s : State) : (record v s).arg1 = s.arg1 := rfl
@[simp] theorem record_value (v : Word) (s : State) : (record v s).value = s.value := rfl
@[simp] theorem record_asmLen (v : Word) (s : State) : (record v s).asmLen = s.asmLen := rfl
@[simp] theorem record_asmPat0 (v : Word) (s : State) : (record v s).asmPat0 = s.asmPat0 := rfl
@[simp] theorem record_asmPat1 (v : Word) (s : State) : (record v s).asmPat1 = s.asmPat1 := rfl
@[simp] theorem record_ibuf (v : Word) (s : State) : (record v s).ibuf = s.ibuf := rfl
@[simp] theorem record_obuf (v : Word) (s : State) : (record v s).obuf = s.obuf := rfl
@[simp] theorem record_inFlight (v : Word) (s : State) : (record v s).inFlight = s.inFlight := rfl
@[simp] theorem record_work (v : Word) (s : State) : (record v s).work = s.work := rfl
@[simp] theorem record_draws (v : Word) (s : State) : (record v s).draws = s.draws := rfl
@[simp] theorem record_host (v : Word) (s : State) : (record v s).host = s.host := rfl
@[simp] theorem record_reads (v : Word) (s : State) : (record v s).reads = s.reads ++ [v] := rfl

/-! ### `raiseError` -/

@[simp] theorem raiseError_cmd (o : Bool) (k : ErrorKind) (s : State) :
    (raiseError o k s).cmd = s.cmd := by cases o <;> rfl
@[simp] theorem raiseError_status (o : Bool) (k : ErrorKind) (s : State) :
    (raiseError o k s).status = Status.failed k := by cases o <;> rfl
@[simp] theorem raiseError_cltuRand (o : Bool) (k : ErrorKind) (s : State) :
    (raiseError o k s).cltuRand = s.cltuRand := by cases o <;> rfl
@[simp] theorem raiseError_ilen (o : Bool) (k : ErrorKind) (s : State) :
    (raiseError o k s).ilen = s.ilen := by cases o <;> rfl
@[simp] theorem raiseError_arg0 (o : Bool) (k : ErrorKind) (s : State) :
    (raiseError o k s).arg0 = s.arg0 := by cases o <;> rfl
@[simp] theorem raiseError_arg1 (o : Bool) (k : ErrorKind) (s : State) :
    (raiseError o k s).arg1 = s.arg1 := by cases o <;> rfl
@[simp] theorem raiseError_value (o : Bool) (k : ErrorKind) (s : State) :
    (raiseError o k s).value = s.value := by cases o <;> rfl
@[simp] theorem raiseError_asmLen (o : Bool) (k : ErrorKind) (s : State) :
    (raiseError o k s).asmLen = s.asmLen := by cases o <;> rfl
@[simp] theorem raiseError_asmPat0 (o : Bool) (k : ErrorKind) (s : State) :
    (raiseError o k s).asmPat0 = s.asmPat0 := by cases o <;> rfl
@[simp] theorem raiseError_asmPat1 (o : Bool) (k : ErrorKind) (s : State) :
    (raiseError o k s).asmPat1 = s.asmPat1 := by cases o <;> rfl
@[simp] theorem raiseError_ibuf (o : Bool) (k : ErrorKind) (s : State) :
    (raiseError o k s).ibuf = s.ibuf := by cases o <;> rfl
@[simp] theorem raiseError_inFlight (o : Bool) (k : ErrorKind) (s : State) :
    (raiseError o k s).inFlight = none := by cases o <;> rfl
@[simp] theorem raiseError_work (o : Bool) (k : ErrorKind) (s : State) :
    (raiseError o k s).work = s.work := by cases o <;> rfl
@[simp] theorem raiseError_host (o : Bool) (k : ErrorKind) (s : State) :
    (raiseError o k s).host = s.host := by cases o <;> rfl
@[simp] theorem raiseError_reads (o : Bool) (k : ErrorKind) (s : State) :
    (raiseError o k s).reads = s.reads := by cases o <;> rfl

@[simp] theorem raiseError_true_olen (k : ErrorKind) (s : State) : (raiseError true k s).olen = 0 := rfl
@[simp] theorem raiseError_true_obuf (k : ErrorKind) (s : State) :
    (raiseError true k s).obuf = Memory.unwritten s.draws := rfl
@[simp] theorem raiseError_true_draws (k : ErrorKind) (s : State) : (raiseError true k s).draws = s.draws + 1 := rfl
@[simp] theorem raiseError_false_olen (k : ErrorKind) (s : State) : (raiseError false k s).olen = s.olen := rfl
@[simp] theorem raiseError_false_obuf (k : ErrorKind) (s : State) : (raiseError false k s).obuf = s.obuf := rfl
@[simp] theorem raiseError_false_draws (k : ErrorKind) (s : State) : (raiseError false k s).draws = s.draws := rfl

/-! ### `finishOutput` -/

@[simp] theorem finishOutput_cmd (r : Except ErrorKind (List Byte)) (s : State) :
    (finishOutput r s).cmd = s.cmd := by cases r <;> rfl
@[simp] theorem finishOutput_cltuRand (r : Except ErrorKind (List Byte)) (s : State) :
    (finishOutput r s).cltuRand = s.cltuRand := by cases r <;> rfl
@[simp] theorem finishOutput_ilen (r : Except ErrorKind (List Byte)) (s : State) :
    (finishOutput r s).ilen = s.ilen := by cases r <;> rfl
@[simp] theorem finishOutput_arg0 (r : Except ErrorKind (List Byte)) (s : State) :
    (finishOutput r s).arg0 = s.arg0 := by cases r <;> rfl
@[simp] theorem finishOutput_arg1 (r : Except ErrorKind (List Byte)) (s : State) :
    (finishOutput r s).arg1 = s.arg1 := by cases r <;> rfl
@[simp] theorem finishOutput_value (r : Except ErrorKind (List Byte)) (s : State) :
    (finishOutput r s).value = s.value := by cases r <;> rfl
@[simp] theorem finishOutput_asmLen (r : Except ErrorKind (List Byte)) (s : State) :
    (finishOutput r s).asmLen = s.asmLen := by cases r <;> rfl
@[simp] theorem finishOutput_asmPat0 (r : Except ErrorKind (List Byte)) (s : State) :
    (finishOutput r s).asmPat0 = s.asmPat0 := by cases r <;> rfl
@[simp] theorem finishOutput_asmPat1 (r : Except ErrorKind (List Byte)) (s : State) :
    (finishOutput r s).asmPat1 = s.asmPat1 := by cases r <;> rfl
@[simp] theorem finishOutput_ibuf (r : Except ErrorKind (List Byte)) (s : State) :
    (finishOutput r s).ibuf = s.ibuf := by cases r <;> rfl
@[simp] theorem finishOutput_inFlight (r : Except ErrorKind (List Byte)) (s : State) :
    (finishOutput r s).inFlight = none := by cases r <;> rfl
@[simp] theorem finishOutput_work (r : Except ErrorKind (List Byte)) (s : State) :
    (finishOutput r s).work = s.work := by cases r <;> rfl
@[simp] theorem finishOutput_host (r : Except ErrorKind (List Byte)) (s : State) :
    (finishOutput r s).host = s.host := by cases r <;> rfl
@[simp] theorem finishOutput_reads (r : Except ErrorKind (List Byte)) (s : State) :
    (finishOutput r s).reads = s.reads := by cases r <;> rfl

@[simp] theorem finishOutput_draws (r : Except ErrorKind (List Byte)) (s : State) :
    (finishOutput r s).draws = s.draws + 1 := by cases r <;> rfl
@[simp] theorem finishOutput_ok (out : List Byte) (s : State) : finishOutput (.ok out) s = deliver out s := rfl
@[simp] theorem finishOutput_error (k : ErrorKind) (s : State) :
    finishOutput (.error k) s = raiseError true k s := rfl

/-! ### `applyReset` -/

@[simp] theorem applyReset_cmd (s : State) : (applyReset s).cmd = State.reset.cmd := rfl
@[simp] theorem applyReset_status (s : State) : (applyReset s).status = State.reset.status := rfl
@[simp] theorem applyReset_cltuRand (s : State) : (applyReset s).cltuRand = State.reset.cltuRand := rfl
@[simp] theorem applyReset_ilen (s : State) : (applyReset s).ilen = State.reset.ilen := rfl
@[simp] theorem applyReset_olen (s : State) : (applyReset s).olen = State.reset.olen := rfl
@[simp] theorem applyReset_arg0 (s : State) : (applyReset s).arg0 = State.reset.arg0 := rfl
@[simp] theorem applyReset_arg1 (s : State) : (applyReset s).arg1 = State.reset.arg1 := rfl
@[simp] theorem applyReset_value (s : State) : (applyReset s).value = State.reset.value := rfl
@[simp] theorem applyReset_asmLen (s : State) : (applyReset s).asmLen = State.reset.asmLen := rfl
@[simp] theorem applyReset_asmPat0 (s : State) : (applyReset s).asmPat0 = State.reset.asmPat0 := rfl
@[simp] theorem applyReset_asmPat1 (s : State) : (applyReset s).asmPat1 = State.reset.asmPat1 := rfl
@[simp] theorem applyReset_ibuf (s : State) : (applyReset s).ibuf = Memory.unwritten s.draws := rfl
@[simp] theorem applyReset_obuf (s : State) : (applyReset s).obuf = Memory.unwritten (s.draws + 1) := rfl
@[simp] theorem applyReset_inFlight (s : State) : (applyReset s).inFlight = State.reset.inFlight := rfl
@[simp] theorem applyReset_work (s : State) : (applyReset s).work = State.reset.work := rfl
@[simp] theorem applyReset_draws (s : State) : (applyReset s).draws = s.draws + 2 := rfl
@[simp] theorem applyReset_host (s : State) : (applyReset s).host = s.host := rfl
@[simp] theorem applyReset_reads (s : State) : (applyReset s).reads = s.reads := rfl

/-! ### The inputs a command reads -/

/-- Where no command is in flight, a command reads the registers as they stand. -/
theorem inputs_of_idle (s : State) (h : s.inFlight = none) : s.inputs = latch s := by
  simp [State.inputs, h]

/-- A command in flight reads what it latched (R62). -/
theorem inputs_of_flight (s : State) (f : InFlight) (h : s.inFlight = some f) : s.inputs = f.inputs := by
  simp [State.inputs, h]

@[simp] theorem inputs_spendLfsr (s : State) : (spendLfsr s).inputs = s.inputs := rfl
@[simp] theorem inputs_spendBch (s : State) : (spendBch s).inputs = s.inputs := rfl
@[simp] theorem inputs_spendRs (s : State) : (spendRs s).inputs = s.inputs := rfl
@[simp] theorem inputs_acceptFor (n : Nat) (w : Word) (s : State) : (acceptFor n w s).inputs = latch s := rfl
@[simp] theorem inputs_accept (w : Word) (s : State) : (accept w s).inputs = latch s := rfl

/-! ### STATUS as the host reads it -/

@[simp] theorem word_reset : Status.reset.word = 0x00 := by decide
@[simp] theorem word_accepted : Status.accepted.word = 0x01 := by decide
@[simp] theorem word_succeeded : Status.succeeded.word = 0x02 := by decide
@[simp] theorem word_failed (k : ErrorKind) : (Status.failed k).word = failedWord k := by cases k <;> decide

/-- Bit 0 of the word is BUSY (R24). -/
@[simp] theorem word_bit0 (st : Status) : st.word.getLsbD 0 = st.busy := by
  obtain ⟨b, d, e, c⟩ := st
  revert b d e c
  decide

end Sys2Proof.Machine
end

