-- ==== Sys2Proof/Laws/Memory.lean ====
section
/-! SUPPORT. The laws of a byte buffer: read after write, the canonical form every operation keeps, byte strings and
big-endian words. -/

namespace Sys2Proof.Machine

/-! ## Cells -/

theorem lookupCell_insertCell (cells : List Host.Cell) (i j : Nat) (b : Byte) :
    lookupCell (insertCell cells i b) j = if j = i then some b else lookupCell cells j := by
  induction cells with
  | nil => simp [insertCell, lookupCell, eq_comm]
  | cons c rest ih =>
    obtain ⟨a, c⟩ := c
    simp only [insertCell]
    split
    · simp only [lookupCell, ih]
      split <;> split <;> first | rfl | omega
    · split
      · subst a
        by_cases h : j = i
        · simp [lookupCell, h]
        · simp [lookupCell, h, Ne.symm h]
      · by_cases h : j = i
        · simp [lookupCell, h]
        · simp [lookupCell, h, Ne.symm h]

/-- A cell of the list after an insertion is the new one or one that was there. -/
theorem mem_insertCell {cells : List Host.Cell} {i : Nat} {b : Byte} {c : Host.Cell}
    (h : c ∈ insertCell cells i b) : c = (i, b) ∨ c ∈ cells := by
  induction cells with
  | nil => simpa [insertCell] using h
  | cons d rest ih =>
    obtain ⟨a, d⟩ := d
    simp only [insertCell] at h
    split at h
    · rcases List.mem_cons.1 h with h | h
      · simp [h]
      · rcases ih h with h | h <;> simp [h]
    · split at h <;> simp at h <;> rcases h with h | h <;> simp [h]

theorem rising_insertCell {cells : List Host.Cell} (i : Nat) (b : Byte)
    (h : cells.Pairwise (fun c d => c.1 < d.1)) : (insertCell cells i b).Pairwise (fun c d => c.1 < d.1) := by
  induction cells with
  | nil => simp [insertCell]
  | cons d rest ih =>
    obtain ⟨a, d⟩ := d
    obtain ⟨ha, hr⟩ := List.pairwise_cons.1 h
    simp only [insertCell]
    split
    next hlt =>
      refine List.pairwise_cons.2 ⟨fun c hc => ?_, ih hr⟩
      rcases mem_insertCell hc with rfl | hc
      · exact hlt
      · exact ha c hc
    next hge =>
      split
      next heq => exact List.pairwise_cons.2 ⟨fun c hc => heq ▸ ha c hc, hr⟩
      next hne =>
        refine List.pairwise_cons.2 ⟨fun c hc => ?_, h⟩
        rcases List.mem_cons.1 hc with rfl | hc
        · show i < a
          omega
        · have := ha c hc
          show i < c.1
          simp only at this
          omega

theorem lookupCell_cellsFrom (bs : List Byte) (i j : Nat) :
    lookupCell (cellsFrom i bs) j = if i ≤ j then bs[j - i]? else none := by
  induction bs generalizing i with
  | nil => simp [cellsFrom, lookupCell]
  | cons b rest ih =>
    simp only [cellsFrom, lookupCell, ih]
    by_cases h : i = j
    · simp [h]
    · by_cases h2 : i + 1 ≤ j
      · have h3 : j - i = (j - (i + 1)) + 1 := by omega
        simp [h, h2, h3, show i ≤ j by omega]
      · simp [h, h2, show ¬ i ≤ j by omega]

theorem mem_cellsFrom {bs : List Byte} {i : Nat} {c : Host.Cell} (h : c ∈ cellsFrom i bs) :
    i ≤ c.1 ∧ c.1 < i + bs.length := by
  induction bs generalizing i with
  | nil => simp [cellsFrom] at h
  | cons b rest ih =>
    rcases List.mem_cons.1 h with rfl | h
    · simp
    · have := ih h
      simp only [List.length_cons]
      omega

theorem rising_cellsFrom (bs : List Byte) (i : Nat) : (cellsFrom i bs).Pairwise (fun c d => c.1 < d.1) := by
  induction bs generalizing i with
  | nil => simp [cellsFrom]
  | cons b rest ih =>
    refine List.pairwise_cons.2 ⟨fun c hc => ?_, ih (i + 1)⟩
    have := (mem_cellsFrom hc).1
    show i < c.1
    omega

/-! ## Bytes -/

@[simp] theorem Memory.write_draw (m : Memory) (i : Nat) (b : Byte) : (m.write i b).draw = m.draw := rfl

/-- Read after write: the byte written at its own index, every other byte as before. -/
theorem Memory.byte_write (m : Memory) (i j : Nat) (b : Byte) :
    (m.write i b).byte j = if j = i then b else m.byte j := by
  simp only [Memory.byte, Memory.write, lookupCell_insertCell]
  split <;> rfl

theorem Memory.byte_writeBytes (m : Memory) (i j : Nat) (bs : List Byte) :
    (m.writeBytes i bs).byte j = if i ≤ j ∧ j < i + bs.length then bs.getD (j - i) 0 else m.byte j := by
  induction bs generalizing m i with
  | nil =>
    simp only [Memory.writeBytes, List.length_nil]
    rw [if_neg (by omega)]
  | cons b rest ih =>
    simp only [Memory.writeBytes, ih, Memory.byte_write, List.length_cons]
    by_cases h : j = i
    · subst h
      simp
    · by_cases h2 : i + 1 ≤ j ∧ j < i + 1 + rest.length
      · have h3 : j - i = (j - (i + 1)) + 1 := by omega
        rw [if_pos h2, if_pos (by omega), h3]
        simp
      · rw [if_neg h2, if_neg h, if_neg (by omega)]

/-- Byte `i` of a buffer that holds a string. -/
theorem Memory.byte_holding (n : Nat) (bs : List Byte) (i : Nat) (h : i < bs.length) :
    (Memory.holding n bs).byte i = bs[i] := by
  simp [Memory.byte, Memory.holding, lookupCell_cellsFrom, h]

/-- A byte above the string a buffer holds is a free value (R36). -/
theorem Memory.byte_holding_above (n : Nat) (bs : List Byte) (i : Nat) (h : bs.length ≤ i) :
    (Memory.holding n bs).byte i = Config.freeByte n i := by
  simp [Memory.byte, Memory.holding, lookupCell_cellsFrom, h]

/-- Every byte of an unwritten buffer is a free value (R40). -/
theorem Memory.byte_unwritten (n i : Nat) : (Memory.unwritten n).byte i = Config.freeByte n i := rfl

@[simp] theorem Memory.bytes_length (m : Memory) (n : Nat) : (m.bytes n).length = n := by
  simp [Memory.bytes]

@[simp] theorem Memory.bytes_getElem (m : Memory) (n i : Nat) (h : i < (m.bytes n).length) :
    (m.bytes n)[i] = m.byte i := by
  simp [Memory.bytes]

theorem Memory.bytes_getD (m : Memory) (n i : Nat) (h : i < n) : (m.bytes n).getD i 0 = m.byte i := by
  simp [Memory.bytes, h]

/-- Two strings read from buffers agree where their bytes do. -/
theorem Memory.bytes_congr {m m' : Memory} {n : Nat} (h : ∀ i < n, m.byte i = m'.byte i) :
    m.bytes n = m'.bytes n :=
  List.map_congr_left fun i hi => h i (List.mem_range.1 hi)

/-- A buffer that holds a string reads as it. -/
@[simp] theorem Memory.bytes_holding (n : Nat) (bs : List Byte) : (Memory.holding n bs).bytes bs.length = bs := by
  apply List.ext_getElem
  · simp
  · intro i h1 h2
    simp [Memory.byte_holding n bs i h2]

/-! ## The canonical form -/

theorem Memory.wf_unwritten (n : Nat) : (Memory.unwritten n).wf := by
  simp [Memory.wf, Memory.unwritten]

theorem Memory.wf_write {m : Memory} {i : Nat} (b : Byte) (h : m.wf) (hi : i < Config.bufSize) : (m.write i b).wf := by
  refine ⟨rising_insertCell i b h.1, fun c hc => ?_⟩
  rcases mem_insertCell hc with rfl | hc
  · exact hi
  · exact h.2 c hc

theorem Memory.wf_writeBytes {m : Memory} {i : Nat} (bs : List Byte) (h : m.wf)
    (hi : i + bs.length ≤ Config.bufSize) : (m.writeBytes i bs).wf := by
  induction bs generalizing m i with
  | nil => exact h
  | cons b rest ih =>
    simp only [List.length_cons] at hi
    exact ih (Memory.wf_write b h (by omega)) (by omega)

theorem Memory.wf_holding (n : Nat) {bs : List Byte} (h : bs.length ≤ Config.bufSize) : (Memory.holding n bs).wf := by
  refine ⟨rising_cellsFrom bs 0, fun c hc => ?_⟩
  have := (mem_cellsFrom hc).2
  omega

theorem Memory.wf_writeWord {m : Memory} {i : Nat} (w : Word) (h : m.wf) (hi : i + 4 ≤ Config.bufSize) :
    (m.writeWord i w).wf :=
  Memory.wf_writeBytes _ h (by simpa using hi)

/-- Which bytes of a buffer are specified after a string is stored in it. -/
theorem lookupCell_holding (n : Nat) (bs : List Byte) (i : Nat) :
    (lookupCell (Memory.holding n bs).cells i).isSome = decide (i < bs.length) := by
  by_cases h : i < bs.length <;> simp [Memory.holding, lookupCell_cellsFrom, h]

/-! ## Big-endian words -/

/-- Byte `j` of a word is its bits [31-8j : 24-8j] (R56). -/
theorem byteOfWord_getLsbD (w : Word) (j k : Nat) (hk : k < 8) :
    (byteOfWord w j).getLsbD k = w.getLsbD (24 - 8 * j + k) := by
  simp [byteOfWord, hk]

@[simp] theorem wordOfBytes_byteOfWord (w : Word) :
    wordOfBytes (byteOfWord w 0) (byteOfWord w 1) (byteOfWord w 2) (byteOfWord w 3) = w := by
  apply BitVec.eq_of_getLsbD_eq
  intro i hi
  simp only [wordOfBytes, byteOfWord, BitVec.getLsbD_append, BitVec.getLsbD_extractLsb']
  split
  · simp_all
  · split
    · rw [decide_eq_true (by omega)]
      simp; congr 1; omega
    · split
      · rw [decide_eq_true (by omega)]
        simp; congr 1; omega
      · rw [decide_eq_true (by omega)]
        simp; congr 1; omega

end Sys2Proof.Machine
end

