-- ==== Sys2Proof/Laws/Ops.lean ====
section
/-! SUPPORT. For each shared operation, one lemma that says what it does: the length check, the two completions, the
host's turn and the step. -/

namespace Sys2Proof.Machine

/-! ## Frames compose -/

theorem Kept.refl (s : State) : Kept s s := ⟨rfl, rfl, rfl, rfl, rfl, rfl, rfl, rfl, rfl⟩

theorem InputKept.refl (s : State) : InputKept s s := ⟨rfl, rfl, fun _ => rfl⟩

theorem OutputKept.refl (s : State) : OutputKept s s := ⟨rfl, fun _ => rfl⟩

theorem Kept.spendLfsr {s u : State} (h : Kept s u) : Kept s (spendLfsr u) :=
  ⟨h.cmd, h.ctrl, h.arg0, h.arg1, h.asmLen, h.asmPat0, h.asmPat1, h.host, h.reads⟩

theorem Kept.spendBch {s u : State} (h : Kept s u) : Kept s (spendBch u) :=
  ⟨h.cmd, h.ctrl, h.arg0, h.arg1, h.asmLen, h.asmPat0, h.asmPat1, h.host, h.reads⟩

theorem Kept.spendRs {s u : State} (h : Kept s u) : Kept s (spendRs u) :=
  ⟨h.cmd, h.ctrl, h.arg0, h.arg1, h.asmLen, h.asmPat0, h.asmPat1, h.host, h.reads⟩

theorem InputKept.spendLfsr {s u : State} (h : InputKept s u) : InputKept s (spendLfsr u) := ⟨h.ilen, h.value, h.ibuf⟩

theorem InputKept.spendBch {s u : State} (h : InputKept s u) : InputKept s (spendBch u) := ⟨h.ilen, h.value, h.ibuf⟩

theorem InputKept.spendRs {s u : State} (h : InputKept s u) : InputKept s (spendRs u) := ⟨h.ilen, h.value, h.ibuf⟩

/-! ## The input string -/

@[simp] theorem Inputs.string_length (inp : Inputs) : inp.string.length = inp.ilen.toNat := by
  simp [Inputs.string]

theorem onInput_of_le {α : Type} {inp : Inputs} {rule : List Byte → Except ErrorKind α}
    (h : inp.ilen.toNat ≤ Config.bufSize) : onInput inp rule = rule inp.string := by
  rw [onInput, if_neg (by omega)]

theorem onInput_of_gt {α : Type} {inp : Inputs} {rule : List Byte → Except ErrorKind α}
    (h : inp.ilen.toNat > Config.bufSize) : onInput inp rule = .error .structural := by
  rw [onInput, if_pos h]

/-- A result comes from the rule, on an input that fits IBUF. -/
theorem onInput_eq_ok {α : Type} {inp : Inputs} {rule : List Byte → Except ErrorKind α} {x : α}
    (h : onInput inp rule = .ok x) : inp.ilen.toNat ≤ Config.bufSize ∧ rule inp.string = .ok x := by
  unfold onInput at h
  split at h
  · cases h
  · exact ⟨by omega, h⟩

/-! ## Completions -/

/-- A delivery, as the statements say it (R36, R103). -/
theorem delivered_deliver {s u : State} {out : List Byte} (hk : Kept s u) (hi : InputKept s u)
    (hlen : out.length < 2 ^ 16) : Delivered s (deliver out u) out where
  status := word_succeeded
  idle := rfl
  kept := ⟨hk.cmd, hk.ctrl, hk.arg0, hk.arg1, hk.asmLen, hk.asmPat0, hk.asmPat1, hk.host, hk.reads⟩
  input := ⟨hi.ilen, hi.value, hi.ibuf⟩
  olen := by simpa using hlen
  bytes := by simp

/-- A failure of a command that writes OBUF, as the statements say it (R233, R235). -/
theorem failedOutput_raiseError {s u : State} (k : ErrorKind) (hk : Kept s u) (hi : InputKept s u) :
    FailedOutput s (raiseError true k u) k where
  status := by simp
  idle := rfl
  kept := ⟨hk.cmd, hk.ctrl, hk.arg0, hk.arg1, hk.asmLen, hk.asmPat0, hk.asmPat1, hk.host, hk.reads⟩
  input := ⟨hi.ilen, hi.value, hi.ibuf⟩
  olen := rfl

/-- A failure of a command that does not write OBUF leaves everything but STATUS (R235). -/
theorem onlyStatus_raiseError (s : State) (k : ErrorKind) : OnlyStatus s (raiseError false k s) (failedWord k) where
  status := by simp
  idle := rfl
  kept := ⟨rfl, rfl, rfl, rfl, rfl, rfl, rfl, rfl, rfl⟩
  input := ⟨rfl, rfl, fun _ => rfl⟩
  output := ⟨rfl, fun _ => rfl⟩
  work := rfl

/-- Success with no other effect (R104). -/
theorem onlyStatus_succeed (s : State) : OnlyStatus s (succeed s) 0x02 where
  status := by simp
  idle := rfl
  kept := ⟨rfl, rfl, rfl, rfl, rfl, rfl, rfl, rfl, rfl⟩
  input := ⟨rfl, rfl, fun _ => rfl⟩
  output := ⟨rfl, fun _ => rfl⟩
  work := rfl

/-! ## Every command completes -/

/-- `exec` answers a next state for every command in every state (R102, R106). -/
theorem exec_completes (i : Instr) (s : State) : Completes (exec i s) := by
  cases i
  case bfExtract =>
    simp only [exec, execBfExtract]
    split <;> exact ⟨_, rfl⟩
  case bfInsert =>
    simp only [exec, execBfInsert]
    split <;> exact ⟨_, rfl⟩
  all_goals exact ⟨_, rfl⟩

/-- After a command the block is idle, DONE is 1 and CMD still holds its word (R24, R100). -/
theorem exec_idles {i : Instr} {s t : State} (h : exec i s = .next t) :
    t.inFlight = none ∧ t.status.busy = false ∧ t.status.done = true ∧ t.cmd = s.cmd := by
  have fin : ∀ r u, (finishOutput r u).inFlight = none ∧ (finishOutput r u).status.busy = false ∧
      (finishOutput r u).status.done = true ∧ (finishOutput r u).cmd = u.cmd := by
    intro r u
    cases r <;> exact ⟨rfl, rfl, rfl, rfl⟩
  cases i
  case bfExtract =>
    simp only [exec, execBfExtract] at h
    split at h <;> cases h <;> exact ⟨rfl, rfl, rfl, rfl⟩
  case bfInsert =>
    simp only [exec, execBfInsert] at h
    split at h <;> cases h <;> exact ⟨rfl, rfl, rfl, rfl⟩
  case nop =>
    cases h
    exact ⟨rfl, rfl, rfl, rfl⟩
  case move =>
    cases h
    exact ⟨rfl, rfl, rfl, rfl⟩
  all_goals
    cases h
    exact fin _ _

/-- Running any command word, legal or not, completes. -/
theorem execWord_completes (w : Word) (s : State) : Completes (execWord w s) := by
  unfold execWord
  split
  · exact exec_completes _ s
  · exact ⟨_, rfl⟩

/-! ## The step -/

theorem readyWord_of_ready {s : State} {f : InFlight} (h : s.inFlight = some f) (hd : f.delay = 0) :
    readyWord s = some f.word := by
  simp [readyWord, h, hd]

theorem readyWord_of_waiting {s : State} {f : InFlight} (h : s.inFlight = some f) (hd : f.delay ≠ 0) :
    readyWord s = none := by
  simp [readyWord, h, hd]

theorem readyWord_of_idle {s : State} (h : s.inFlight = none) : readyWord s = none := by
  simp [readyWord, h]

theorem countDown_of_idle {s : State} (h : s.inFlight = none) : countDown s = s := by
  obtain ⟨⟩ := s
  simp only at h
  subst h
  rfl

/-- What a step can do: run the ready command word, or give the host its turn. -/
theorem step_cases {s t : State} (h : step s = .next t) :
    (∃ f, s.inFlight = some f ∧ f.delay = 0 ∧ execWord f.word s = .next t) ∨
    (readyWord s = none ∧ hostTurn (countDown s) = .next t) := by
  unfold step at h
  split at h
  next w hw =>
    left
    unfold readyWord at hw
    split at hw
    next f hf =>
      split at hw
      next hd =>
        cases hw
        exact ⟨f, hf, hd, h⟩
      · cases hw
    · cases hw
  next hw => exact .inr ⟨hw, h⟩

/-- What the host's turn can do: nothing, one legal access, one read of STATUS, or a reset. -/
theorem hostTurn_cases {s t : State} (h : hostTurn s = .next t) :
    (s.host = [] ∧ t = s) ∨
    (∃ a rest v, s.host = .access a :: rest ∧ a.addressed = true ∧ a.legal = true ∧ a.kind = .read ∧
      v = (busRead a (nextEvent s)).1 ∧ t = record v (busRead a (nextEvent s)).2) ∨
    (∃ a rest, s.host = .access a :: rest ∧ a.addressed = true ∧ a.legal = true ∧ a.kind = .write ∧
      t = busWrite a (nextEvent s)) ∨
    (∃ rest, s.host = .wait :: rest ∧ t = pollStatus s) ∨
    (∃ rest, s.host = .reset :: rest ∧ t = applyReset (nextEvent s)) := by
  unfold hostTurn at h
  split at h
  next hh =>
    cases h
    exact .inl ⟨hh, rfl⟩
  next a rest hh =>
    unfold performAccess at h
    split at h
    next had =>
      unfold busAccess at h
      split at h
      next v u heq =>
        split at heq
        next hl =>
          split at heq
          next hk =>
            obtain ⟨hv, hu⟩ := Prod.mk.inj heq
            cases hv
            cases hu
            cases h
            exact .inr (.inl ⟨a, rest, _, hh, had, hl, hk, rfl, rfl⟩)
          · exact absurd (Prod.mk.inj heq).1 (by simp)
        · exact absurd (Prod.mk.inj heq).1 (by simp)
      next u heq =>
        split at heq
        next hl =>
          split at heq
          · exact absurd (Prod.mk.inj heq).1 (by simp)
          next hk =>
            obtain ⟨_, hu⟩ := Prod.mk.inj heq
            cases hu
            cases h
            exact .inr (.inr (.inl ⟨a, rest, hh, had, hl, hk, rfl⟩))
        · exact absurd (Prod.mk.inj heq).1 (by simp)
      next u heq => cases h
    · cases h
  next rest hh =>
    cases h
    exact .inr (.inr (.inr (.inl ⟨rest, hh, rfl⟩)))
  next rest hh =>
    cases h
    exact .inr (.inr (.inr (.inr ⟨rest, hh, rfl⟩)))

end Sys2Proof.Machine
end

