-- ==== Sys2Proof/Laws/Operands.lean ====
section
/-! SUPPORT. The laws of the operand forms: the input string byte by byte, the legal lengths and widths, and the bits of
a buffer that a field write touches. -/

namespace Sys2Proof.Machine

/-! ## The input string -/

theorem Inputs.string_getD (inp : Inputs) (i : Nat) (h : i < inp.ilen.toNat) :
    inp.string.getD i 0 = inp.ibuf.byte i :=
  Memory.bytes_getD _ _ _ h

theorem Memory.take_bytes (m : Memory) (k n : Nat) (h : k ≤ n) : (m.bytes n).take k = m.bytes k := by
  rw [Memory.bytes, ← List.map_take, List.take_range, Nat.min_eq_left h, Memory.bytes]

theorem asmLenLegal_eq_false (inp : Inputs) :
    asmLenLegal inp = false ↔ inp.asmLen.toNat = 0 ∨ inp.asmLen.toNat > 8 := by
  simp only [asmLenLegal, decide_eq_false_iff_not]
  omega

theorem widthLegal_eq_false (w : Nat) : widthLegal w = false ↔ w = 0 ∨ w > 32 := by
  simp only [widthLegal, decide_eq_false_iff_not]
  omega

@[simp] theorem asmMarker_length (inp : Inputs) : (asmMarker inp).length = inp.asmLen.toNat := by
  simp [asmMarker]

/-! ## Fields of a stream -/

/-- A sum of bits weighted by falling powers of two is the number those bits write, first bit highest. -/
theorem sum_bits (f : Nat → Bool) (w : Nat) :
    ((List.range w).map fun k => (f k).toNat * 2 ^ (w - 1 - k)).sum < 2 ^ w ∧
    ∀ k < w, (((List.range w).map fun k => (f k).toNat * 2 ^ (w - 1 - k)).sum).testBit (w - 1 - k) = f k := by
  induction w generalizing f with
  | zero => simp
  | succ w ih =>
    obtain ⟨h1, h2⟩ := ih (fun k => f (k + 1))
    have e : List.map ((fun k => (f k).toNat * 2 ^ (w + 1 - 1 - k)) ∘ Nat.succ) (List.range w) =
        List.map (fun k => (f (k + 1)).toNat * 2 ^ (w - 1 - k)) (List.range w) :=
      List.map_congr_left fun k _ => by simp [show w - (k + 1) = w - 1 - k by omega]
    rw [List.range_succ_eq_map, List.map_cons, List.map_map, List.sum_cons, e]
    generalize (List.map (fun k => (f (k + 1)).toNat * 2 ^ (w - 1 - k)) (List.range w)).sum = rest at *
    simp only [Nat.add_sub_cancel, Nat.sub_zero]
    constructor
    · rw [pow_succ]
      cases f 0 <;> simp <;> omega
    · intro k hk
      cases k with
      | zero =>
        cases f 0
        · simp [Nat.testBit_lt_two_pow h1]
        · simp only [Bool.toNat_true, one_mul, Nat.sub_zero]
          rw [Nat.testBit_two_pow_add_eq, Nat.testBit_lt_two_pow h1]
          rfl
      | succ k =>
        have hk2 := h2 k (by omega)
        rw [show w - (k + 1) = w - 1 - k by omega]
        cases f 0
        · simpa using hk2
        · simp only [Bool.toNat_true, one_mul]
          rwa [Nat.testBit_two_pow_add_gt (by omega)]

theorem streamField_lt (d : List Byte) (off w : Nat) : streamField d off w < 2 ^ w :=
  (sum_bits (fun k => streamBit d (off + k)) w).1

/-- The first stream bit of a field is its most significant bit (R9, R120). -/
theorem streamField_testBit (d : List Byte) (off w k : Nat) (h : k < w) :
    (streamField d off w).testBit (w - 1 - k) = streamBit d (off + k) :=
  (sum_bits (fun k => streamBit d (off + k)) w).2 k h

/-! ## Bits of a buffer -/

/-- Writing one stream bit changes that bit and no other (R122). -/
theorem bufferBit_setStreamBit (m : Memory) (i j : Nat) (b : Bool) :
    bufferBit (setStreamBit m i b) j = if j = i then b else bufferBit m j := by
  simp only [bufferBit, setStreamBit, Memory.byte_write]
  by_cases hq : j / 8 = i / 8
  · rw [if_pos hq]
    by_cases h : j = i
    · subst h
      rw [if_pos rfl]
      have : 7 - j % 8 < 8 := by omega
      cases b <;> simp [this]
    · have hm : j % 8 ≠ i % 8 := by omega
      rw [if_neg h, hq]
      have h1 : 7 - j % 8 < 8 := by omega
      have h2 : 7 - j % 8 ≠ 7 - i % 8 := by omega
      by_cases hlt : 7 - j % 8 < 7 - i % 8
      · simp [h1, hlt]
      · have h3 : 7 - j % 8 - (7 - i % 8) ≠ 0 := by omega
        cases b <;> simp [h1, hlt, h3]
  · rw [if_neg hq, if_neg (by rintro rfl; exact hq rfl)]

/-- A byte none of whose bits is written stays as it is. -/
theorem byte_setStreamBit_of_ne (m : Memory) (i k : Nat) (b : Bool) (h : k ≠ i / 8) :
    (setStreamBit m i b).byte k = m.byte k := by
  rw [setStreamBit, Memory.byte_write, if_neg h]

/-- What a field write does to every stream bit of a buffer (R122). -/
theorem bufferBit_insertField (m : Memory) (off w : Nat) (v : Word) (j : Nat) :
    bufferBit (insertField m off w v) j =
      if off ≤ j ∧ j < off + w then v.getLsbD (w - 1 - (j - off)) else bufferBit m j := by
  have key : ∀ n, bufferBit ((List.range n).foldl
      (fun m k => setStreamBit m (off + k) (v.getLsbD (w - 1 - k))) m) j =
      if off ≤ j ∧ j < off + n then v.getLsbD (w - 1 - (j - off)) else bufferBit m j := by
    intro n
    induction n with
    | zero => rw [if_neg (by omega)]; rfl
    | succ n ih =>
      rw [List.range_succ, List.foldl_append]
      simp only [List.foldl_cons, List.foldl_nil, bufferBit_setStreamBit, ih]
      by_cases h : j = off + n
      · rw [if_pos h, if_pos (by omega), show j - off = n by omega]
      · rw [if_neg h]
        by_cases h2 : off ≤ j ∧ j < off + n
        · rw [if_pos h2, if_pos (by omega)]
        · rw [if_neg h2, if_neg (by omega)]
  exact key w

/-- Two buffers with the same bits have the same bytes. -/
theorem byte_eq_of_bufferBit_eq {m m' : Memory} (h : ∀ j, bufferBit m j = bufferBit m' j) (i : Nat) :
    m.byte i = m'.byte i := by
  apply BitVec.eq_of_getLsbD_eq
  intro k hk
  have := h (8 * i + (7 - k))
  simp only [bufferBit] at this
  rw [show (8 * i + (7 - k)) / 8 = i by omega, show 7 - (8 * i + (7 - k)) % 8 = k by omega] at this
  exact this

/-- A stream bit of a string read from a buffer is that bit of the buffer (R120). -/
theorem streamBit_bytes (m : Memory) (n j : Nat) (h : j < 8 * n) : streamBit (m.bytes n) j = bufferBit m j := by
  rw [streamBit, Memory.bytes_getD _ _ _ (by omega), bufferBit]

/-! ## The canonical form -/

theorem setStreamBit_wf {m : Memory} {i : Nat} (b : Bool) (h : m.wf) (hi : i / 8 < Config.bufSize) :
    (setStreamBit m i b).wf :=
  Memory.wf_write _ h hi

/-- A field that ends inside the buffer is written in canonical form. -/
theorem insertField_wf {m : Memory} {off w : Nat} (v : Word) (h : m.wf) (hw : off + w ≤ 8 * Config.bufSize) :
    (insertField m off w v).wf := by
  have key : ∀ n ≤ w, ((List.range n).foldl
      (fun m k => setStreamBit m (off + k) (v.getLsbD (w - 1 - k))) m).wf := by
    intro n
    induction n with
    | zero => intro _; exact h
    | succ n ih =>
      intro hn
      rw [List.range_succ, List.foldl_append]
      exact setStreamBit_wf _ (ih (by omega)) (by omega)
  exact key w le_rfl

end Sys2Proof.Machine
end

