-- ==== Sys2Proof/Laws/Randomizer.lean ====
section
/-! SUPPORT. The laws of the pseudo-random sequence: runs, steps and single bits. -/

namespace Sys2Proof.Machine

theorem lfsrSteps_add (m n : Nat) (r : BitVec 8) : lfsrSteps (m + n) r = lfsrSteps n (lfsrSteps m r) := by
  induction m generalizing r with
  | zero => simp [lfsrSteps]
  | succ m ih =>
    rw [Nat.succ_add]
    simp only [lfsrSteps, ih]

@[simp] theorem pnFrom_length (r : BitVec 8) (n : Nat) : (pnFrom r n).length = n := by
  induction n generalizing r <;> simp [pnFrom, *]

@[simp] theorem pnRun_length (n : Nat) : (pnRun n).length = n := pnFrom_length _ n

/-- The output at clock `k` is the state after `8 k` bits (R160). -/
theorem pnFrom_getD (r : BitVec 8) (n k : Nat) (h : k < n) : (pnFrom r n).getD k 0 = lfsrSteps (8 * k) r := by
  induction n generalizing r k with
  | zero => omega
  | succ n ih =>
    cases k with
    | zero => simp [pnFrom, lfsrSteps]
    | succ k =>
      simp only [pnFrom, List.getD_cons_succ]
      rw [ih _ _ (by omega), lfsrClock, ← lfsrSteps_add, show 8 + 8 * k = 8 * (k + 1) by omega]

@[simp] theorem xorBytes_length (xs ys : List Byte) : (xorBytes xs ys).length = min xs.length ys.length := by
  simp [xorBytes]

/-- Exclusive-or with one string twice restores a string no longer than it (R164). -/
theorem xorBytes_cancel (xs ys : List Byte) (h : xs.length ≤ ys.length) : xorBytes (xorBytes xs ys) ys = xs := by
  apply List.ext_getElem
  · simp
    omega
  · intro i h1 h2
    simp [xorBytes]

/-- One step moves every bit up and puts the recurrence's bit at the bottom (R160). -/
theorem lfsrStep1_getLsbD (r : BitVec 8) (i : Nat) (h : i < 7) :
    (lfsrStep1 r).getLsbD (i + 1) = r.getLsbD i := by
  simp [lfsrStep1]
  omega

theorem lfsrStep1_bit0 (r : BitVec 8) :
    (lfsrStep1 r).getLsbD 0 = (r.getLsbD 7 ^^ r.getLsbD 4 ^^ r.getLsbD 2 ^^ r.getLsbD 0) := by
  simp [lfsrStep1]

/-- A bit moves up one place at every step until it leaves the register (R160). -/
theorem lfsrSteps_getLsbD (r : BitVec 8) (j i : Nat) (h : i + j < 8) :
    (lfsrSteps j r).getLsbD (i + j) = r.getLsbD i := by
  induction j generalizing i r with
  | zero => simp [lfsrSteps]
  | succ j ih =>
    rw [lfsrSteps, show i + (j + 1) = i + 1 + j by omega, ih _ _ (by omega), lfsrStep1_getLsbD _ _ (by omega)]

end Sys2Proof.Machine
end

