-- ==== Sys2Proof/Laws/Bch.lean ====
section
/-! SUPPORT. Binary polynomials: the remainder and the block polynomial are linear, and the remainder is one (R200,
R201). -/

namespace Sys2Proof.Machine

/-! ## The remainder -/

/-- The remainder is linear (R12). -/
theorem polyMod_xor (g deg n p q : Nat) : polyMod g deg n (p ^^^ q) = polyMod g deg n p ^^^ polyMod g deg n q := by
  induction n generalizing p q with
  | zero => rfl
  | succ n ih =>
    have e : ∀ a b c : Nat, a ^^^ b ^^^ c = a ^^^ c ^^^ b := fun a b c => by
      rw [Nat.xor_assoc, Nat.xor_comm b, ← Nat.xor_assoc]
    simp only [polyMod, Nat.testBit_xor]
    cases hp : p.testBit (deg + n) <;> cases hq : q.testBit (deg + n) <;> simp only [Bool.xor_false, Bool.xor_true,
      Bool.not_false, Bool.not_true, Bool.false_eq_true, if_true, if_false, ← ih]
    · rw [Nat.xor_assoc]
    · rw [e]
    · congr 1
      rw [Nat.xor_comm q, ← Nat.xor_assoc, Nat.xor_assoc p, Nat.xor_self, Nat.xor_zero]

@[simp] theorem polyMod_zero (g deg n : Nat) : polyMod g deg n 0 = 0 := by
  induction n with
  | zero => rfl
  | succ n ih => simpa [polyMod] using ih

theorem xor_lt_of_top {p q n : Nat} (hp : p < 2 ^ (n + 1)) (hq : q < 2 ^ (n + 1)) (tp : p.testBit n = true)
    (tq : q.testBit n = true) : p ^^^ q < 2 ^ n := by
  apply Nat.lt_pow_two_of_testBit
  intro i hi
  rw [Nat.testBit_xor]
  rcases Nat.eq_or_lt_of_le hi with rfl | h
  · rw [tp, tq]
    rfl
  · rw [Nat.testBit_lt_two_pow (hp.trans_le (Nat.pow_le_pow_right (by decide) h)),
      Nat.testBit_lt_two_pow (hq.trans_le (Nat.pow_le_pow_right (by decide) h))]
    rfl

theorem lt_of_top_zero {p n : Nat} (hp : p < 2 ^ (n + 1)) (tp : p.testBit n = false) : p < 2 ^ n := by
  apply Nat.lt_pow_two_of_testBit
  intro i hi
  rcases Nat.eq_or_lt_of_le hi with rfl | h
  · exact tp
  · exact Nat.testBit_lt_two_pow (hp.trans_le (Nat.pow_le_pow_right (by decide) h))

/-- The remainder has a lower degree than the generator. -/
theorem polyMod_lt {g deg n p : Nat} (hg : g < 2 ^ (deg + 1)) (tg : g.testBit deg = true) (hp : p < 2 ^ (deg + n)) :
    polyMod g deg n p < 2 ^ deg := by
  induction n generalizing p with
  | zero => exact hp
  | succ n ih =>
    rw [polyMod]
    split
    next h =>
      apply ih
      refine xor_lt_of_top (n := deg + n) hp ?_ h ?_
      · rw [Nat.shiftLeft_eq, show deg + n + 1 = deg + 1 + n by omega, Nat.pow_add]
        exact Nat.mul_lt_mul_of_pos_right hg (by positivity)
      · simpa [Nat.testBit_shiftLeft] using tg
    next h => exact ih (lt_of_top_zero (n := deg + n) hp (by simpa using h))

/-! ## Products -/

@[simp] theorem carryless_succ (n a b : Nat) :
    carryless (n + 1) a b = if a.testBit n then carryless n a b ^^^ (b <<< n) else carryless n a b := by
  simp [carryless, List.range_succ]

@[simp] theorem carryless_zero_steps (a b : Nat) : carryless 0 a b = 0 := rfl

/-- A product is linear in its first factor. -/
theorem carryless_xor (n a a' b : Nat) : carryless n (a ^^^ a') b = carryless n a b ^^^ carryless n a' b := by
  induction n with
  | zero => simp
  | succ n ih =>
    have e : ∀ a b c : Nat, a ^^^ b ^^^ c = a ^^^ c ^^^ b := fun a b c => by
      rw [Nat.xor_assoc, Nat.xor_comm b, ← Nat.xor_assoc]
    simp only [carryless_succ, Nat.testBit_xor, ih]
    cases a.testBit n <;> cases a'.testBit n <;> simp only [Bool.xor_false, Bool.xor_true, Bool.not_false,
      Bool.not_true, Bool.false_eq_true, if_true, if_false]
    · rw [Nat.xor_assoc]
    · rw [e]
    · generalize b <<< n = c
      rw [Nat.xor_comm (carryless n a' b) c, ← Nat.xor_assoc, Nat.xor_assoc _ c c, Nat.xor_self, Nat.xor_zero]

/-- The product of one power of `x`. -/
theorem carryless_two_pow (n k b : Nat) : carryless n (2 ^ k) b = if k < n then b <<< k else 0 := by
  induction n with
  | zero => rfl
  | succ n ih =>
    rw [carryless_succ, ih, Nat.testBit_two_pow]
    by_cases h : k = n
    · subst h
      simp
    · by_cases h' : k < n
      · simp [h, h', Nat.lt_succ_of_lt h']
      · simp [h, h', show ¬ k < n + 1 by omega]

/-- The remainder differs from its dividend by a multiple of the generator. -/
theorem polyMod_multiple (g deg n N p : Nat) (h : n ≤ N) : ∃ q, carryless N q g = p ^^^ polyMod g deg n p := by
  induction n generalizing p with
  | zero => exact ⟨0, by simpa [polyMod] using carryless_xor N 0 0 g⟩
  | succ n ih =>
    rw [polyMod]
    split
    · obtain ⟨q, hq⟩ := ih (p ^^^ (g <<< n)) (by omega)
      refine ⟨q ^^^ 2 ^ n, ?_⟩
      rw [carryless_xor, hq, carryless_two_pow, if_pos (by omega)]
      generalize polyMod g deg n (p ^^^ (g <<< n)) = r
      generalize g <<< n = c
      rw [Nat.xor_comm p c, Nat.xor_assoc c, Nat.xor_comm c, Nat.xor_assoc, Nat.xor_self, Nat.xor_zero]
    · exact ih p (by omega)

/-! ## The block -/

theorem xor_mul_256_add (a b : Nat) (x y : Byte) :
    (a * 256 + x.toNat) ^^^ (b * 256 + y.toNat) = (a ^^^ b) * 256 + (x ^^^ y).toNat := by
  apply Nat.eq_of_testBit_eq
  intro i
  have key : ∀ (c : Nat) (z : Byte), (c * 256 + z.toNat).testBit i = if i < 8 then z.toNat.testBit i else c.testBit (i - 8) := by
    intro c z
    rw [Nat.mul_comm]
    exact Nat.testBit_two_pow_mul_add c z.isLt i
  rw [Nat.testBit_xor, key, key, key]
  split
  · simp
  · rw [Nat.testBit_xor]

/-- The block polynomial is linear (R200). -/
theorem blockPoly_xorBytes (a b : List Byte) (h : a.length = b.length) :
    blockPoly (xorBytes a b) = blockPoly a ^^^ blockPoly b := by
  have key : ∀ (a b : List Byte), a.length = b.length → ∀ m n : Nat,
      (xorBytes a b).foldl (fun acc x => acc * 256 + x.toNat) (m ^^^ n) =
        a.foldl (fun acc x => acc * 256 + x.toNat) m ^^^ b.foldl (fun acc x => acc * 256 + x.toNat) n := by
    intro a
    induction a with
    | nil =>
      intro b hb m n
      cases b with
      | nil => rfl
      | cons => simp at hb
    | cons x a ih =>
      intro b hb m n
      cases b with
      | nil => simp at hb
      | cons y b =>
        have hab : a.length = b.length := by simpa using hb
        have := ih b hab (m * 256 + x.toNat) (n * 256 + y.toNat)
        rw [xor_mul_256_add] at this
        simpa [xorBytes] using this
  exact key a b h 0 0

/-- The block polynomial of `n` bytes has degree below `8 n`, and its coefficients are the stream bits, the first the
highest (R200). -/
theorem blockPoly_bits (b : List Byte) :
    blockPoly b < 2 ^ (8 * b.length) ∧
    ∀ i, i < 8 * b.length → (blockPoly b).testBit (8 * b.length - 1 - i) = streamBit b i := by
  induction b using List.reverseRecOn with
  | nil => simp [blockPoly]
  | append_singleton b x ih =>
    obtain ⟨hlt, hbits⟩ := ih
    have e : blockPoly (b ++ [x]) = 2 ^ 8 * blockPoly b + x.toNat := by
      simp [blockPoly, Nat.mul_comm]
    have hx := x.isLt
    rw [e]
    refine ⟨?_, fun i hi => ?_⟩
    · rw [List.length_append, List.length_singleton, show 8 * (b.length + 1) = 8 + 8 * b.length by omega, Nat.pow_add]
      nlinarith
    · simp only [List.length_append, List.length_singleton] at *
      rw [Nat.testBit_two_pow_mul_add _ hx]
      unfold streamBit at *
      by_cases h : i < 8 * b.length
      · rw [if_neg (by omega), List.getD_append _ _ _ _ (by omega), ← hbits i h]
        congr 1
        omega
      · rw [if_pos (by omega), List.getD_append_right _ _ _ _ (by omega), show i / 8 - b.length = 0 by omega]
        simp only [List.getD_cons_zero, BitVec.getLsbD]
        congr 1
        omega

end Sys2Proof.Machine
end

