-- ==== Sys2Proof/Laws/Bus.lean ====
section
/-! SUPPORT. What a bus access does (20_memory.md): one lemma per kind of location, so that no later proof unfolds
`busAccess`. -/

namespace Sys2Proof.Machine

/-- The block's offsets of registers decode back to them (R20). -/
@[simp] theorem regAt_offset (r : Reg) : regAt r.offset = some r := by cases r <;> rfl

theorem Reg.offset_lt (r : Reg) : r.offset < 0x1000 := by cases r <;> decide

theorem Reg.offset_aligned (r : Reg) : r.offset % 4 = 0 := by cases r <;> rfl

/-- Every offset of the register region from 0x02C on is reserved (R34). -/
theorem regAt_reserved (off : Nat) (h : 0x02C ≤ off) : regAt off = none := by
  obtain ⟨m, rfl⟩ := Nat.exists_eq_add_of_le' h
  rfl

/-- An aligned 32-bit access of the register region is legal (R52). -/
theorem legal_register (k : AccessKind) (off : Nat) (v : Word) (h : off < 0x1000) (ha : off % 4 = 0) :
    Access.legal { kind := k, offset := off, width := 4, data := v } = true := by
  simp [Access.legal, h, ha]

/-- A byte access of a buffer is legal (R52). -/
theorem legal_byte (k : AccessKind) (off : Nat) (v : Word) (h : 0x1000 ≤ off) :
    Access.legal { kind := k, offset := off, width := 1, data := v } = true := by
  simp [Access.legal, Nat.not_lt.2 h]

/-- An aligned 32-bit access of a buffer is legal (R52). -/
theorem legal_word (k : AccessKind) (off : Nat) (v : Word) (h : 0x1000 ≤ off) (ha : off % 4 = 0) :
    Access.legal { kind := k, offset := off, width := 4, data := v } = true := by
  simp [Access.legal, Nat.not_lt.2 h, ha]

/-- A legal read returns what `busRead` gives. -/
theorem busAccess_read {a : Access} (s : State) (hl : a.legal = true) (hk : a.kind = .read) :
    busAccess a s = (.data (busRead a s).1, (busRead a s).2) := by
  simp [busAccess, hl, hk]

/-- A legal write does what `busWrite` does. -/
theorem busAccess_write {a : Access} (s : State) (hl : a.legal = true) (hk : a.kind = .write) :
    busAccess a s = (.written, busWrite a s) := by
  simp [busAccess, hl, hk]

/-- An illegal access changes no state (R54). -/
theorem busAccess_illegal {a : Access} (s : State) (hl : a.legal = false) : busAccess a s = (.busError, s) := by
  simp [busAccess, hl]

/-- A read of an exact location, or of an idle block, returns the stored value and changes nothing (R60, R101). -/
theorem busRead_exact (a : Access) {s : State} (h : (s.status.busy && resultLocation a.offset) = false) :
    busRead a s = (storedValue a s, s) := by
  simp [busRead, h]

/-- A busy read of a result location draws one free value and changes nothing else (R101). -/
theorem busRead_unspecified (a : Access) {s : State} (hb : s.status.busy = true)
    (h : resultLocation a.offset = true) :
    busRead a s = (unspecifiedRead a s.draws, { s with draws := s.draws + 1 }) := by
  simp [busRead, hb, h]

/-- The reserved bits of ILEN and OLEN read 0 while the block is busy too (R20). -/
theorem unspecifiedRead_length_lt (k : AccessKind) (v : Word) (n : Nat) {r : Reg} (h : r = .ilen ∨ r = .olen) :
    (unspecifiedRead { kind := k, offset := r.offset, width := 4, data := v } n).toNat < 2 ^ 16 := by
  have hf := ((Config.freeRead n).setWidth 16).isLt
  rcases h with rfl | rfl <;> exact (BitVec.toNat_setWidth ..).trans_lt ((Nat.mod_le _ _).trans_lt hf)

/-- Any read changes at most the count of draws (R60). -/
theorem busRead_state (a : Access) (s : State) : ∃ n, (busRead a s).2 = { s with draws := n } := by
  unfold busRead
  split
  · exact ⟨_, rfl⟩
  · exact ⟨s.draws, rfl⟩

/-- A write to a busy block is ignored (R101). -/
theorem busWrite_busy (a : Access) {s : State} (h : s.status.busy = true) : busWrite a s = s := by
  simp [busWrite, h]

/-- A register read (R20). -/
theorem storedValue_register (r : Reg) (k : AccessKind) (w : Nat) (v : Word) (s : State) :
    storedValue { kind := k, offset := r.offset, width := w, data := v } s = readReg r s := by
  simp [storedValue, r.offset_lt]

/-- A register write to an idle block (R20). -/
theorem busWrite_register (r : Reg) (k : AccessKind) (w : Nat) (v : Word) {s : State} (h : s.status.busy = false) :
    busWrite { kind := k, offset := r.offset, width := w, data := v } s = writeReg r v s := by
  simp [busWrite, h, r.offset_lt]

/-- A read of IBUF (R55). -/
theorem storedValue_ibuf (a : Access) (s : State) (h : 0x1000 ≤ a.offset) (h' : a.offset < 0x2000) :
    storedValue a s = bufferRead s.ibuf (a.offset - 0x1000) a.width := by
  simp [storedValue, Nat.not_lt.2 h, h']

/-- A read of OBUF (R55). -/
theorem storedValue_obuf (a : Access) (s : State) (h : 0x2000 ≤ a.offset) :
    storedValue a s = bufferRead s.obuf (a.offset - 0x2000) a.width := by
  have : ¬ a.offset < 0x1000 := by omega
  simp [storedValue, Nat.not_lt.2 h, this]

/-- A write to IBUF of an idle block (R35, R55). -/
theorem busWrite_ibuf (a : Access) {s : State} (hb : s.status.busy = false) (h : 0x1000 ≤ a.offset)
    (h' : a.offset < 0x2000) :
    busWrite a s = { s with ibuf := bufferWrite s.ibuf (a.offset - 0x1000) a.width a.data } := by
  simp [busWrite, hb, Nat.not_lt.2 h, h']

/-- A write to OBUF is ignored (R36). -/
theorem busWrite_obuf (a : Access) (s : State) (h : 0x2000 ≤ a.offset) : busWrite a s = s := by
  have : ¬ a.offset < 0x1000 := by omega
  simp [busWrite, Nat.not_lt.2 h, this]

/-! ## Bytes and words of a buffer -/

/-- The lanes of a big-endian word (R56). -/
theorem wordOfBytes_toNat (b0 b1 b2 b3 : Byte) :
    (wordOfBytes b0 b1 b2 b3).toNat =
      b0.toNat * 2 ^ 24 + b1.toNat * 2 ^ 16 + b2.toNat * 2 ^ 8 + b3.toNat := by
  have h0 := b0.isLt
  have h1 := b1.isLt
  have h2 := b2.isLt
  have h3 := b3.isLt
  rw [wordOfBytes, BitVec.toNat_append, BitVec.toNat_append, BitVec.toNat_append, Nat.shiftLeft_eq, Nat.shiftLeft_eq,
    Nat.shiftLeft_eq, ← Nat.shiftLeft_eq, ← Nat.shiftLeft_add_eq_or_of_lt (by simpa using h3),
    ← Nat.shiftLeft_eq _ 8, ← Nat.shiftLeft_add_eq_or_of_lt (by simpa using h2),
    ← Nat.shiftLeft_eq _ 8, ← Nat.shiftLeft_add_eq_or_of_lt (by simpa using h1)]
  simp only [Nat.shiftLeft_eq]
  omega

/-- Lane `j` of a big-endian word (R56). -/
theorem byteOfWord_toNat (w : Word) (j : Nat) : (byteOfWord w j).toNat = w.toNat / 2 ^ (24 - 8 * j) % 256 := by
  simp [byteOfWord, BitVec.extractLsb'_toNat, Nat.shiftRight_eq_div_pow]

/-- The bytes a 32-bit store leaves (R56). -/
theorem byte_writeWord (m : Memory) (i k : Nat) (w : Word) :
    (m.writeWord i w).byte k = if i ≤ k ∧ k < i + 4 then byteOfWord w (k - i) else m.byte k := by
  rw [Memory.writeWord, Memory.byte_writeBytes]
  simp only [List.length_cons, List.length_nil, Nat.zero_add, Nat.reduceAdd]
  split
  next h =>
    obtain ⟨j, rfl⟩ := Nat.exists_eq_add_of_le h.1
    have hj : j < 4 := by omega
    rw [Nat.add_sub_cancel_left]
    interval_cases j <;> rfl
  · rfl

/-! ## The host's turn -/

/-- A read of the block leaves the host's record alone (R60). -/
theorem busRead_reads (a : Access) (s : State) : (busRead a s).2.reads = s.reads := by
  obtain ⟨n, hn⟩ := busRead_state a s
  rw [hn]

/-- The host performs a legal read: it goes on with the block's next state and records the data (R52, R77). -/
theorem performAccess_read {a : Access} (s : State) (ha : a.addressed = true) (hl : a.legal = true)
    (hk : a.kind = .read) : performAccess a s = .next (record (busRead a s).1 (busRead a s).2) := by
  rw [performAccess, if_pos ha, busAccess_read s hl hk]

/-- The host performs a legal write: it goes on with the block's next state (R52). -/
theorem performAccess_write {a : Access} (s : State) (ha : a.addressed = true) (hl : a.legal = true)
    (hk : a.kind = .write) : performAccess a s = .next (busWrite a s) := by
  rw [performAccess, if_pos ha, busAccess_write s hl hk]

/-- The host's turn where an access comes first (R61). -/
theorem hostTurn_access {s : State} {a : Access} {rest : List HostEvent} (h : s.host = .access a :: rest) :
    hostTurn s = performAccess a { s with host := rest } := by
  simp only [hostTurn, nextEvent, h, List.tail_cons]

/-- The turn of an undisturbed host of a busy block leaves the command in flight, STATUS and CMD alone (R101). -/
theorem hostTurn_busy {s : State} (hb : s.status.busy = true) (hh : ∀ e ∈ s.host, e.undisturbed = true) :
    ∃ t, hostTurn s = .next t ∧ t.inFlight = s.inFlight ∧ t.status = s.status ∧ t.cmd = s.cmd ∧
      ∀ e ∈ t.host, e.undisturbed = true := by
  unfold hostTurn
  split
  · exact ⟨s, rfl, rfl, rfl, rfl, hh⟩
  next a rest h =>
    have htl : ∀ e ∈ s.host.tail, e.undisturbed = true := fun e he => hh e (List.mem_of_mem_tail he)
    have ha := hh (.access a) (by simp [h])
    simp only [HostEvent.undisturbed, Access.wellFormed, Bool.and_eq_true] at ha
    rcases hk : a.kind with _ | _
    · rw [performAccess_read _ ha.1 ha.2 hk]
      obtain ⟨n, hn⟩ := busRead_state a (nextEvent s)
      refine ⟨_, rfl, ?_⟩
      rw [hn]
      exact ⟨rfl, rfl, rfl, htl⟩
    · rw [performAccess_write _ ha.1 ha.2 hk, busWrite_busy _ (by exact hb)]
      exact ⟨_, rfl, rfl, rfl, rfl, htl⟩
  · refine ⟨_, rfl, ?_⟩
    unfold pollStatus
    rw [word_bit0, hb]
    exact ⟨rfl, rfl, rfl, hh⟩
  next rest h =>
    have := hh .reset (by simp [h])
    cases this

end Sys2Proof.Machine
end

