-- ==== Sys2Proof/Laws/Results.lean ====
section
/-! SUPPORT. For every command that writes OBUF: its result fits OBUF, and its errors are kinds the block raises. -/

namespace Sys2Proof.Machine

/-- A result that fits OBUF, or an error of a kind the block raises (R28, R230). -/
def ResultFits (r : Except ErrorKind (List Byte)) : Prop :=
  match r with
  | .ok out => out.length ≤ Config.bufSize
  | .error k => k ≠ .builderState

theorem resultFits_onInput {inp : Inputs} {rule : List Byte → Except ErrorKind (List Byte)}
    (h : inp.ilen.toNat ≤ Config.bufSize → ResultFits (rule inp.string)) : ResultFits (onInput inp rule) := by
  unfold onInput
  split
  · simp [ResultFits]
  · exact h (by omega)

theorem asmAttach_fits (inp : Inputs) : ResultFits (asmAttach inp) := by
  refine resultFits_onInput fun hl => ?_
  split
  · simp [ResultFits]
  · split
    · simp [ResultFits]
    · simp only [ResultFits, List.length_append, asmMarker_length, Inputs.string_length] at *
      omega

theorem asmDetach_fits (inp : Inputs) : ResultFits (asmDetach inp) := by
  refine resultFits_onInput fun hl => ?_
  split
  · simp [ResultFits]
  · split
    · simp [ResultFits]
    · split
      · simp [ResultFits]
      · simp only [ResultFits, List.length_drop, Inputs.string_length]
        omega

theorem rand_fits (inp : Inputs) : ResultFits (rand inp) := by
  refine resultFits_onInput fun hl => ?_
  dsimp only
  split
  · simp [ResultFits]
  · simp only [ResultFits, List.length_append, xorBytes_length, List.length_take, List.length_drop, pnRun_length,
      Inputs.string_length] at *
    omega

@[simp] theorem rsShiftIn_length (rem : List Byte) (d : Byte) (h : rem.length = 32) :
    (rsShiftIn rem d).length = 32 := by
  simp [rsShiftIn, rsGenerator, h]

theorem foldl_rsShiftIn_length (ds rem : List Byte) (h : rem.length = 32) :
    (ds.foldl rsShiftIn rem).length = 32 := by
  induction ds generalizing rem with
  | nil => exact h
  | cons d ds ih => exact ih _ (rsShiftIn_length rem d h)

@[simp] theorem rsParity_length (d : List Byte) : (rsParity d).length = 32 :=
  foldl_rsShiftIn_length d _ (by simp)

theorem rsEncode_fits (inp : Inputs) : ResultFits (rsEncode inp) := by
  refine resultFits_onInput fun hl => ?_
  split
  · simp [ResultFits]
  · simp only [ResultFits, List.length_append, rsParity_length, Inputs.string_length, Config.bufSize] at *
    omega

@[simp] theorem rsCorrect_length (r : List Byte) : (rsCorrect r).length = 255 := by
  simp [rsCorrect]

theorem rsDecode_fits (inp : Inputs) : ResultFits (rsDecode inp) := by
  refine resultFits_onInput fun hl => ?_
  split
  · simp [ResultFits]
  · unfold rsDecodeBlock
    dsimp only
    split
    · simp [ResultFits, Config.bufSize]
    · simp [ResultFits]

theorem bchEncode_fits (v : Config.BchVariant) (inp : Inputs) : ResultFits (bchEncode v inp) := by
  refine resultFits_onInput fun hl => ?_
  split
  · simp [ResultFits]
  · simp only [ResultFits, List.length_append, List.length_singleton, Inputs.string_length, Config.bufSize] at *
    omega

theorem bchDecode_fits (v : Config.BchVariant) (inp : Inputs) : ResultFits (bchDecode v inp) := by
  refine resultFits_onInput fun hl => ?_
  split
  · simp [ResultFits]
  · unfold checkCodeword
    split
    · simp [ResultFits]
    · simp [ResultFits, Config.bufSize]

/-! ## CLTU -/

@[simp] theorem cltuBlock_length (d : List Byte) (b : Nat) : (cltuBlock d b).length = 7 := by
  simp [cltuBlock]

@[simp] theorem cltuMask_length (rnd : Bool) (blk : List Byte) (h : blk.length ≤ 7) :
    (cltuMask rnd blk).length = blk.length := by
  unfold cltuMask
  split <;> simp [h]

@[simp] theorem cltuCodeword_length (v : Config.BchVariant) (rnd : Bool) (blk : List Byte) (h : blk.length = 7) :
    (cltuCodeword v rnd blk).length = 8 := by
  simp [cltuCodeword, h]

/-- A run of pieces of one length. -/
theorem length_flatMap_const {f : Nat → List Byte} {k : Nat} (h : ∀ b, (f b).length = k) (n : Nat) :
    ((List.range n).flatMap f).length = k * n := by
  induction n with
  | zero => simp
  | succ n ih => simp [List.range_succ, List.flatMap_append, ih, h, Nat.mul_succ]

/-- `len(out) = 10 + 8 nb` (R206). -/
theorem cltuFrame_length (v : Config.BchVariant) (rnd : Bool) (d : List Byte) :
    (cltuFrame v rnd d).length = 10 + 8 * cltuBlocks d := by
  simp only [cltuFrame, List.length_append, startSequence, stopSequence, List.length_replicate,
    List.length_cons, List.length_nil]
  rw [length_flatMap_const (k := 8) fun b => cltuCodeword_length v rnd _ (cltuBlock_length d b)]
  omega

theorem cltuEncode_fits (v : Config.BchVariant) (inp : Inputs) : ResultFits (cltuEncode v inp) := by
  refine resultFits_onInput fun hl => ?_
  split
  · simp [ResultFits]
  · simp only [ResultFits, cltuFrame_length]
    omega

/-- Unwrapping `n` codewords gives at most `7 n` bytes, or a checksum error (R208). -/
theorem unwrapCodewords_fits (v : Config.BchVariant) (rnd : Bool) (n : Nat) (span : List Byte) :
    match unwrapCodewords v rnd n span with
    | .ok out => out.length ≤ 7 * n
    | .error k => k = .checksum := by
  induction n generalizing span with
  | zero => simp [unwrapCodewords]
  | succ n ih =>
    unfold unwrapCodewords checkCodeword
    by_cases hc : (span.take 8).getD 7 0 ≠ bchCheck v ((span.take 8).take 7)
    · rw [if_pos hc]
    · rw [if_neg hc]
      dsimp only
      have := ih (span.drop 8)
      cases hr : unwrapCodewords v rnd n (span.drop 8) with
      | error k => simpa [hr] using this
      | ok rest =>
        simp only [hr] at this
        have h7 : ((span.take 8).take 7).length ≤ 7 := by simp
        simp only [List.length_append, cltuMask_length rnd _ h7]
        omega

theorem stripFiller_length (out : List Byte) : (stripFiller out).length ≤ out.length := by
  simp only [stripFiller, List.length_reverse]
  exact (List.IsSuffix.length_le (List.dropWhile_suffix _)).trans (by simp)

theorem cltuDecode_fits (v : Config.BchVariant) (inp : Inputs) : ResultFits (cltuDecode v inp) := by
  refine resultFits_onInput fun hl => ?_
  unfold cltuUnframe
  split
  · simp [ResultFits]
  · split
    · simp [ResultFits]
    · rename_i i _ _ j _
      unfold unwrapSpan
      split
      · simp [ResultFits]
      · split
        · simp [ResultFits]
        · generalize hs : (inp.string.drop (i + 2)).take (j - (i + 2)) = span
          have hlen : span.length ≤ Config.bufSize := by
            rw [← hs]
            simp
            omega
          have := unwrapCodewords_fits v inp.cltuRand (span.length / 8) span
          cases hr : unwrapCodewords v inp.cltuRand (span.length / 8) span with
          | error k =>
            simp only [hr] at this
            simp [ResultFits, this]
          | ok out =>
            simp only [hr] at this
            have := stripFiller_length out
            simp only [ResultFits]
            omega

end Sys2Proof.Machine
end

