-- ==== Sys2Proof/Laws/Cltu.lean ====
section
/-! SUPPORT. What the parts of CLTU framing do, in the terms the statements use (R206, R208). -/

namespace Sys2Proof.Machine

/-- One byte of a masked block (R206). -/
theorem cltuMask_getD (rnd : Bool) (blk : List Byte) (j : Nat) (h : j < blk.length) (h7 : blk.length ≤ 7) :
    (cltuMask rnd blk).getD j 0 = maskByte rnd (blk.getD j 0) j := by
  unfold cltuMask maskByte
  cases rnd
  · rfl
  · have hp : (pnRun 7).getD j 0 = pnByte j := pnFrom_getD _ _ _ (by omega)
    have h7' : j < (pnRun 7).length := by simp; omega
    have hx : j < (xorBytes blk (pnRun 7)).length := by simp; omega
    simp only [if_true]
    rw [← hp, List.getD_eq_getElem _ _ hx, List.getD_eq_getElem _ _ h, List.getD_eq_getElem _ _ h7']
    simp [xorBytes]

/-- Masking twice restores a block (R210). -/
theorem cltuMask_cltuMask (rnd : Bool) (blk : List Byte) (h : blk.length ≤ 7) :
    cltuMask rnd (cltuMask rnd blk) = blk := by
  unfold cltuMask
  cases rnd
  · rfl
  · simp only [if_true]
    exact xorBytes_cancel _ _ (by simpa using h)

theorem checkCodeword_good {v : Config.BchVariant} {c : List Byte} (h : CodewordGood v c) :
    checkCodeword v c = .ok (c.take 7) := by
  rw [checkCodeword, if_neg (not_not.2 h)]

theorem checkCodeword_bad {v : Config.BchVariant} {c : List Byte} (h : ¬ CodewordGood v c) :
    checkCodeword v c = .error .checksum := by
  rw [checkCodeword, if_pos h]

/-- Codeword `q + 1` of a span is codeword `q` of the rest of it. -/
theorem codewordAt_succ (span : List Byte) (q : Nat) : codewordAt span (q + 1) = codewordAt (span.drop 8) q := by
  simp [codewordAt, List.drop_drop, Nat.mul_add, Nat.add_comm]

/-- One bad codeword anywhere in the span ends the unwrapping with a checksum error (R208). -/
theorem unwrapCodewords_bad {v : Config.BchVariant} (rnd : Bool) {n : Nat} {span : List Byte} {q : Nat} (hq : q < n)
    (hb : ¬ CodewordGood v (codewordAt span q)) : unwrapCodewords v rnd n span = .error .checksum := by
  induction n generalizing span q with
  | zero => omega
  | succ n ih =>
    unfold unwrapCodewords
    by_cases h0 : CodewordGood v (span.take 8)
    · rw [checkCodeword_good h0]
      cases q with
      | zero => exact absurd h0 (by simpa [codewordAt] using hb)
      | succ q =>
        rw [codewordAt_succ] at hb
        rw [ih (by omega) hb]
    · rw [checkCodeword_bad h0]

/-- A span whose codewords are all good unwraps to its masked data (R208). -/
theorem unwrapCodewords_good {v : Config.BchVariant} (rnd : Bool) {n : Nat} {span : List Byte}
    (hg : ∀ q, q < n → CodewordGood v (codewordAt span q)) :
    unwrapCodewords v rnd n span =
      .ok ((List.range n).flatMap fun q => cltuMask rnd ((codewordAt span q).take 7)) := by
  induction n generalizing span with
  | zero => rfl
  | succ n ih =>
    unfold unwrapCodewords
    rw [checkCodeword_good (by simpa [codewordAt] using hg 0 (by omega)),
      ih (fun q hq => by rw [← codewordAt_succ]; exact hg (q + 1) (by omega))]
    rw [List.range_succ_eq_map, List.flatMap_cons, List.flatMap_map]
    simp only [Nat.succ_eq_add_one, codewordAt_succ]
    simp only [codewordAt, Nat.mul_zero, List.drop_zero]

/-- Byte `k` of a run of pieces of 7 bytes. -/
theorem getD_flatMap_seven {f : Nat → List Byte} (h : ∀ b, (f b).length = 7) (n k : Nat) (hk : k < 7 * n) :
    ((List.range n).flatMap f).getD k 0 = (f (k / 7)).getD (k % 7) 0 := by
  induction n with
  | zero => omega
  | succ n ih =>
    have hl : ((List.range n).flatMap f).length = 7 * n := length_flatMap_const h n
    rw [List.range_succ, List.flatMap_append, List.flatMap_singleton]
    by_cases hlt : k < 7 * n
    · rw [List.getD_append _ _ _ _ (by omega)]
      exact ih hlt
    · rw [List.getD_append_right _ _ _ _ (by omega), hl, show k / 7 = n by omega, show k % 7 = k - 7 * n by omega]

/-- `spanData` as a run of masked blocks (R208). -/
theorem spanData_eq (rnd : Bool) (span : List Byte) (h : span.length % 8 = 0) :
    spanData rnd span =
      (List.range (span.length / 8)).flatMap fun q => cltuMask rnd ((codewordAt span q).take 7) := by
  have hcw : ∀ q, q < span.length / 8 → ((codewordAt span q).take 7).length = 7 := by
    intro q hq
    simp [codewordAt]
    omega
  have key : ∀ n, n ≤ span.length / 8 → ((List.range (n * 7)).map fun k =>
      maskByte rnd ((codewordAt span (k / 7)).getD (k % 7) 0) (k % 7)) =
      (List.range n).flatMap fun q => cltuMask rnd ((codewordAt span q).take 7) := by
    intro n
    induction n with
    | zero => intro _; rfl
    | succ n ih =>
      intro hn
      rw [Nat.succ_mul, List.range_add, List.map_append, ih (by omega), List.range_succ (n := n),
        List.flatMap_append, List.flatMap_singleton, List.map_map]
      congr 1
      have h7 := hcw n (by omega)
      apply List.ext_getElem
      · rw [cltuMask_length rnd _ (Nat.le_of_eq h7), h7]
        simp
      · intro i h1 h2
        have hi : i < 7 := by simpa using h1
        rw [← List.getD_eq_getElem _ 0 h2, cltuMask_getD rnd _ _ (by omega) (by omega)]
        simp only [List.getElem_map, List.getElem_range, Function.comp]
        rw [show (n * 7 + i) / 7 = n by omega, show (n * 7 + i) % 7 = i by omega]
        congr 1
        simp [List.getD_eq_getElem?_getD, hi]
  exact key _ (Nat.le_refl _)

/-- A mark that stands in a string stands inside it. -/
theorem StandsAt.lt {mark d : List Byte} {i : Nat} (h : StandsAt mark d i) (hm : mark ≠ []) : i < d.length := by
  by_contra hc
  rw [StandsAt, List.drop_eq_nil_of_le (by omega)] at h
  simp at h
  exact hm h

/-- The least start sequence is found (R208). -/
theorem findStart_eq_some {d : List Byte} {i : Nat} (h : FirstStart d i) : findStart d = some i := by
  rw [findStart, List.find?_range_eq_some]
  refine ⟨by simpa [startSequence, StandsAt] using h.1, List.mem_range.2 (h.1.lt (by simp)), fun j hj => ?_⟩
  simpa [startSequence, StandsAt] using h.2 j hj

theorem findStart_eq_none {d : List Byte} (h : ∀ i, ¬ StandsAt [0xEB, 0x90] d i) : findStart d = none := by
  simp only [findStart, List.find?_eq_none, List.mem_range]
  intro i _
  simpa [startSequence, StandsAt] using h i

/-- The greatest stop sequence is found (R208). -/
theorem findStop_eq_some {d : List Byte} {i j : Nat} (h : LastStop d i j) : findStop d (i + 2) = some j := by
  have hj := h.2.1.lt (by decide)
  obtain ⟨m, hm⟩ := Nat.exists_eq_add_of_le (Nat.succ_le_of_lt hj)
  rw [findStop, hm, List.range_add, List.reverse_append, List.find?_append,
    List.find?_eq_none.2, List.range_succ, List.reverse_append]
  · simp only [Option.none_or, List.reverse_singleton, List.singleton_append, List.find?_cons]
    have : (decide (i + 2 ≤ j) && (d.drop j).take 8 == stopSequence) = true := by
      simp only [Bool.and_eq_true, decide_eq_true_eq, beq_iff_eq]
      exact ⟨h.1, h.2.1⟩
    rw [this]
  · intro k hk
    simp only [List.mem_reverse, List.mem_map, List.mem_range] at hk
    obtain ⟨k, -, rfl⟩ := hk
    have := h.2.2 (j.succ + k) (by omega)
    simp only [Bool.and_eq_true, decide_eq_true_eq, beq_iff_eq, not_and]
    intro _ h'
    exact this h'

theorem findStop_eq_none {d : List Byte} {i : Nat}
    (h : ∀ j, i + 2 ≤ j → ¬ StandsAt (List.replicate 8 0xC5) d j) : findStop d (i + 2) = none := by
  simp only [findStop, List.find?_eq_none, List.mem_reverse, List.mem_range]
  intro j _
  simp only [Bool.and_eq_true, decide_eq_true_eq, beq_iff_eq, not_and]
  intro hj h'
  exact h j hj h'

/-- Dropping the trailing filler gives the stripped string (R208). -/
theorem stripped_stripFiller (d : List Byte) : Stripped d (stripFiller d) := by
  refine ⟨⟨(d.reverse.takeWhile (· == filler)).length, ?_⟩, ?_⟩
  · have h1 : d = (d.reverse.dropWhile (· == filler)).reverse ++ (d.reverse.takeWhile (· == filler)).reverse := by
      rw [← List.reverse_append, List.takeWhile_append_dropWhile, List.reverse_reverse]
    have h2 : (d.reverse.takeWhile (· == filler)).reverse =
        List.replicate (d.reverse.takeWhile (· == filler)).length 0x55 := by
      rw [List.eq_replicate_iff]
      refine ⟨by simp, fun b hb => ?_⟩
      have := List.mem_takeWhile_imp (List.mem_reverse.1 hb)
      simpa [filler] using this
    rw [← h2]
    exact h1
  · by_cases hn : d.reverse.dropWhile (· == filler) = []
    · left
      simp [stripFiller, hn]
    · right
      have := List.head_dropWhile_not (· == filler) hn
      have hl : 0 < (d.reverse.dropWhile (· == filler)).length := List.length_pos_of_ne_nil hn
      rw [List.getD_eq_getElem _ _ (by simp [stripFiller]; omega)]
      simp only [stripFiller, List.getElem_reverse, List.length_reverse]
      rw [List.head_eq_getElem] at this
      rw [beq_eq_false_iff_ne] at this
      show _ ≠ filler
      simpa only [show (d.reverse.dropWhile (· == filler)).length - 1 -
        ((d.reverse.dropWhile (· == filler)).length - 1) = 0 by omega] using this

/-- A string is stripped in one way only. -/
theorem Stripped.unique {d out out' : List Byte} (h : Stripped d out) (h' : Stripped d out') : out = out' := by
  wlog hle : out.length ≤ out'.length generalizing out out'
  · exact (this h' h (by omega)).symm
  obtain ⟨⟨n, hn⟩, -⟩ := h
  obtain ⟨⟨n', hn'⟩, he⟩ := h'
  have hlen : out.length + n = out'.length + n' := by
    have := congrArg List.length (hn.symm.trans hn')
    simpa using this
  have hpre : out = out'.take out.length := by
    have := congrArg (List.take out.length) (hn.symm.trans hn')
    rwa [List.take_append_of_le_length (Nat.le_refl _), List.take_length,
      List.take_append_of_le_length hle] at this
  by_cases heq : out.length = out'.length
  · rw [hpre, heq, List.take_length]
  · exfalso
    rcases he with rfl | he
    · simp at hle
      exact heq (by simp [hle])
    · apply he
      have h1 : d.getD (out'.length - 1) 0 = out'.getD (out'.length - 1) 0 := by
        rw [hn', List.getD_append _ _ _ _ (by omega)]
      rw [← h1, hn, List.getD_append_right _ _ _ _ (by omega), List.getD_eq_getElem _ _ (by simp; omega)]
      simp

/-! ## The frame -/

/-- Byte `j` of piece `b` of a run of pieces of 8 bytes. -/
theorem getD_flatMap_eight {f : Nat → List Byte} (h : ∀ b, (f b).length = 8) {n b j : Nat} (hb : b < n) (hj : j < 8)
    (rest : List Byte) : ((List.range n).flatMap f ++ rest).getD (8 * b + j) 0 = (f b).getD j 0 := by
  have hl : ((List.range n).flatMap f).length = 8 * n := length_flatMap_const h n
  rw [List.getD_append _ _ _ _ (by omega)]
  induction n with
  | zero => omega
  | succ n ih =>
    have hl : ((List.range n).flatMap f).length = 8 * n := length_flatMap_const h n
    rw [List.range_succ, List.flatMap_append, List.flatMap_singleton]
    by_cases hlt : b < n
    · rw [List.getD_append _ _ _ _ (by omega)]
      exact ih hlt hl
    · rw [List.getD_append_right _ _ _ _ (by omega), hl, show b = n by omega, show 8 * n + j - 8 * n = j by omega]

/-- One byte of a block, filled (R206). -/
theorem cltuBlock_getD (d : List Byte) (b j : Nat) (hj : j < 7) :
    (cltuBlock d b).getD j 0 = if 7 * b + j < d.length then d.getD (7 * b + j) 0 else 0x55 := by
  simp only [cltuBlock, filler]
  have hlen : ((d.drop (7 * b)).take 7).length = min 7 (d.length - 7 * b) := by simp
  split
  · rw [List.getD_append _ _ _ _ (by omega)]
    simp [List.getD_eq_getElem?_getD, hj]
  · rw [List.getD_append_right _ _ _ _ (by omega), List.getD_eq_getElem _ _ (by simp; omega)]
    simp

/-- The pieces of a frame between its start and its stop sequence (R206). -/
theorem cltuFrame_pieces_length (v : Config.BchVariant) (rnd : Bool) (d : List Byte) :
    ((List.range (cltuBlocks d)).flatMap fun b => cltuCodeword v rnd (cltuBlock d b)).length = 8 * cltuBlocks d :=
  length_flatMap_const (fun b => cltuCodeword_length v rnd _ (cltuBlock_length d b)) _

/-- Byte `j` of codeword `b` of a frame (R206). -/
theorem cltuFrame_getD (v : Config.BchVariant) (rnd : Bool) (d : List Byte) {b j : Nat} (hb : b < cltuBlocks d)
    (hj : j < 8) :
    (cltuFrame v rnd d).getD (2 + 8 * b + j) 0 = (cltuCodeword v rnd (cltuBlock d b)).getD j 0 := by
  rw [cltuFrame, List.append_assoc, List.getD_append_right _ _ _ _ (by simp [startSequence]; omega),
    show 2 + 8 * b + j - startSequence.length = 8 * b + j by simp [startSequence]; omega]
  exact getD_flatMap_eight (fun b => cltuCodeword_length v rnd _ (cltuBlock_length d b)) hb hj _

/-- A frame ends in its stop sequence (R206, R207). -/
theorem cltuFrame_drop (v : Config.BchVariant) (rnd : Bool) (d : List Byte) :
    (cltuFrame v rnd d).drop (2 + 8 * cltuBlocks d) = stopSequence := by
  have h := cltuFrame_pieces_length v rnd d
  rw [cltuFrame, List.drop_append, List.drop_eq_nil_of_le (by simp only [List.length_append, h]; simp [startSequence]),
    show 2 + 8 * cltuBlocks d - (startSequence ++ _).length = 0 by
      simp only [List.length_append, h]
      simp [startSequence]]
  rfl

/-- What stands between the start and the stop sequence of a frame (R206, R207). -/
theorem cltuFrame_span (v : Config.BchVariant) (rnd : Bool) (d : List Byte) :
    ((cltuFrame v rnd d).drop 2).take (8 * cltuBlocks d) =
      (List.range (cltuBlocks d)).flatMap fun b => cltuCodeword v rnd (cltuBlock d b) := by
  rw [cltuFrame, List.append_assoc, show startSequence = [0xEB, 0x90] from rfl, List.cons_append, List.cons_append,
    List.drop_succ_cons, List.drop_succ_cons, List.drop_zero, List.nil_append, ← cltuFrame_pieces_length v rnd d,
    List.take_left]

/-- The data of a codeword (R206). -/
theorem cltuCodeword_take (v : Config.BchVariant) (rnd : Bool) (blk : List Byte) (h : blk.length = 7) :
    (cltuCodeword v rnd blk).take 7 = cltuMask rnd blk := by
  have hm := cltuMask_length rnd blk (by omega)
  rw [cltuCodeword, List.take_append_of_le_length (by omega), List.take_of_length_le (by omega)]

/-- The check byte of a codeword (R206). -/
theorem cltuCodeword_check (v : Config.BchVariant) (rnd : Bool) (blk : List Byte) (h : blk.length = 7) :
    (cltuCodeword v rnd blk).getD 7 0 = bchCheck v (cltuMask rnd blk) := by
  have hm := cltuMask_length rnd blk (by omega)
  rw [cltuCodeword, List.getD_append_right _ _ _ _ (by omega), hm, h]
  rfl

end Sys2Proof.Machine
end

