-- ==== Sys2Proof/Laws/Decode.lean ====
section
/-! SUPPORT. The laws of the opcode map and of the two fields of a command word. -/

namespace Sys2Proof

/-- The codes from 0x0D up are reserved (R73). -/
theorem ofOpcode_reserved (n : Nat) (h : 13 ≤ n) : ofOpcode n = none := by
  obtain ⟨m, rfl⟩ := Nat.exists_eq_add_of_le' h
  rfl

/-- Every code below 0x0D names a command (R71). -/
theorem ofOpcode_isSome (n : Nat) (h : n < 13) : (ofOpcode n).isSome = true := by
  interval_cases n <;> rfl

/-- The map from codes to commands inverts the map from commands to codes (R71). -/
theorem ofOpcode_eq_some (n : Nat) (i : Instr) : ofOpcode n = some i ↔ n = (opcode i).toNat := by
  constructor
  · intro h
    have hn : n < 13 := by
      by_contra hge
      rw [ofOpcode_reserved n (by omega)] at h
      cases h
    interval_cases n <;> cases h <;> rfl
  · rintro rfl
    cases i <;> rfl

/-- A word with RSV zero is its OPC field, zero above. -/
theorem word_of_rsv_zero (w : Word) (h : rsvField w = 0) : w = (0#24 ++ opcField w) := by
  apply BitVec.eq_of_getLsbD_eq
  intro k hk
  simp only [BitVec.getLsbD_append, opcField, BitVec.getLsbD_extractLsb']
  split
  next h8 => simp [h8]
  next h8 =>
    have hbit := congrArg (fun v => v.getLsbD (k - 8)) h
    simp only [rsvField, BitVec.getLsbD_extractLsb'] at hbit
    rw [decide_eq_true (by omega), show 8 + (k - 8) = k by omega] at hbit
    simpa using hbit

end Sys2Proof
end

