-- ==== Sys2Proof/Laws/Gf256.lean ====
section
/-! SUPPORT. The field laws of R180, sums, and what the polynomial operations evaluate to. Addition is exclusive-or. -/

namespace Sys2Proof.Machine

/-! ## Additive maps -/

theorem byte_xor_zero (a : Byte) : a ^^^ 0 = a := BitVec.xor_zero

theorem byte_zero_xor (a : Byte) : 0 ^^^ a = a := BitVec.zero_xor

theorem byte_xor_self (a : Byte) : a ^^^ a = 0 := BitVec.xor_self

theorem xor_xor_comm (a b c d : Byte) : (a ^^^ b) ^^^ (c ^^^ d) = (a ^^^ c) ^^^ (b ^^^ d) := by
  rw [BitVec.xor_assoc, BitVec.xor_assoc, ← BitVec.xor_assoc b, BitVec.xor_comm b, BitVec.xor_assoc]

theorem xor_left_cancel_iff (a b c : Byte) : a ^^^ b = a ^^^ c ↔ b = c := by
  constructor
  · intro h
    have := congrArg (a ^^^ ·) h
    simpa [← BitVec.xor_assoc] using this
  · rintro rfl
    rfl

theorem xor_eq_zero_iff_eq (a b : Byte) : a ^^^ b = 0 ↔ a = b := by
  rw [show (0 : Byte) = a ^^^ a from BitVec.xor_self.symm, xor_left_cancel_iff, eq_comm]

/-- The part of a byte in bit `i`. -/
def bitPart (i : Nat) (x : Byte) : Byte := if x.getLsbD i then BitVec.ofNat 8 (2 ^ i) else 0

/-- A byte is the sum of its bits. -/
theorem byte_eq_bits : ∀ x : Byte, x = bitPart 0 x ^^^ bitPart 1 x ^^^ bitPart 2 x ^^^ bitPart 3 x ^^^ bitPart 4 x ^^^
    bitPart 5 x ^^^ bitPart 6 x ^^^ bitPart 7 x := by
  decide +kernel

/-- Two additive maps that agree on the eight units are equal. -/
theorem additive_ext {f g : Byte → Byte} (hf : ∀ x y, f (x ^^^ y) = f x ^^^ f y) (hg : ∀ x y, g (x ^^^ y) = g x ^^^ g y)
    (h : ∀ i, i < 8 → f (BitVec.ofNat 8 (2 ^ i)) = g (BitVec.ofNat 8 (2 ^ i))) (x : Byte) : f x = g x := by
  have z : ∀ {f : Byte → Byte}, (∀ x y, f (x ^^^ y) = f x ^^^ f y) → f 0 = 0 := by
    intro f hf
    have := hf 0 0
    rw [BitVec.xor_self] at this
    exact this.trans BitVec.xor_self
  have p : ∀ i, i < 8 → f (bitPart i x) = g (bitPart i x) := by
    intro i hi
    unfold bitPart
    split
    · exact h i hi
    · rw [z hf, z hg]
  rw [byte_eq_bits x]
  simp only [hf, hg, p _ (show 0 < 8 by decide), p _ (show 1 < 8 by decide), p _ (show 2 < 8 by decide),
    p _ (show 3 < 8 by decide), p _ (show 4 < 8 by decide), p _ (show 5 < 8 by decide), p _ (show 6 < 8 by decide),
    p _ (show 7 < 8 by decide)]

/-! ## Multiplication -/

theorem xtime_xor (x y : Byte) : xtime (x ^^^ y) = xtime x ^^^ xtime y := by
  unfold xtime
  rw [BitVec.shiftLeft_xor_distrib, BitVec.getLsbD_xor, xor_xor_comm]
  congr 1
  cases x.getLsbD 7 <;> cases y.getLsbD 7 <;> rfl

theorem gmulBits_xor_right (n : Nat) (a x y : Byte) : gmulBits n a (x ^^^ y) = gmulBits n a x ^^^ gmulBits n a y := by
  induction n generalizing a x y with
  | zero => simp [gmulBits]
  | succ n ih =>
    simp only [gmulBits, xtime_xor, ih]
    rw [xor_xor_comm]
    congr 1
    split
    · rfl
    · rfl

theorem gmulBits_xor_left (n : Nat) (a a' x : Byte) : gmulBits n (a ^^^ a') x = gmulBits n a x ^^^ gmulBits n a' x := by
  induction n generalizing a a' x with
  | zero => simp [gmulBits]
  | succ n ih =>
    simp only [gmulBits, BitVec.ushiftRight_xor_distrib, ih, BitVec.getLsbD_xor]
    rw [xor_xor_comm]
    congr 1
    cases a.getLsbD 0 <;> cases a'.getLsbD 0 <;> simp

/-- Distributivity (R180). -/
theorem gmul_xor (a x y : Byte) : gmul a (x ^^^ y) = gmul a x ^^^ gmul a y := gmulBits_xor_right 8 a x y

theorem xor_gmul (a a' x : Byte) : gmul (a ^^^ a') x = gmul a x ^^^ gmul a' x := gmulBits_xor_left 8 a a' x

theorem gmul_comm (a b : Byte) : gmul a b = gmul b a := by
  refine additive_ext (f := fun a => gmul a b) (g := fun a => gmul b a) (fun x y => xor_gmul x y b)
    (fun x y => gmul_xor b x y) (fun i hi => ?_) a
  refine additive_ext (f := fun b => gmul (BitVec.ofNat 8 (2 ^ i)) b) (g := fun b => gmul b (BitVec.ofNat 8 (2 ^ i)))
    (fun x y => gmul_xor _ x y) (fun x y => xor_gmul x y _) (fun j hj => ?_) b
  have : ∀ i < 8, ∀ j < 8, gmul (BitVec.ofNat 8 (2 ^ i)) (BitVec.ofNat 8 (2 ^ j)) =
      gmul (BitVec.ofNat 8 (2 ^ j)) (BitVec.ofNat 8 (2 ^ i)) := by decide +kernel
  exact this i hi j hj

theorem gmul_assoc (a b c : Byte) : gmul (gmul a b) c = gmul a (gmul b c) := by
  refine additive_ext (f := fun a => gmul (gmul a b) c) (g := fun a => gmul a (gmul b c))
    (fun x y => by simp only [xor_gmul]) (fun x y => by simp only [xor_gmul]) (fun i hi => ?_) a
  refine additive_ext (f := fun b => gmul (gmul (BitVec.ofNat 8 (2 ^ i)) b) c)
    (g := fun b => gmul (BitVec.ofNat 8 (2 ^ i)) (gmul b c))
    (fun x y => by simp only [gmul_xor, xor_gmul]) (fun x y => by simp only [gmul_xor, xor_gmul]) (fun j hj => ?_) b
  refine additive_ext (f := fun c => gmul (gmul (BitVec.ofNat 8 (2 ^ i)) (BitVec.ofNat 8 (2 ^ j))) c)
    (g := fun c => gmul (BitVec.ofNat 8 (2 ^ i)) (gmul (BitVec.ofNat 8 (2 ^ j)) c))
    (fun x y => by simp only [gmul_xor]) (fun x y => by simp only [gmul_xor]) (fun k hk => ?_) c
  have : ∀ i < 8, ∀ j < 8, ∀ k < 8,
      gmul (gmul (BitVec.ofNat 8 (2 ^ i)) (BitVec.ofNat 8 (2 ^ j))) (BitVec.ofNat 8 (2 ^ k)) =
        gmul (BitVec.ofNat 8 (2 ^ i)) (gmul (BitVec.ofNat 8 (2 ^ j)) (BitVec.ofNat 8 (2 ^ k))) := by decide +kernel
  exact this i hi j hj k hk

@[simp] theorem gmul_zero (a : Byte) : gmul a 0 = 0 := by
  have := gmul_xor a 0 0
  rw [BitVec.xor_self] at this
  exact this.trans BitVec.xor_self

@[simp] theorem zero_gmul (a : Byte) : gmul 0 a = 0 := by rw [gmul_comm, gmul_zero]

@[simp] theorem gmul_one (a : Byte) : gmul a 1 = a := by
  revert a
  decide +kernel

@[simp] theorem one_gmul (a : Byte) : gmul 1 a = a := by rw [gmul_comm, gmul_one]

@[simp] theorem gmul_zero_lit (a : Byte) : gmul a 0#8 = 0#8 := gmul_zero a

@[simp] theorem zero_gmul_lit (a : Byte) : gmul 0#8 a = 0#8 := zero_gmul a

@[simp] theorem gmul_one_lit (a : Byte) : gmul a 1#8 = a := gmul_one a

@[simp] theorem one_gmul_lit (a : Byte) : gmul 1#8 a = a := one_gmul a

theorem gmul_left_comm (a b c : Byte) : gmul a (gmul b c) = gmul b (gmul a c) := by
  rw [← gmul_assoc, gmul_comm a, gmul_assoc]

/-! ## Powers -/

theorem gpow_zero (a : Byte) : gpow a 0 = 1 := rfl

theorem gpow_succ (a : Byte) (n : Nat) : gpow a (n + 1) = gmul (gpow a n) a := rfl

theorem gpow_add (a : Byte) (m n : Nat) : gpow a (m + n) = gmul (gpow a m) (gpow a n) := by
  induction n with
  | zero => rw [gpow_zero, gmul_one, Nat.add_zero]
  | succ n ih => rw [← Nat.add_assoc, gpow_succ, ih, gpow_succ, gmul_assoc]

theorem gpow_mul (a : Byte) (m n : Nat) : gpow a (m * n) = gpow (gpow a m) n := by
  induction n with
  | zero => rfl
  | succ n ih => rw [Nat.mul_succ, gpow_add, ih, gpow_succ]

@[simp] theorem one_gpow (n : Nat) : gpow 1 n = 1 := by
  induction n with
  | zero => rfl
  | succ n ih => rw [gpow_succ, ih, gmul_one]

theorem gpow_two_255 : gpow 0x02 255 = 1 := by decide +kernel

/-- The powers of alpha, without the reduction of the exponent (R180). -/
theorem alphaPow_eq (e : Nat) : alphaPow e = gpow 0x02 e := by
  rw [alphaPow]
  conv_rhs => rw [← Nat.div_add_mod e 255, gpow_add, gpow_mul, gpow_two_255, one_gpow, one_gmul]

theorem alphaPow_zero : alphaPow 0 = 1 := rfl

theorem alphaPow_add (m n : Nat) : alphaPow (m + n) = gmul (alphaPow m) (alphaPow n) := by
  simp only [alphaPow_eq, gpow_add]

theorem alphaPow_mul (m n : Nat) : alphaPow (m * n) = gpow (alphaPow m) n := by
  simp only [alphaPow_eq, gpow_mul]

theorem alphaPow_255_mul (n : Nat) : alphaPow (255 * n) = 1 := by
  rw [alphaPow_mul, alphaPow_eq, gpow_two_255, one_gpow]

/-- The powers of alpha can be cancelled. -/
theorem alphaPow_cancel {e : Nat} {a b : Byte} (h : gmul (alphaPow e) a = gmul (alphaPow e) b) : a = b := by
  have hi : gmul (alphaPow (254 * e)) (alphaPow e) = 1 := by
    rw [← alphaPow_add, show 254 * e + e = 255 * e by omega, alphaPow_255_mul]
  have := congrArg (gmul (alphaPow (254 * e))) h
  rwa [← gmul_assoc, ← gmul_assoc, hi, one_gmul, one_gmul] at this

theorem alphaPow_ne_zero (e : Nat) : alphaPow e ≠ 0 := by
  intro h
  have := alphaPow_cancel (e := e) (a := 1) (b := 0) (by rw [h, zero_gmul, zero_gmul])
  exact absurd this (by decide)

/-- The next `n` powers of alpha after `a`, each from the one before. -/
def alphaRun (n : Nat) (a : Byte) : List Byte :=
  match n with
  | 0 => []
  | n + 1 => gmul a 0x02 :: alphaRun n (gmul a 0x02)

theorem mem_alphaRun (n e k : Nat) (h : k < n) : gpow 0x02 (e + k + 1) ∈ alphaRun n (gpow 0x02 e) := by
  induction n generalizing e k with
  | zero => omega
  | succ n ih =>
    rw [alphaRun, ← gpow_succ]
    cases k with
    | zero => exact List.mem_cons_self
    | succ k =>
      have := ih (e + 1) k (by omega)
      rw [show e + (k + 1) + 1 = e + 1 + k + 1 by omega]
      exact List.mem_cons_of_mem _ this

theorem alphaRun_ne_one : (alphaRun 254 (gpow 0x02 0)).all (· != 1) = true := by decide +kernel

/-- Alpha has order 255 (R180). -/
theorem alphaPow_ne_one {e : Nat} (h0 : 0 < e) (h : e < 255) : alphaPow e ≠ 1 := by
  obtain ⟨k, rfl⟩ := Nat.exists_eq_add_of_le' h0
  have := List.all_eq_true.1 alphaRun_ne_one _ (mem_alphaRun 254 0 k (by omega))
  rw [Nat.zero_add, bne_iff_ne] at this
  rwa [alphaPow_eq]

/-- The 255 powers of alpha are distinct (R180). -/
theorem alphaPow_injOn {m n : Nat} (hm : m < 255) (hn : n < 255) (h : alphaPow m = alphaPow n) : m = n := by
  wlog hle : m ≤ n generalizing m n
  · exact (this hn hm h.symm (by omega)).symm
  by_contra hne
  refine alphaPow_ne_one (e := n - m) (by omega) (by omega) (alphaPow_cancel (e := m) ?_)
  rw [← alphaPow_add, gmul_one, show m + (n - m) = n by omega, h]

/-- Every byte but 0 is a power of alpha (R180). -/
theorem exists_alphaPow (a : Byte) (h : a ≠ 0) : ∃ e, e < 255 ∧ alphaPow e = a := by
  have key : (Finset.range 255).image (fun e => (alphaPow e).toNat) = Finset.Ico 1 256 := by
    apply Finset.eq_of_subset_of_card_le
    · intro x hx
      obtain ⟨e, -, rfl⟩ := Finset.mem_image.1 hx
      have h1 := (alphaPow e).isLt
      have h2 : (alphaPow e).toNat ≠ 0 := fun h => alphaPow_ne_zero e (BitVec.eq_of_toNat_eq h)
      simp only [Finset.mem_Ico]
      omega
    · rw [Finset.card_image_of_injOn, Finset.card_range, Nat.card_Ico]
      intro m hm n hn hmn
      exact alphaPow_injOn (by simpa using hm) (by simpa using hn) (BitVec.eq_of_toNat_eq hmn)
  have h1 := a.isLt
  have h2 : a.toNat ≠ 0 := fun h' => h (BitVec.eq_of_toNat_eq h')
  have hm : a.toNat ∈ Finset.Ico 1 256 := by
    simp only [Finset.mem_Ico]
    omega
  rw [← key] at hm
  obtain ⟨e, he, hea⟩ := Finset.mem_image.1 hm
  exact ⟨e, by simpa using he, BitVec.eq_of_toNat_eq hea⟩

/-- Every byte but 0 has an inverse (R180). -/
theorem gmul_ginv (a : Byte) (h : a ≠ 0) : gmul a (ginv a) = 1 := by
  obtain ⟨e, -, rfl⟩ := exists_alphaPow a h
  rw [ginv, gmul_comm, ← gpow_succ, ← alphaPow_mul, Nat.mul_comm, alphaPow_255_mul]

theorem gmul_eq_zero {a b : Byte} (h : gmul a b = 0) : a = 0 ∨ b = 0 := by
  by_cases ha : a = 0
  · exact .inl ha
  · right
    have := congrArg (gmul (ginv a)) h
    rwa [← gmul_assoc, gmul_comm (ginv a), gmul_ginv a ha, one_gmul, gmul_zero] at this

theorem gmul_ne_zero {a b : Byte} (ha : a ≠ 0) (hb : b ≠ 0) : gmul a b ≠ 0 := fun h =>
  (gmul_eq_zero h).elim ha hb

theorem gpow_ne_zero {a : Byte} (h : a ≠ 0) (n : Nat) : gpow a n ≠ 0 := by
  obtain ⟨e, -, rfl⟩ := exists_alphaPow a h
  rw [← alphaPow_mul]
  exact alphaPow_ne_zero _

/-! ## Sums -/

/-- The sum of `f 0` to `f (n - 1)`. -/
def xorSum (n : Nat) (f : Nat → Byte) : Byte :=
  match n with
  | 0 => 0
  | n + 1 => xorSum n f ^^^ f n

theorem xorSum_congr {n : Nat} {f g : Nat → Byte} (h : ∀ i, i < n → f i = g i) : xorSum n f = xorSum n g := by
  induction n with
  | zero => rfl
  | succ n ih => rw [xorSum, xorSum, ih fun i hi => h i (by omega), h n (by omega)]

theorem xorSum_xor (n : Nat) (f g : Nat → Byte) :
    xorSum n (fun i => f i ^^^ g i) = xorSum n f ^^^ xorSum n g := by
  induction n with
  | zero => exact (byte_xor_self 0).symm
  | succ n ih => simp only [xorSum, ih, xor_xor_comm]

theorem gmul_xorSum (n : Nat) (a : Byte) (f : Nat → Byte) :
    gmul a (xorSum n f) = xorSum n fun i => gmul a (f i) := by
  induction n with
  | zero => exact gmul_zero a
  | succ n ih => simp only [xorSum, gmul_xor, ih]

theorem xorSum_zero {n : Nat} {f : Nat → Byte} (h : ∀ i, i < n → f i = 0) : xorSum n f = 0 := by
  rw [xorSum_congr h]
  clear h
  induction n with
  | zero => rfl
  | succ n ih => rw [xorSum, ih, byte_xor_self]

/-- A sum with one term that can be other than 0. -/
theorem xorSum_single {n k : Nat} {f : Nat → Byte} (hk : k < n) (h : ∀ i, i < n → i ≠ k → f i = 0) :
    xorSum n f = f k := by
  induction n with
  | zero => omega
  | succ n ih =>
    rw [xorSum]
    by_cases e : k = n
    · subst e
      rw [xorSum_zero fun i hi => h i (by omega) (by omega), byte_zero_xor]
    · rw [h n (by omega) (fun h => e h.symm), byte_xor_zero]
      exact ih (by omega) fun i hi => h i (by omega)

theorem xorSum_shift (n : Nat) (f : Nat → Byte) : xorSum (n + 1) f = f 0 ^^^ xorSum n fun i => f (i + 1) := by
  induction n with
  | zero => exact BitVec.xor_comm 0 (f 0)
  | succ n ih =>
    rw [xorSum, ih]
    simp only [xorSum, BitVec.xor_assoc]

/-! ## Evaluation -/

@[simp] theorem evalLow_nil (x : Byte) : evalLow [] x = 0 := rfl

@[simp] theorem evalLow_cons (c : Byte) (p : List Byte) (x : Byte) :
    evalLow (c :: p) x = c ^^^ gmul x (evalLow p x) := rfl

theorem evalHigh_append_singleton (c : List Byte) (b x : Byte) :
    evalHigh (c ++ [b]) x = gmul (evalHigh c x) x ^^^ b := by
  simp [evalHigh]

theorem evalHigh_append (c d : List Byte) (x : Byte) :
    evalHigh (c ++ d) x = gmul (gpow x d.length) (evalHigh c x) ^^^ evalHigh d x := by
  induction d using List.reverseRecOn with
  | nil => simp [gpow, evalHigh]
  | append_singleton d b ih =>
    rw [← List.append_assoc, evalHigh_append_singleton, ih, evalHigh_append_singleton, xor_gmul,
      List.length_append, List.length_singleton, gpow_succ, BitVec.xor_assoc]
    congr 1
    rw [gmul_assoc, gmul_assoc]
    congr 1
    rw [gmul_comm]

theorem evalHigh_cons (b : Byte) (c : List Byte) (x : Byte) :
    evalHigh (b :: c) x = gmul (gpow x c.length) b ^^^ evalHigh c x := by
  have := evalHigh_append [b] c x
  simpa [evalHigh] using this

/-- Evaluation is linear. -/
theorem evalHigh_xor (c d : List Byte) (h : c.length = d.length) (x : Byte) :
    evalHigh (List.zipWith (· ^^^ ·) c d) x = evalHigh c x ^^^ evalHigh d x := by
  induction c generalizing d with
  | nil =>
    cases d with
    | nil => exact (byte_xor_self 0).symm
    | cons => simp at h
  | cons a c ih =>
    cases d with
    | nil => simp at h
    | cons b d =>
      have hl : c.length = d.length := by simpa using h
      rw [List.zipWith_cons_cons, evalHigh_cons, evalHigh_cons, evalHigh_cons, ih d hl, List.length_zipWith, ← hl,
        Nat.min_self, gmul_xor, xor_xor_comm]

/-- Evaluation as a sum over the positions, highest power first (R181). -/
theorem evalHigh_eq_sum (c : List Byte) (x : Byte) :
    evalHigh c x = xorSum c.length fun i => gmul (c.getD i 0) (gpow x (c.length - 1 - i)) := by
  induction c with
  | nil => rfl
  | cons b c ih =>
    rw [evalHigh_cons, List.length_cons, xorSum_shift, ih]
    congr 1
    · rw [gmul_comm]
      simp
    · apply xorSum_congr
      intro i hi
      simp only [List.getD_cons_succ]
      congr 2
      omega

theorem xorLists_length (p q : List Byte) : (mulLinear.xorLists p q).length = min p.length q.length := by
  simp [mulLinear.xorLists]

theorem evalLow_xor (p q : List Byte) (h : p.length = q.length) (x : Byte) :
    evalLow (List.zipWith (· ^^^ ·) p q) x = evalLow p x ^^^ evalLow q x := by
  induction p generalizing q with
  | nil =>
    cases q with
    | nil => exact (byte_xor_self 0).symm
    | cons => simp at h
  | cons a p ih =>
    cases q with
    | nil => simp at h
    | cons b q =>
      simp only [List.zipWith_cons_cons, evalLow_cons]
      rw [ih q (by simpa using h), gmul_xor, xor_xor_comm]

theorem evalLow_map_gmul (a : Byte) (p : List Byte) (x : Byte) :
    evalLow (p.map (gmul a)) x = gmul a (evalLow p x) := by
  induction p with
  | nil => simp
  | cons c p ih =>
    rw [List.map_cons, evalLow_cons, evalLow_cons, ih, gmul_xor, gmul_left_comm]

theorem evalLow_append_zero (p : List Byte) (x : Byte) : evalLow (p ++ [0]) x = evalLow p x := by
  induction p with
  | nil => simp
  | cons c p ih => rw [List.cons_append, evalLow_cons, evalLow_cons, ih]

@[simp] theorem mulLinear_length (a : Byte) (p : List Byte) : (mulLinear a p).length = p.length + 1 := by
  simp [mulLinear, xorLists_length]

/-- The product with `x - a`. -/
theorem evalLow_mulLinear (a : Byte) (p : List Byte) (x : Byte) :
    evalLow (mulLinear a p) x = gmul (x ^^^ a) (evalLow p x) := by
  rw [mulLinear, mulLinear.xorLists, evalLow_xor _ _ (by simp), evalLow_append_zero, evalLow_map_gmul, evalLow_cons,
    byte_zero_xor, xor_gmul]

@[simp] theorem rootProduct_length (xs : List Byte) : (rootProduct xs).length = xs.length + 1 := by
  induction xs with
  | nil => rfl
  | cons a xs ih =>
    show (mulLinear a (rootProduct xs)).length = _
    rw [mulLinear_length, ih, List.length_cons]

/-- A root product vanishes exactly at its roots. -/
theorem evalLow_rootProduct_eq_zero (xs : List Byte) (x : Byte) : evalLow (rootProduct xs) x = 0 ↔ x ∈ xs := by
  induction xs with
  | nil => simp [rootProduct, evalLow]
  | cons a xs ih =>
    have e : evalLow (rootProduct (a :: xs)) x = gmul (x ^^^ a) (evalLow (rootProduct xs) x) :=
      evalLow_mulLinear a (rootProduct xs) x
    rw [e, List.mem_cons, ← ih]
    constructor
    · intro h
      rcases gmul_eq_zero h with h | h
      · exact .inl ((xor_eq_zero_iff_eq x a).1 h)
      · exact .inr h
    · rintro (rfl | h)
      · rw [byte_xor_self, zero_gmul]
      · rw [h, gmul_zero]

/-! ## Roots -/

/-- Division by `x - a`: the quotient keeps the leading coefficient. -/
theorem exists_quotient (a : Byte) (p : List Byte) (hp : 2 ≤ p.length) :
    ∃ q : List Byte, q.length + 1 = p.length ∧ q.getLastD 0 = p.getLastD 0 ∧
      ∀ x, evalLow p x = evalLow p a ^^^ gmul (x ^^^ a) (evalLow q x) := by
  induction p with
  | nil => simp at hp
  | cons c p ih =>
    by_cases h2 : 2 ≤ p.length
    · obtain ⟨q, hl, hlast, hq⟩ := ih h2
      have hqne : q ≠ [] := by
        rintro rfl
        simp at hl
        omega
      have hpne : p ≠ [] := by
        rintro rfl
        simp at h2
      refine ⟨evalLow p a :: q, by simp [hl], ?_, fun x => ?_⟩
      · rw [List.getLastD_cons, List.getLastD_cons]
        rw [List.getLastD_eq_getLast?, List.getLastD_eq_getLast?] at *
        rw [List.getLast?_eq_some_getLast hqne, List.getLast?_eq_some_getLast hpne] at *
        simpa using hlast
      · rw [evalLow_cons, hq x, evalLow_cons, evalLow_cons, gmul_xor, gmul_xor, BitVec.xor_assoc]
        congr 1
        rw [← BitVec.xor_assoc, xor_gmul x a (evalLow p a), gmul_left_comm (x ^^^ a) x, ← BitVec.xor_assoc,
          BitVec.xor_comm (gmul a _), BitVec.xor_assoc (gmul x _), byte_xor_self, byte_xor_zero]
    · have h1 : p.length = 1 := by
        simp at hp
        omega
      obtain ⟨b, rfl⟩ := List.length_eq_one_iff.1 h1
      refine ⟨[b], by simp, by simp, fun x => ?_⟩
      simp only [evalLow_cons, evalLow_nil, gmul_zero, byte_xor_zero]
      rw [xor_gmul, BitVec.xor_assoc, ← BitVec.xor_assoc (gmul a b), BitVec.xor_comm (gmul a b),
        BitVec.xor_assoc (gmul x b), byte_xor_self, byte_xor_zero]

/-- A polynomial with a leading coefficient other than 0 has fewer roots than coefficients. -/
theorem roots_lt_length (p : List Byte) (hp : p.getLastD 0 ≠ 0) (xs : List Byte) (hxs : xs.Nodup)
    (h : ∀ x ∈ xs, evalLow p x = 0) : xs.length < p.length := by
  induction xs generalizing p with
  | nil =>
    cases p with
    | nil => simp at hp
    | cons => simp
  | cons a xs ih =>
    by_cases h2 : 2 ≤ p.length
    · obtain ⟨q, hl, hlast, hq⟩ := exists_quotient a p h2
      have := ih q (by rwa [hlast]) (List.nodup_cons.1 hxs).2 fun x hx => by
        have e := hq x
        rw [h x (List.mem_cons_of_mem _ hx), h a List.mem_cons_self, byte_zero_xor] at e
        rcases gmul_eq_zero e.symm with h' | h'
        · rw [xor_eq_zero_iff_eq] at h'
          subst h'
          exact absurd hx (List.nodup_cons.1 hxs).1
        · exact h'
      rw [List.length_cons]
      omega
    · exfalso
      rcases p with _ | ⟨c, _ | ⟨d, p⟩⟩
      · simp at hp
      · have := h a List.mem_cons_self
        simp at this
        simp [this] at hp
      · simp at h2

end Sys2Proof.Machine
end

