-- ==== Sys2Proof/Laws/PerInstr.lean ====
section
/-! SUPPORT. What is said of every command as syntax, one lemma per constructor: its word decodes to it, is the code of
the opcode map with RSV zero, and it is well formed (R70, R71). -/

namespace Sys2Proof.Laws

/-- The command is well formed, its word has RSV zero and a code of the map, and the decoder reads the command back. -/
def RoundTrip.Statement (i : Instr) : Prop :=
  i.wellFormed = true ∧ rsvField (encode i) = 0 ∧ (encode i).toNat < 13 ∧ decode (encode i) = .ok i

theorem RoundTrip.nop : RoundTrip.Statement .nop := ⟨rfl, by decide, by decide, rfl⟩

theorem RoundTrip.asmAttach : RoundTrip.Statement .asmAttach := ⟨rfl, by decide, by decide, rfl⟩

theorem RoundTrip.asmDetach : RoundTrip.Statement .asmDetach := ⟨rfl, by decide, by decide, rfl⟩

theorem RoundTrip.rand : RoundTrip.Statement .rand := ⟨rfl, by decide, by decide, rfl⟩

theorem RoundTrip.rsEncode : RoundTrip.Statement .rsEncode := ⟨rfl, by decide, by decide, rfl⟩

theorem RoundTrip.rsDecode : RoundTrip.Statement .rsDecode := ⟨rfl, by decide, by decide, rfl⟩

theorem RoundTrip.bchEncode : RoundTrip.Statement .bchEncode := ⟨rfl, by decide, by decide, rfl⟩

theorem RoundTrip.bchDecode : RoundTrip.Statement .bchDecode := ⟨rfl, by decide, by decide, rfl⟩

theorem RoundTrip.cltuEncode : RoundTrip.Statement .cltuEncode := ⟨rfl, by decide, by decide, rfl⟩

theorem RoundTrip.cltuDecode : RoundTrip.Statement .cltuDecode := ⟨rfl, by decide, by decide, rfl⟩

theorem RoundTrip.bfExtract : RoundTrip.Statement .bfExtract := ⟨rfl, by decide, by decide, rfl⟩

theorem RoundTrip.bfInsert : RoundTrip.Statement .bfInsert := ⟨rfl, by decide, by decide, rfl⟩

theorem RoundTrip.move : RoundTrip.Statement .move := ⟨rfl, by decide, by decide, rfl⟩

end Sys2Proof.Laws
end

