-- ==== Sys2Proof/Laws/ReedSolomon.lean ====
section
/-! SUPPORT. The Reed-Solomon code: syndromes as sums over the errors, what the elimination keeps, and how a sum over
few positions is annihilated (R181 to R187). -/

namespace Sys2Proof.Machine

/-! ## Inner products -/

@[simp] theorem dot_nil (q : List Byte) : dot [] q = 0 := rfl

@[simp] theorem dot_cons (a b : Byte) (p q : List Byte) : dot (a :: p) (b :: q) = gmul a b ^^^ dot p q := rfl

theorem dot_comm (p q : List Byte) : dot p q = dot q p := by
  induction p generalizing q with
  | nil => cases q <;> rfl
  | cons a p ih =>
    cases q with
    | nil => rfl
    | cons b q => rw [dot_cons, dot_cons, ih, gmul_comm]

/-- The inner product is linear. -/
theorem dot_combine (row c b : List Byte) (k : Byte) (h : c.length = b.length) :
    dot row (List.zipWith (· ^^^ ·) c (b.map (gmul k))) = dot row c ^^^ gmul k (dot row b) := by
  induction row generalizing c b with
  | nil => rw [dot_nil, dot_nil, dot_nil, gmul_zero, byte_xor_zero]
  | cons a row ih =>
    cases c with
    | nil =>
      cases b with
      | nil => simp [dot]
      | cons => simp at h
    | cons x c =>
      cases b with
      | nil => simp at h
      | cons y b =>
        simp only [List.map_cons, List.zipWith_cons_cons, dot_cons]
        rw [ih c b (by simpa using h), gmul_xor, gmul_xor, xor_xor_comm, gmul_left_comm]

/-- The inner product of a polynomial with consecutive power sums. -/
theorem dot_powerSums (n : Nat) (f L : Nat → Byte) (m l : List Byte) (k : Nat) (hl : m.length ≤ l.length)
    (h : ∀ j, j < m.length → l.getD j 0 = xorSum n fun i => gmul (f i) (gpow (L i) (k + j))) :
    dot m l = xorSum n fun i => gmul (gmul (f i) (gpow (L i) k)) (evalLow m (L i)) := by
  induction m generalizing l k with
  | nil =>
    rw [dot_nil]
    exact (xorSum_zero fun i _ => gmul_zero _).symm
  | cons c m ih =>
    cases l with
    | nil => simp at hl
    | cons s l =>
      rw [dot_cons, ih l (k + 1) (by simpa using hl) (fun j hj => by
        have := h (j + 1) (by simpa using hj)
        rw [List.getD_cons_succ] at this
        rw [this]
        apply xorSum_congr
        intro i _
        congr 2
        omega)]
      have h0 := h 0 (by simp)
      rw [List.getD_cons_zero] at h0
      rw [h0, gmul_xorSum, ← xorSum_xor]
      apply xorSum_congr
      intro i _
      rw [evalLow_cons, gmul_xor, Nat.add_zero, gmul_comm c, gpow_succ]
      congr 1
      simp only [gmul_assoc]

theorem dot_replicate_zero (w : Nat) (m : List Byte) : dot m (List.replicate w 0) = 0 := by
  induction w generalizing m with
  | zero => rw [List.replicate_zero, dot_comm, dot_nil]
  | succ w ih =>
    cases m with
    | nil => rfl
    | cons c m => rw [List.replicate_succ, dot_cons, gmul_zero, byte_zero_xor, ih]

/-! ## Annihilation -/

/-- Power sums over at most `w` positions determine their weights: if the first `w` power sums are 0, so is every
weight. -/
theorem weights_eq_zero (n w : Nat) (f L : Nat → Byte) (E : List Nat) (hE : E.length ≤ w)
    (hf : ∀ i, i < n → f i ≠ 0 → i ∈ E) (hL : ∀ i, i < n → ∀ j, j ∈ E → L i = L j → i = j)
    (h : ∀ j, j < w → xorSum n (fun i => gmul (f i) (gpow (L i) j)) = 0) : ∀ k, k < n → f k = 0 := by
  intro k hk
  by_contra hne
  have hkE := hf k hk hne
  have hlt : (E.filter (· ≠ k)).length < E.length :=
    List.length_filter_lt_length_iff_exists.2 ⟨k, hkE, by simp⟩
  have hm : (rootProduct ((E.filter (· ≠ k)).map L)).length ≤ w := by
    rw [rootProduct_length, List.length_map]
    omega
  have e := dot_powerSums n f L (rootProduct ((E.filter (· ≠ k)).map L)) (List.replicate w 0) 0 (by simpa using hm)
    (fun j hj => by
      rw [Nat.zero_add, h j (by omega), List.getD_eq_getElem _ _ (by simp; omega), List.getElem_replicate])
  rw [dot_replicate_zero] at e
  rw [xorSum_single hk fun i hi hik => by
    by_cases hfi : f i = 0
    · rw [hfi, zero_gmul, zero_gmul]
    · rw [(evalLow_rootProduct_eq_zero _ _).2 (List.mem_map.2 ⟨i, by simp [hf i hi hfi, hik], rfl⟩), gmul_zero]] at e
  rw [gpow_zero, gmul_one] at e
  rcases gmul_eq_zero e.symm with h' | h'
  · exact hne h'
  · rw [evalLow_rootProduct_eq_zero] at h'
    obtain ⟨j, hj, hLj⟩ := List.mem_map.1 h'
    simp only [List.mem_filter, decide_eq_true_eq] at hj
    exact hj.2 (hL k hk j hj.1 hLj.symm).symm

/-! ## Locations and syndromes -/

theorem location_ne_zero (i : Nat) : location i ≠ 0 := alphaPow_ne_zero _

/-- The locations of the 255 positions are distinct (R187). -/
theorem location_injOn {i j : Nat} (hi : i < 255) (hj : j < 255) (h : location i = location j) : i = j := by
  have := alphaPow_injOn (by omega) (by omega) h
  omega

/-- A root's power is a location's power (R187). -/
theorem rsRoot_pow (i j : Nat) : gpow (rsRoot j) (254 - i) = gpow (location i) (rsFcr + j) := by
  rw [rsRoot, location, ← alphaPow_mul, ← alphaPow_mul, Nat.mul_comm]

/-- A syndrome as a sum over the positions (R183). -/
theorem syndrome_eq_sum (r : List Byte) (hr : r.length = 255) (j : Nat) :
    syndrome r j = xorSum 255 fun i => gmul (r.getD i 0) (gpow (location i) (rsFcr + j)) := by
  rw [syndrome, evalHigh_eq_sum, hr]
  apply xorSum_congr
  intro i _
  rw [show 255 - 1 - i = 254 - i by omega, rsRoot_pow]

@[simp] theorem syndromes_length (r : List Byte) : (syndromes r).length = 32 := by simp [syndromes]

theorem syndromes_getD (r : List Byte) (j : Nat) (h : j < 32) : (syndromes r).getD j 0 = syndrome r j := by
  rw [List.getD_eq_getElem _ _ (by simpa using h)]
  simp [syndromes]

theorem isCodeword_iff (c : List Byte) :
    isCodeword c = true ↔ c.length = 255 ∧ ∀ j, j < 32 → syndrome c j = 0 := by
  simp [isCodeword, syndromes]

theorem syndrome_xor (c d : List Byte) (h : c.length = d.length) (j : Nat) :
    syndrome (List.zipWith (· ^^^ ·) c d) j = syndrome c j ^^^ syndrome d j := evalHigh_xor c d h _

theorem getD_zipWith_xor (c d : List Byte) (h : c.length = d.length) (i : Nat) :
    (List.zipWith (· ^^^ ·) c d).getD i 0 = c.getD i 0 ^^^ d.getD i 0 := by
  by_cases hi : i < c.length
  · rw [List.getD_eq_getElem _ _ (by simp; omega), List.getD_eq_getElem _ _ hi, List.getD_eq_getElem _ _ (by omega),
      List.getElem_zipWith]
  · rw [List.getD_eq_default _ _ (by simp; omega), List.getD_eq_default _ _ (by omega),
      List.getD_eq_default _ _ (by omega), byte_xor_self]

/-- The syndromes of a received block are those of its errors alone. -/
theorem syndrome_of_errors (c r : List Byte) (hc : isCodeword c = true) (hr : r.length = 255) (j : Nat) (hj : j < 32) :
    syndrome r j =
      xorSum 255 fun i => gmul (c.getD i 0 ^^^ r.getD i 0) (gpow (location i) (rsFcr + j)) := by
  obtain ⟨hcl, hc0⟩ := (isCodeword_iff c).1 hc
  have h1 := syndrome_xor c r (by omega) j
  rw [hc0 j hj, byte_zero_xor] at h1
  rw [← h1, syndrome_eq_sum _ (by simp; omega)]
  apply xorSum_congr
  intro i _
  rw [getD_zipWith_xor c r (by omega)]

/-! ## Distance -/

/-- The positions where two blocks differ. -/
def errorPositions (c r : List Byte) : List Nat := (List.range 255).filter fun i => c.getD i 0 ≠ r.getD i 0

theorem mem_errorPositions (c r : List Byte) (i : Nat) :
    i ∈ errorPositions c r ↔ i < 255 ∧ c.getD i 0 ≠ r.getD i 0 := by
  simp [errorPositions]

theorem distance_eq_filter (n : Nat) (c r : List Byte) (hc : c.length = n) (hr : r.length = n) :
    distance c r = ((List.range n).filter fun i => c.getD i 0 ≠ r.getD i 0).length := by
  induction n generalizing c r with
  | zero =>
    rw [List.length_eq_zero_iff] at hc
    subst hc
    rfl
  | succ n ih =>
    rcases c with _ | ⟨a, c⟩
    · simp at hc
    rcases r with _ | ⟨b, r⟩
    · simp at hr
    have := ih c r (by simpa using hc) (by simpa using hr)
    rw [distance] at this ⊢
    rw [List.zipWith_cons_cons, List.sum_cons, this, List.range_succ_eq_map, List.filter_cons, List.filter_map,
      List.getD_cons_zero, List.getD_cons_zero]
    simp only [Function.comp_def, Nat.succ_eq_add_one, List.getD_cons_succ]
    by_cases hab : a = b
    · simp [hab]
    · simp [hab, Nat.add_comm]

theorem distance_eq_length (c r : List Byte) (hc : c.length = 255) (hr : r.length = 255) :
    distance c r = (errorPositions c r).length := distance_eq_filter 255 c r hc hr

/-! ## The elimination -/

/-- A vector of 17 coefficients whose highest one other than 0 is a 1 at index `t`. -/
structure Leads (t : Nat) (v : List Byte) : Prop where
  length : v.length = 17
  top : v.getD t 0 = 1
  above : ∀ j, t < j → v.getD j 0 = 0

/-- A basis in echelon form: leading indices `ts`, strictly rising. -/
def Echelon (ts : List Nat) (basis : List (List Byte)) : Prop :=
  List.Forall₂ Leads ts basis ∧ ts.Pairwise (· < ·)

theorem Leads.combine {t u : Nat} {b c : List Byte} (hb : Leads t b) (hc : Leads u c) (h : t < u) (k : Byte) :
    Leads u (List.zipWith (· ^^^ ·) c (b.map (gmul k))) := by
  have hl : c.length = (b.map (gmul k)).length := by rw [List.length_map, hb.length, hc.length]
  have hz : ∀ j, t < j → (b.map (gmul k)).getD j 0 = 0 := by
    intro j hj
    have := hb.above j hj
    by_cases hj' : j < b.length
    · rw [List.getD_eq_getElem _ _ hj'] at this
      rw [List.getD_eq_getElem _ _ (by simpa using hj'), List.getElem_map, this, gmul_zero]
    · rw [List.getD_eq_default _ _ (by simpa using hj')]
  refine ⟨by simp [hb.length, hc.length], ?_, fun j hj => ?_⟩
  · rw [getD_zipWith_xor _ _ hl, hz u h, hc.top, byte_xor_zero]
  · rw [getD_zipWith_xor _ _ hl, hz j (by omega), hc.above j hj, byte_xor_zero]

/-- One elimination: the vectors left have an inner product of 0 with the row, keep every linear property and the
echelon form, and are at most one fewer. -/
theorem eliminate_spec (row : List Byte) (K : List Byte → Prop)
    (hK : ∀ b c k, b.length = c.length → K b → K c → K (List.zipWith (· ^^^ ·) c (b.map (gmul k))))
    (ts : List Nat) (basis : List (List Byte)) (he : Echelon ts basis) (hb : ∀ b ∈ basis, K b) :
    basis.length ≤ (eliminate row basis).length + 1 ∧ (∀ b ∈ eliminate row basis, K b ∧ dot row b = 0) ∧
      ∃ ts' : List Nat, (∀ t ∈ ts', t ∈ ts) ∧ Echelon ts' (eliminate row basis) := by
  obtain ⟨hf, hp⟩ := he
  induction hf with
  | nil => exact ⟨by simp [eliminate], by simp [eliminate], [], by simp, List.Forall₂.nil, List.Pairwise.nil⟩
  | @cons t b ts basis h1 h2 ih =>
    rw [List.pairwise_cons] at hp
    unfold eliminate
    split
    next h0 =>
      obtain ⟨i1, i2, ts', i3, i4⟩ := ih (fun c hc => hb c (List.mem_cons_of_mem _ hc)) hp.2
      refine ⟨by simpa using i1, ?_, t :: ts', ?_, List.Forall₂.cons h1 i4.1, ?_⟩
      · intro c hc
        rcases List.mem_cons.1 hc with rfl | hc
        · exact ⟨hb _ List.mem_cons_self, h0⟩
        · exact i2 c hc
      · intro u hu
        rcases List.mem_cons.1 hu with rfl | hu
        · exact List.mem_cons_self
        · exact List.mem_cons_of_mem _ (i3 u hu)
      · exact List.pairwise_cons.2 ⟨fun u hu => hp.1 u (i3 u hu), i4.2⟩
    next h0 =>
      have hlen : ∀ c ∈ basis, c.length = b.length := by
        intro c hc
        obtain ⟨k, hk, rfl⟩ := List.getElem_of_mem hc
        have := List.forall₂_iff_get.1 h2
        have hl := (this.2 k (by omega) hk).length
        rw [h1.length]
        exact hl
      refine ⟨by simp, ?_, ts, fun u hu => List.mem_cons_of_mem _ hu, ?_, hp.2⟩
      · intro d hd
        obtain ⟨c, hc, rfl⟩ := List.mem_map.1 hd
        refine ⟨hK _ _ _ (hlen c hc).symm (hb b List.mem_cons_self) (hb c (List.mem_cons_of_mem _ hc)), ?_⟩
        rw [dot_combine _ _ _ _ (hlen c hc), gmul_assoc, gmul_comm (ginv _), gmul_ginv _ h0, gmul_one, byte_xor_self]
      · rw [List.forall₂_map_right_iff]
        clear ih hb hlen
        have hlt := hp.1
        clear hp
        induction h2 with
        | nil => exact List.Forall₂.nil
        | @cons u c us cs g1 g2 ih =>
          exact List.Forall₂.cons (h1.combine g1 (hlt u List.mem_cons_self) _)
            (ih fun v hv => hlt v (List.mem_cons_of_mem _ hv))

/-- The elimination of a list of rows. -/
theorem eliminateAll_spec (rows : List (List Byte)) (K : List Byte → Prop)
    (hK : ∀ b c k, b.length = c.length → K b → K c → K (List.zipWith (· ^^^ ·) c (b.map (gmul k))))
    (ts : List Nat) (basis : List (List Byte)) (he : Echelon ts basis) (hb : ∀ b ∈ basis, K b) :
    basis.length ≤ (rows.foldl (fun basis row => eliminate row basis) basis).length + rows.length ∧
      (∀ b ∈ rows.foldl (fun basis row => eliminate row basis) basis, K b ∧ ∀ row ∈ rows, dot row b = 0) ∧
      ∃ ts' : List Nat, (∀ t ∈ ts', t ∈ ts) ∧ Echelon ts' (rows.foldl (fun basis row => eliminate row basis) basis) := by
  induction rows generalizing K ts basis with
  | nil => exact ⟨by simp, fun b h => ⟨hb b h, by simp⟩, ts, fun t h => h, he⟩
  | cons row rows ih =>
    obtain ⟨e1, e2, ts', e3, e4⟩ := eliminate_spec row K hK ts basis he hb
    obtain ⟨i1, i2, ts'', i3, i4⟩ := ih (fun b => K b ∧ dot row b = 0)
      (fun b c k hl h h' => ⟨hK b c k hl h.1 h'.1, by
        rw [dot_combine _ _ _ _ hl.symm, h.2, h'.2, gmul_zero, byte_xor_zero]⟩) ts' (eliminate row basis) e4 e2
    refine ⟨by simp only [List.foldl_cons, List.length_cons]; omega, fun b h => ?_, ts'', fun t h => e3 t (i3 t h), i4⟩
    obtain ⟨h1, h2⟩ := i2 b h
    exact ⟨h1.1, fun r hr => (List.mem_cons.1 hr).elim (fun e => e ▸ h1.2) (h2 r)⟩

theorem unitVector_leads (i : Nat) (h : i < 17) : Leads i (unitVector i) := by
  refine ⟨by simp [unitVector], ?_, fun j hj => ?_⟩
  · rw [List.getD_eq_getElem _ _ (by simpa [unitVector] using h)]
    simp [unitVector]
  · by_cases hj' : j < 17
    · rw [List.getD_eq_getElem _ _ (by simpa [unitVector] using hj')]
      simp [unitVector]
      omega
    · rw [List.getD_eq_default _ _ (by simpa [unitVector] using hj')]

/-- The locator polynomial is monic of some degree at most 16, and all 16 rows of syndromes send it to 0 (R187). -/
theorem rsLocator_spec (syn : List Byte) :
    ∃ t, t < 17 ∧ Leads t (rsLocator syn) ∧ ∀ m, m < 16 → dot (rsLocator syn) ((syn.drop m).take 17) = 0 := by
  have he : Echelon (List.range 17) ((List.range 17).map unitVector) := by
    refine ⟨?_, List.pairwise_lt_range⟩
    rw [List.forall₂_map_right_iff, List.forall₂_same]
    exact fun i hi => unitVector_leads i (List.mem_range.1 hi)
  obtain ⟨h1, h2, ts, h3, h4⟩ := eliminateAll_spec ((List.range 16).map fun m => (syn.drop m).take 17) (fun _ => True)
    (fun _ _ _ _ _ _ => trivial) _ _ he (fun _ _ => trivial)
  rw [List.foldl_map] at h1 h2 h4
  have e : rsLocator syn = ((List.range 16).foldl (fun basis m => eliminate ((syn.drop m).take 17) basis)
    ((List.range 17).map unitVector)).headD [] := rfl
  rw [e]
  generalize (List.range 16).foldl (fun basis m => eliminate ((syn.drop m).take 17) basis)
    ((List.range 17).map unitVector) = out at *
  cases out with
  | nil => simp at h1
  | cons u out =>
    obtain ⟨h4, -⟩ := h4
    cases h4 with
    | @cons t _ ts _ hl _ =>
      refine ⟨t, List.mem_range.1 (h3 t List.mem_cons_self), hl, fun m hm => ?_⟩
      rw [dot_comm]
      exact (h2 u List.mem_cons_self).2 _ (List.mem_map.2 ⟨m, List.mem_range.2 hm, rfl⟩)

/-- A polynomial with a leading coefficient at index `t` has at most `t` roots. -/
theorem Leads.roots_le {t : Nat} {u : List Byte} (h : Leads t u) (xs : List Byte) (hxs : xs.Nodup)
    (h0 : ∀ x ∈ xs, evalLow u x = 0) : xs.length ≤ t := by
  have ht : t < 17 := by
    by_contra hc
    have := h.top
    rw [List.getD_eq_default _ _ (by rw [h.length]; omega)] at this
    exact absurd this (by decide)
  have hu : u = u.take (t + 1) ++ List.replicate (16 - t) 0 := by
    apply List.ext_getElem
    · simp [h.length]
      omega
    · intro i h1 h2
      rw [List.getElem_append]
      split
      · rw [List.getElem_take]
      next hlt =>
        rw [List.getElem_replicate]
        have := h.above i (by simp [h.length] at hlt; omega)
        rwa [List.getD_eq_getElem _ _ h1] at this
  have hz : ∀ n (p : List Byte) x, evalLow (p ++ List.replicate n 0) x = evalLow p x := by
    intro n
    induction n with
    | zero => simp
    | succ n ih =>
      intro p x
      rw [List.replicate_succ', ← List.append_assoc, evalLow_append_zero, ih]
  have hlast : (u.take (t + 1)).getLastD 0 ≠ 0 := by
    have hlen : (u.take (t + 1)).length = t + 1 := by simp [h.length]; omega
    have hne : u.take (t + 1) ≠ [] := by
      intro hn
      rw [hn] at hlen
      simp at hlen
    rw [List.getLastD_eq_getLast?, List.getLast?_eq_some_getLast hne, Option.getD_some, List.getLast_eq_getElem]
    have := h.top
    rw [List.getD_eq_getElem _ _ (by rw [h.length]; omega)] at this
    simp only [hlen, Nat.add_sub_cancel, List.getElem_take, this]
    decide
  have := roots_lt_length (u.take (t + 1)) hlast xs hxs fun x hx => by
    have := h0 x hx
    rw [hu, hz] at this
    exact this
  simp [h.length] at this
  omega

/-! ## The encoder's register -/

theorem rsGenerator_roots (j : Nat) (h : j < 32) : evalHigh rsGenerator (rsRoot j) = 0 := by
  have : ∀ j < 32, evalHigh rsGenerator (rsRoot j) = 0 := by decide +kernel
  exact this j h

/-- One data byte into the register, at a root of the generator (R185). -/
theorem evalHigh_rsShiftIn (rem : List Byte) (d : Byte) (hr : rem.length = 32) (x : Byte)
    (hx : evalHigh rsGenerator x = 0) :
    evalHigh (rsShiftIn rem d) x = gmul (evalHigh rem x) x ^^^ gmul (gpow x 32) d := by
  rcases rem with _ | ⟨a, rem⟩
  · simp at hr
  have hl : rem.length = 31 := by simpa using hr
  have hg : evalHigh rsGenerator.tail x = gpow x 32 := by
    rw [show rsGenerator = 1 :: rsGenerator.tail from rfl, evalHigh_cons, gmul_one] at hx
    exact ((xor_eq_zero_iff_eq _ _).1 hx).symm
  have e : rsShiftIn (a :: rem) d =
      List.zipWith (· ^^^ ·) (rem ++ [0]) (rsGenerator.tail.map (gmul (d ^^^ a))) := by
    rw [List.zipWith_map_right]
    rfl
  have hm : evalHigh (rsGenerator.tail.map (gmul (d ^^^ a))) x = gmul (d ^^^ a) (evalHigh rsGenerator.tail x) := by
    generalize rsGenerator.tail = g
    induction g using List.reverseRecOn with
    | nil => simp [evalHigh]
    | append_singleton g b ih =>
      rw [List.map_append, List.map_singleton, evalHigh_append_singleton, ih, evalHigh_append_singleton, gmul_xor,
        gmul_assoc]
  rw [e, evalHigh_xor _ _ (by simp [hl, rsGenerator]), evalHigh_append_singleton, byte_xor_zero, hm, hg, evalHigh_cons,
    hl, xor_gmul, xor_gmul, gmul_assoc, gmul_comm a x, ← gmul_assoc, ← gpow_succ, gmul_comm d, gmul_comm a]
  rw [BitVec.xor_comm (gmul (gpow x 32) d), ← BitVec.xor_assoc, BitVec.xor_comm (gmul (evalHigh rem x) x)]

/-! ## The zero codeword -/

theorem evalHigh_replicate_zero (n : Nat) (x : Byte) : evalHigh (List.replicate n 0) x = 0 := by
  induction n with
  | zero => rfl
  | succ n ih => rw [List.replicate_succ, evalHigh_cons, ih, gmul_zero, byte_xor_zero]

/-- Leading zeros change no value. -/
theorem evalHigh_zeros_append (n : Nat) (c : List Byte) (x : Byte) :
    evalHigh (List.replicate n 0 ++ c) x = evalHigh c x := by
  rw [evalHigh_append, evalHigh_replicate_zero, gmul_zero, byte_zero_xor]

theorem isCodeword_zero : isCodeword (List.replicate 255 0) = true := by
  rw [isCodeword_iff]
  exact ⟨List.length_replicate, fun j _ => evalHigh_replicate_zero _ _⟩

/-- All-zero data has all-zero check bytes (R184). -/
theorem rsParity_zero (n : Nat) : rsParity (List.replicate n 0) = List.replicate 32 0 := by
  have h : rsShiftIn (List.replicate 32 0) 0 = List.replicate 32 0 := by decide +kernel
  unfold rsParity
  induction n with
  | zero => rfl
  | succ n ih => rw [List.replicate_succ (n := n), List.foldl_cons, h, ih]

end Sys2Proof.Machine
end

