-- ==== Sys2Proof/Tests/Slice0.lean ====
section
/-! SUPPORT. The model's own tests: decoding of written-out words, ill-formed terms, worked examples of the spec
(95_test_vectors.md, and the rules' own examples), and a witness for the hypotheses of every statement. -/

namespace Sys2Proof.Machine.Tests

-- One theorem at a time: each kernel evaluation would otherwise hold a thread, and its stack, until its turn comes.
set_option Elab.async false

/-! ## Helpers -/

/-- An idle block that holds an input string and operands. -/
def given (bs : List Byte) (a0 a1 v : Word) : State :=
  { State.reset with
    ibuf := Memory.holding 0 bs, ilen := BitVec.ofNat 16 bs.length, arg0 := a0, arg1 := a1, value := v }

/-- An idle block with these lengths and a marker length; its buffers are as after reset. -/
def lengths (ilen olen : Nat) (l : BitVec 4) : State :=
  { State.reset with ilen := BitVec.ofNat 16 ilen, olen := BitVec.ofNat 16 olen, asmLen := l }

/-- A block that has accepted a word and stays busy for `n` more steps, with events to come. -/
def busy (n : Nat) (w : Word) (es : List HostEvent) : State := acceptFor n w { State.reset with host := es }

/-- STATUS and the output string after a command. -/
def output (o : Host.Outcome State Fault Refusal) : Option (Word × List Byte) :=
  match o with
  | .next t => some (t.status.word, t.obuf.bytes t.olen.toNat)
  | _ => none

/-- STATUS, VALUE and the input string after a command. -/
def inputAfter (o : Host.Outcome State Fault Refusal) : Option (Word × Word × List Byte) :=
  match o with
  | .next t => some (t.status.word, t.value, t.ibuf.bytes t.ilen.toNat)
  | _ => none

/-! ## Decoding: words written out from the table of R71, RSV then OPC (R70) -/

theorem test_decode_nop : decodeTableWord 32 0b000000000000000000000000_00000000 = some .nop := by decide

theorem test_decode_asm_attach : decodeTableWord 32 0b000000000000000000000000_00000001 = some .asmAttach := by decide

theorem test_decode_asm_detach : decodeTableWord 32 0b000000000000000000000000_00000010 = some .asmDetach := by decide

theorem test_decode_rand : decodeTableWord 32 0b000000000000000000000000_00000011 = some .rand := by decide

theorem test_decode_rs_encode : decodeTableWord 32 0b000000000000000000000000_00000100 = some .rsEncode := by decide

theorem test_decode_rs_decode : decodeTableWord 32 0b000000000000000000000000_00000101 = some .rsDecode := by decide

theorem test_decode_bch_encode : decodeTableWord 32 0b000000000000000000000000_00000110 = some .bchEncode := by decide

theorem test_decode_bch_decode : decodeTableWord 32 0b000000000000000000000000_00000111 = some .bchDecode := by decide

theorem test_decode_cltu_encode : decodeTableWord 32 0b000000000000000000000000_00001000 = some .cltuEncode := by decide

theorem test_decode_cltu_decode : decodeTableWord 32 0b000000000000000000000000_00001001 = some .cltuDecode := by decide

theorem test_decode_bf_extract : decodeTableWord 32 0b000000000000000000000000_00001010 = some .bfExtract := by decide

theorem test_decode_bf_insert : decodeTableWord 32 0b000000000000000000000000_00001011 = some .bfInsert := by decide

theorem test_decode_move : decodeTableWord 32 0b000000000000000000000000_00001100 = some .move := by decide

/-- Words of L2.0 and R72 that are illegal. -/
theorem test_decode_illegal : decode 0x0000000D = .error .reservedOpcode ∧ decode 0x000000FF = .error .reservedOpcode ∧
    decode 0x00000104 = .error .reservedBits ∧ decode 0x80000000 = .error .reservedBits := by decide

/-! ## Well-formedness: an ill-formed term for each check -/

theorem test_instr_wellFormed : Instr.wellFormed .rsDecode = true := by decide

/-- A 16-bit access, a byte access of a register, a misaligned access and one outside the window (R51, R52). -/
theorem test_access_illFormed :
    Access.wellFormed { kind := .read, offset := 0x1000, width := 2, data := 0 } = false ∧
    Access.wellFormed { kind := .write, offset := 0x004, width := 1, data := 0 } = false ∧
    Access.wellFormed { kind := .read, offset := 0x2001, width := 4, data := 0 } = false ∧
    Access.wellFormed { kind := .read, offset := 0x3000, width := 4, data := 0 } = false := by decide

theorem test_access_wellFormed :
    Access.wellFormed { kind := .read, offset := 0x2FFF, width := 1, data := 0 } = true ∧
    Access.wellFormed { kind := .write, offset := 0x2FFC, width := 4, data := 0 } = true := by decide

/-- A store past the buffer, a misaligned word store, markers of 0 and of 9 bytes, and runs past the buffer. -/
theorem test_stmt_illFormed :
    Stmt.wellFormed (.storeb 4096 0) = false ∧ Stmt.wellFormed (.storew 2 0) = false ∧
    Stmt.wellFormed (.storew 4096 0) = false ∧ Stmt.wellFormed (.loadb 4096) = false ∧
    Stmt.wellFormed (.setasm []) = false ∧ Stmt.wellFormed (.setasm (List.replicate 9 0)) = false ∧
    Stmt.wellFormed (.load 4095 [0, 0]) = false ∧ Stmt.wellFormed (.fill 4090 7 0) = false := by decide

/-! ## The commands -/

/-- L2.0: NOP after a failure clears ERR, and does not check ILEN (R104). -/
theorem test_nop : output (exec .nop { lengths 0xFFFF 0 4 with status := Status.failed .checksum }) =
    some (0x02, []) := by decide

/-- L2.0: MOVE with ILEN 0xFFFF and OLEN 3. -/
theorem test_move : inputAfter (exec .move
    { lengths 0xFFFF 3 4 with obuf := Memory.holding 1 [0x01, 0x02, 0x03] }) = some (0x02, 0, [0x01, 0x02, 0x03]) := by
  decide +kernel

/-- L2.2: the reset marker. -/
theorem test_asm_attach : output (exec .asmAttach (given [0x01, 0x02] 0 0 0)) =
    some (0x02, [0x1A, 0xCF, 0xFC, 0x1D, 0x01, 0x02]) := by decide +kernel

/-- L2.2: a marker of 8 bytes. -/
theorem test_asm_attach_eight : output (exec .asmAttach
    { given [0xFF] 0 0 0 with asmLen := 8, asmPat0 := 0x01234567, asmPat1 := 0x89ABCDEF }) =
    some (0x02, [0x01, 0x23, 0x45, 0x67, 0x89, 0xAB, 0xCD, 0xEF, 0xFF]) := by decide +kernel

/-- L2.2: the marker is stripped. -/
theorem test_asm_detach : output (exec .asmDetach (given [0x1A, 0xCF, 0xFC, 0x1D, 0xAA] 0 0 0)) =
    some (0x02, [0xAA]) := by decide +kernel

/-- L2.2: one bit of the marker differs. -/
theorem test_asm_detach_absent : output (exec .asmDetach (given [0x1A, 0xCF, 0xFC, 0x1E, 0xAA] 0 0 0)) =
    some (0x56, []) := by decide +kernel

/-- L2.3: the run is seeded at `start`. -/
theorem test_rand : output (exec .rand (given (List.replicate 10 0) 3 6 0)) =
    some (0x02, [0x00, 0x00, 0x00, 0xFF, 0x48, 0x0E, 0x00, 0x00, 0x00, 0x00]) := by decide +kernel

/-- L2.3: an inverted range. -/
theorem test_rand_inverted : output (exec .rand (given (List.replicate 10 0) 6 3 0)) = some (0x16, []) := by
  decide +kernel

/-- L2.4: the check bytes of `rep(222, 00) || 01` are the generator without its leading 1. -/
theorem test_rs_encode : rsParity (List.replicate 222 0 ++ [1]) =
    [0xEC, 0xF4, 0xDC, 0x85, 0xEE, 0x89, 0xC9, 0x07, 0x8D, 0x0B, 0xE2, 0x22, 0xFC, 0xD1, 0x16, 0x4E, 0x16, 0xD1, 0xFC,
      0x22, 0xE2, 0x0B, 0x8D, 0x07, 0xC9, 0x89, 0xEE, 0x85, 0xDC, 0xF4, 0xEC, 0x01] := by
  have h := rsParity_zero 222
  unfold rsParity at h ⊢
  rw [List.foldl_append, h]
  decide +kernel

/-- L2.4: 222 bytes. -/
theorem test_rs_encode_length : output (exec .rsEncode (given (List.replicate 222 0) 0 0 0)) = some (0x36, []) := by
  decide +kernel

/-- R183: one error of value 0x5A in the last byte, whose location is 1, has every syndrome 0x5A. -/
theorem test_rs_decode_error_value : location 254 = 0x01 ∧
    rsErrorValue (List.replicate 32 0x5A) [254] 254 = 0x5A := by decide +kernel

/-- L2.5: 254 bytes. -/
theorem test_rs_decode_length : output (exec .rsDecode (given (List.replicate 254 0) 0 0 0)) = some (0x36, []) := by
  decide +kernel

/-- L2.6 and R203. -/
theorem test_bch_encode : output (exec .bchEncode (given [0x41, 0x04, 0x10, 0x41, 0x04, 0x10, 0x40] 0 0 0)) =
    some (0x02, [0x41, 0x04, 0x10, 0x41, 0x04, 0x10, 0x40, 0xE4]) := by decide +kernel

/-- L2.6: the check bytes of a block under both variants. -/
theorem test_bch_check_variants :
    bchCheck .ccsds231 [0x01, 0x23, 0x45, 0x67, 0x89, 0xAB, 0xCD] = 0x90 ∧
    bchCheck .docG8 [0x01, 0x23, 0x45, 0x67, 0x89, 0xAB, 0xCD] = 0x5A := by decide +kernel

/-- L2.6. -/
theorem test_bch_decode : output (exec .bchDecode (given [0x41, 0x04, 0x10, 0x41, 0x04, 0x10, 0x40, 0xE4] 0 0 0)) =
    some (0x02, [0x41, 0x04, 0x10, 0x41, 0x04, 0x10, 0x40]) := by decide +kernel

/-- L2.6: the filler bit flipped. -/
theorem test_bch_decode_filler : output (exec .bchDecode
    (given [0x41, 0x04, 0x10, 0x41, 0x04, 0x10, 0x40, 0xE5] 0 0 0)) = some (0x46, []) := by decide +kernel

/-- L2.7: an empty input makes one block of filler. -/
theorem test_cltu_encode_empty : output (exec .cltuEncode (given [] 0 0 0)) =
    some (0x02, [0xEB, 0x90, 0x55, 0x55, 0x55, 0x55, 0x55, 0x55, 0x55, 0xD6, 0xC5, 0xC5, 0xC5, 0xC5, 0xC5, 0xC5, 0xC5,
      0xC5]) := by decide +kernel

/-- L2.7: 8 bytes, randomized. -/
theorem test_cltu_encode_randomized : output (exec .cltuEncode
    { given [0x10, 0x11, 0x12, 0x13, 0x14, 0x15, 0x16, 0x17] 0 0 0 with cltuRand := true }) =
    some (0x02, [0xEB, 0x90, 0xEF, 0x59, 0x1C, 0xD3, 0x8E, 0x18, 0x66, 0x74, 0xE8, 0x1D, 0x5B, 0x95, 0xCF, 0x58, 0x25,
      0x0A, 0xC5, 0xC5, 0xC5, 0xC5, 0xC5, 0xC5, 0xC5, 0xC5]) := by decide +kernel

/-- L2.7: bytes before the start and after the stop are ignored. -/
theorem test_cltu_decode : output (exec .cltuDecode (given
    [0x00, 0x00, 0xEB, 0xEB, 0x90, 0x41, 0x04, 0x10, 0x41, 0x04, 0x10, 0x40, 0xE4, 0xC5, 0xC5, 0xC5, 0xC5, 0xC5, 0xC5,
      0xC5, 0xC5, 0xAA] 0 0 0)) = some (0x02, [0x41, 0x04, 0x10, 0x41, 0x04, 0x10, 0x40]) := by decide +kernel

/-- L2.7: a ninth C5 makes the span ragged. -/
theorem test_cltu_decode_ragged : output (exec .cltuDecode (given
    [0xEB, 0x90, 0x41, 0x04, 0x10, 0x41, 0x04, 0x10, 0x40, 0xE4, 0xC5, 0xC5, 0xC5, 0xC5, 0xC5, 0xC5, 0xC5, 0xC5,
      0xC5] 0 0 0)) = some (0x16, []) := by decide +kernel

/-- L2.1: a field that spans bytes 0 and 1. -/
theorem test_bf_extract : inputAfter (exec .bfExtract (given [0xA5, 0xC3, 0xF0, 0x0F] 7 2 0)) =
    some (0x02, 3, [0xA5, 0xC3, 0xF0, 0x0F]) := by decide +kernel

/-- L2.1: no overflow in `off + w`. -/
theorem test_bf_extract_range : inputAfter (exec .bfExtract (given [0xA5, 0xC3, 0xF0, 0x0F] 0xFFFFFFFF 32 7)) =
    some (0x16, 7, [0xA5, 0xC3, 0xF0, 0x0F]) := by decide +kernel

/-- L2.1. -/
theorem test_bf_insert : inputAfter (exec .bfInsert (given [0xA5, 0xC3, 0xF0, 0x0F] 7 2 0)) =
    some (0x02, 0, [0xA4, 0x43, 0xF0, 0x0F]) := by decide +kernel

/-- L2.1: a value that does not fit the width. -/
theorem test_bf_insert_value : inputAfter (exec .bfInsert (given [0xA5, 0xC3, 0xF0, 0x0F] 3 5 0x20)) =
    some (0x26, 0x20, [0xA5, 0xC3, 0xF0, 0x0F]) := by decide +kernel

/-! ## The bus and the step -/

/-- L2.0: an illegal word completes with 0x76 and stays in CMD. -/
theorem test_illegal_word : (match step (busy 0 0x00000104 []) with
    | .next t => some (t.status.word, t.cmd)
    | _ => none) = some (0x76, 0x00000104) := by decide

/-- R56: the byte at the lowest index is bits [31:24]. -/
theorem test_word_read : (busAccess { kind := .read, offset := 0x1000, width := 4, data := 0 }
    (given [0xA5, 0xC3, 0xF0, 0x0F] 0 0 0)).1 = .data 0xA5C3F00F := by decide +kernel

/-- L2.0: a write while busy is ignored. -/
theorem test_busy_write : (busAccess { kind := .write, offset := 0x014, width := 4, data := 7 }
    (busy 1 0x00000004 [])).2.arg0 = 0 := by decide

/-- R79: the encoding of `RUN RS_ENCODE`. -/
theorem test_run_rs_encode : (Stmt.run .rsEncode).expand =
    [.access { kind := .write, offset := 0x000, width := 4, data := 0x00000004 }, .wait] := by decide

/-- P4: `SETASM 1ACFFC1E`. -/
theorem test_setasm : (Stmt.setasm [0x1A, 0xCF, 0xFC, 0x1E]).expand =
    [.access { kind := .write, offset := 0x020, width := 4, data := 0x00000004 },
      .access { kind := .write, offset := 0x024, width := 4, data := 0x1ACFFC1E },
      .access { kind := .write, offset := 0x028, width := 4, data := 0x00000000 }] := by decide

/-- L2.1: the TM header vector, read with the map of R123. -/
theorem test_tm_header : tmHeader.map (fun f => f.get [0x1A, 0x5B, 0x12, 0x34, 0x1F, 0xFE]) =
    [0, 0x1A5, 5, 1, 0x12, 0x34, 0, 0, 0, 3, 0x7FE] := by decide +kernel

/-- L2.1: the AOS header vector, read with the map of R124. -/
theorem test_aos_header : aosHeader.map (fun f => f.get [0x56, 0xBF, 0x12, 0x34, 0x56, 0x00]) =
    [1, 0x5A, 63, 0x123456, 0, 0, 0, 0] := by decide +kernel

/-- L1.3 (a): the TC header, read with the map of R125. -/
theorem test_tc_header : tcHeader.map (fun f => f.get [0x00, 0xAB, 0x14, 0x1F, 0xCD]) =
    [0, 0, 0, 0, 0xAB, 5, 31, 0xCD] := by decide +kernel

/-! ## Witnesses: for each statement with hypotheses, states and operands that meet them all -/

/-- The illegal words at the edges of the two conditions, and a state about to run one. -/
theorem witness_IllegalWordsCompleteWithIllegalCommand :
    (∃ e, decode 0x0000000D = .error e) ∧ (∃ e, decode 0x00000100 = .error e) ∧ ∃ i, decode 0x0000000C = .ok i :=
  ⟨⟨.reservedOpcode, by decide⟩, ⟨.reservedBits, by decide⟩, .move, by decide⟩

theorem witness_StepRunsTheDecodedCommand :
    (∃ (s : State) (f : InFlight) (i : Instr), s.inFlight = some f ∧ f.delay = 0 ∧ decode f.word = .ok i) ∧
    ∃ (s : State) (f : InFlight) (e : Illegal), s.inFlight = some f ∧ f.delay = 0 ∧ decode f.word = .error e :=
  ⟨⟨busy 0 0x00000004 [], _, .rsEncode, rfl, rfl, by decide⟩, busy 0 0x0000000D [], _, .reservedOpcode, rfl, rfl,
    by decide⟩

theorem witness_StepElseIsTheHostsTurn :
    (∃ s : State, s.inFlight = none) ∧ ∃ (s : State) (f : InFlight), s.inFlight = some f ∧ f.delay ≠ 0 :=
  ⟨⟨State.reset, rfl⟩, busy 1 0x00000004 [], _, rfl, by decide⟩

/-- A busy state that meets the invariant and steps. -/
theorem busy_invariant : MachineInv (busy 1 0x00000004 [.wait]) where
  status := .inr (.inl rfl)
  busy := rfl
  word := fun _ h => by
    cases h
    rfl
  latched := fun _ h => by
    cases h
    rfl
  ibuf := by decide
  obuf := by decide
  olen := by decide
  output := fun i => by simp [busy, acceptFor, State.reset, Memory.unwritten, lookupCell]

theorem witness_EveryStepKeepsTheInvariant : ∃ s t : State, MachineInv s ∧ step s = .next t ∧ t ≠ s :=
  ⟨busy 1 0x00000004 [.wait], _, busy_invariant, rfl, by decide⟩

theorem witness_StatusOfTheInvariant : ∃ s : State, MachineInv s ∧ s.status.busy = true :=
  ⟨busy 1 0x00000004 [.wait], busy_invariant, rfl⟩

/-- Each clause of ASM_ATTACH's chain, at its edge. -/
theorem witness_AsmAttachPrependsTheMarker :
    (lengths 4097 0 4).inputs.ilen.toNat = 4097 ∧ (lengths 4096 0 9).inputs.asmLen.toNat = 9 ∧
    (lengths 4096 0 0).inputs.asmLen.toNat = 0 ∧
    (lengths 4093 0 4).inputs.ilen.toNat + (lengths 4093 0 4).inputs.asmLen.toNat = 4097 ∧
    (lengths 4088 0 8).inputs.ilen.toNat + (lengths 4088 0 8).inputs.asmLen.toNat = 4096 := by decide

/-- Each clause of ASM_DETACH's chain, at its edge. -/
theorem witness_AsmDetachStripsTheMarker :
    (lengths 4097 0 4).inputs.ilen.toNat = 4097 ∧ (lengths 4096 0 9).inputs.asmLen.toNat = 9 ∧
    (lengths 3 0 4).inputs.ilen.toNat = 3 ∧
    (given [0x1A, 0xCF, 0xFC, 0x1E] 0 0 0).inputs.ibuf.byte 3 ≠ asmByte (given [0x1A, 0xCF, 0xFC, 0x1E] 0 0 0).inputs 3 ∧
    ∀ i, i < 4 → (given [0x1A, 0xCF, 0xFC, 0x1D] 0 0 0).inputs.ibuf.byte i =
      asmByte (given [0x1A, 0xCF, 0xFC, 0x1D] 0 0 0).inputs i := by decide +kernel

theorem witness_MarkerBytesOfThePatternRegisters : (3 : Nat) < 4 ∧ (4 : Nat) ≤ 4 ∧ (7 : Nat) < 8 := by decide

/-- Each clause of RAND's chain, at its edge. -/
theorem witness_RandExclusiveOrsOneRun :
    (lengths 4097 0 4).inputs.ilen.toNat = 4097 ∧
    (given [0] 1 0 0).inputs.arg0.toNat > (given [0] 1 0 0).inputs.arg1.toNat ∧
    (given [0] 0 2 0).inputs.arg1.toNat = (given [0] 0 2 0).inputs.ilen.toNat + 1 ∧
    (given [0] 1 1 0).inputs.arg1.toNat = (given [0] 1 1 0).inputs.ilen.toNat := by decide

/-- Each clause of RS_ENCODE's chain, at its edge. -/
theorem witness_RsEncodeAppendsTheRemainder :
    (lengths 4097 0 4).inputs.ilen.toNat = 4097 ∧ (lengths 224 0 4).inputs.ilen.toNat = 224 ∧
    (lengths 223 0 4).inputs.ilen.toNat = 223 := by decide

/-- 16 errors against the zero codeword. -/
def sixteenErrors : List Byte := List.replicate 239 0 ++ List.replicate 16 1

/-- A block whose first 16 syndromes are 0, and another is not: the product of `x - alpha^(112+j)`, `j` in 0..15. -/
def uncorrectable : List Byte :=
  List.replicate 238 0 ++ [1, 247, 202, 165, 35, 73, 153, 226, 218, 240, 37, 13, 11, 208, 247, 59, 204]

theorem uncorrectable_syndromes :
    (∀ j, j < 16 → syndrome uncorrectable j = 0) ∧ syndrome uncorrectable 16 ≠ 0 := by
  unfold syndrome uncorrectable
  simp only [evalHigh_zeros_append]
  decide +kernel

/-- No codeword lies within 16 errors of it. -/
theorem uncorrectable_far (c : List Byte) (hc : isCodeword c = true) : distance c uncorrectable > 16 := by
  by_contra hle
  have hl : uncorrectable.length = 255 := by decide +kernel
  obtain ⟨hcl, hc0⟩ := (isCodeword_iff c).1 hc
  rw [distance_eq_length c _ hcl hl] at hle
  have h := weights_eq_zero 255 16
    (fun i => gmul (c.getD i 0 ^^^ uncorrectable.getD i 0) (gpow (location i) rsFcr)) location
    (errorPositions c uncorrectable) (by omega)
    (fun i hi hf => by
      rw [mem_errorPositions]
      refine ⟨hi, fun h => hf ?_⟩
      simp only [h, byte_xor_self, zero_gmul])
    (fun i hi j hj h => location_injOn hi ((mem_errorPositions _ _ _).1 hj).1 h)
    (fun j hj => by
      have h := syndrome_of_errors c uncorrectable hc hl j (by omega)
      rw [uncorrectable_syndromes.1 j hj] at h
      refine Eq.trans (xorSum_congr fun i _ => ?_) h.symm
      rw [gpow_add, gmul_assoc])
  refine uncorrectable_syndromes.2 ?_
  rw [syndrome_of_errors c uncorrectable hc hl 16 (by omega)]
  refine xorSum_zero fun i hi => ?_
  rcases gmul_eq_zero (h i hi) with h | h
  · rw [h, zero_gmul]
  · exact absurd h (gpow_ne_zero (location_ne_zero i) _)

/-- Each clause of RS_DECODE's chain: the lengths, a block 16 errors from a codeword, and one with no codeword within
16 errors. -/
theorem witness_RsDecodeIsBoundedDistance :
    (lengths 4097 0 4).inputs.ilen.toNat = 4097 ∧ (lengths 254 0 4).inputs.ilen.toNat = 254 ∧
    (∃ (s : State) (c : List Byte), s.inputs.ilen.toNat = 255 ∧ isCodeword c = true ∧
      distance c s.inputs.string = 16) ∧
    ∃ s : State, s.inputs.ilen.toNat = 255 ∧ ∀ c, isCodeword c = true → distance c s.inputs.string > 16 := by
  refine ⟨by decide, by decide, ⟨given sixteenErrors 0 0 0, List.replicate 255 0, by decide +kernel, isCodeword_zero,
    by decide +kernel⟩, given uncorrectable 0 0 0, by decide +kernel, fun c hc => ?_⟩
  have : (given uncorrectable 0 0 0).inputs.string = uncorrectable := by decide +kernel
  rw [this]
  exact uncorrectable_far c hc

/-- Each clause of BCH_ENCODE's chain, at its edge. -/
theorem witness_BchEncodeAppendsTheCheckByte :
    (lengths 4097 0 4).inputs.ilen.toNat = 4097 ∧ (lengths 8 0 4).inputs.ilen.toNat = 8 ∧
    (lengths 7 0 4).inputs.ilen.toNat = 7 := by decide

/-- Each clause of BCH_DECODE's chain, at its edge. -/
theorem witness_BchDecodeChecksAndStrips :
    (lengths 4097 0 4).inputs.ilen.toNat = 4097 ∧ (lengths 7 0 4).inputs.ilen.toNat = 7 ∧
    (given [0, 0, 0, 0, 0, 0, 0, 0xFF] 0 0 0).inputs.ibuf.byte 7 ≠
      bchCheck Config.bchVariant ((given [0, 0, 0, 0, 0, 0, 0, 0xFF] 0 0 0).inputs.ibuf.bytes 7) ∧
    (given [0, 0, 0, 0, 0, 0, 0, 0xFE] 0 0 0).inputs.ibuf.byte 7 =
      bchCheck Config.bchVariant ((given [0, 0, 0, 0, 0, 0, 0, 0xFE] 0 0 0).inputs.ibuf.bytes 7) := by decide +kernel

/-- Each clause of CLTU_ENCODE's chain, at its edge: 3571 bytes make 511 blocks, 3570 make 510. -/
theorem witness_CltuEncodeFramesTheInput :
    (lengths 4097 0 4).inputs.ilen.toNat = 4097 ∧
    2 + 8 * max 1 (((lengths 3571 0 4).inputs.ilen.toNat + 6) / 7) + 8 = 4098 ∧
    2 + 8 * max 1 (((lengths 3570 0 4).inputs.ilen.toNat + 6) / 7) + 8 = 4090 := by decide

/-- Each clause of CLTU_DECODE: no start, no stop, an empty span, a ragged span, a bad codeword, a good one. -/
theorem witness_CltuDecodeUnwrapsTheInput :
    (lengths 4097 0 4).inputs.ilen.toNat = 4097 ∧
    (∀ i, ¬ StandsAt [0xEB, 0x90] [0xEB] i) ∧
    (FirstStart [0xEB, 0x90] 0 ∧ ∀ j, 0 + 2 ≤ j → ¬ StandsAt (List.replicate 8 0xC5) [0xEB, 0x90] j) ∧
    (FirstStart ([0xEB, 0x90] ++ List.replicate 8 0xC5) 0 ∧
      LastStop ([0xEB, 0x90] ++ List.replicate 8 0xC5) 0 2) ∧
    (FirstStart ([0xEB, 0x90] ++ List.replicate 9 0xC5) 0 ∧
      LastStop ([0xEB, 0x90] ++ List.replicate 9 0xC5) 0 3) ∧
    ¬ CodewordGood Config.bchVariant [0, 0, 0, 0, 0, 0, 0, 0xFF] ∧
    CodewordGood Config.bchVariant [0, 0, 0, 0, 0, 0, 0, 0xFE] := by
  refine ⟨by decide, fun i h => ?_, ⟨⟨by unfold StandsAt; decide, fun i h => by omega⟩, fun j hj h => ?_⟩,
    ⟨⟨by unfold StandsAt; decide, fun i h => by omega⟩, by decide, by unfold StandsAt; decide, fun j hj h => ?_⟩,
    ⟨⟨by unfold StandsAt; decide, fun i h => by omega⟩, by decide, by unfold StandsAt; decide, fun j hj h => ?_⟩,
    by decide +kernel, by decide +kernel⟩
  all_goals
    have := congrArg List.length h
    simp at this
    omega

/-- Each clause of BF_EXTRACT's chain, at its edge. -/
theorem witness_BfExtractUnpacksTheField :
    (lengths 4097 0 4).inputs.ilen.toNat = 4097 ∧ (given [0] 0 0 0).inputs.arg1.toNat = 0 ∧
    (given [0] 0 33 0).inputs.arg1.toNat = 33 ∧
    (given [0] 1 8 0).inputs.arg0.toNat + (given [0] 1 8 0).inputs.arg1.toNat =
      8 * (given [0] 1 8 0).inputs.ilen.toNat + 1 ∧
    (given [0] 7 1 0).inputs.arg0.toNat + (given [0] 7 1 0).inputs.arg1.toNat =
      8 * (given [0] 7 1 0).inputs.ilen.toNat := by decide

/-- Each clause of BF_INSERT's chain, at its edge. -/
theorem witness_BfInsertPacksTheField :
    (lengths 4097 0 4).inputs.ilen.toNat = 4097 ∧ (given [0] 0 0 0).inputs.arg1.toNat = 0 ∧
    (given [0] 0 33 0).inputs.arg1.toNat = 33 ∧
    (given [0] 0 5 0x20).inputs.value.toNat = 2 ^ (given [0] 0 5 0x20).inputs.arg1.toNat ∧
    (given [0] 1 8 0).inputs.arg0.toNat + (given [0] 1 8 0).inputs.arg1.toNat =
      8 * (given [0] 1 8 0).inputs.ilen.toNat + 1 ∧
    (given [0] 7 1 1).inputs.arg0.toNat + (given [0] 7 1 1).inputs.arg1.toNat =
      8 * (given [0] 7 1 1).inputs.ilen.toNat := by decide

theorem witness_InsertAndExtractAreInverse : ∃ s : State, s.inputs = latch s ∧ s.ilen.toNat ≤ 4096 ∧
    1 ≤ s.arg1.toNat ∧ s.arg1.toNat ≤ 32 ∧ s.arg0.toNat + s.arg1.toNat = 8 * s.ilen.toNat ∧
    s.value.toNat < 2 ^ s.arg1.toNat :=
  ⟨given [0xA5, 0xC3, 0xF0, 0x0F] 31 1 1, rfl, by decide, by decide, by decide, by decide, by decide⟩

theorem witness_DetachUndoesAttach : ∃ s : State, s.inputs = latch s ∧ 1 ≤ s.asmLen.toNat ∧ s.asmLen.toNat = 8 ∧
    s.ilen.toNat + s.asmLen.toNat = 4096 :=
  ⟨lengths 4088 0 8, rfl, by decide, by decide, by decide⟩

theorem witness_RandIsSelfInverse : ∃ s : State, s.inputs = latch s ∧ s.ilen.toNat = 4096 ∧
    s.arg0.toNat ≤ s.arg1.toNat ∧ s.arg1.toNat ≤ s.ilen.toNat :=
  ⟨{ lengths 4096 0 4 with arg0 := 1, arg1 := 4096 }, rfl, by decide, by decide, by decide⟩

/-- For an output command two states with different outputs, and for MOVE two that differ in what no command reads. -/
theorem witness_ResultsDependOnlyOnTheInputs :
    (∃ s s' t t' : State, s.inputs = s'.inputs ∧ s.olen ≠ s'.olen ∧ exec .asmAttach s = .next t ∧
      exec .asmAttach s' = .next t' ∧ s.value = s'.value ∧ s.ilen = s'.ilen ∧ ∀ j, s.ibuf.byte j = s'.ibuf.byte j) ∧
    (∃ s s' t t' : State, s ≠ s' ∧ s.inputs = s'.inputs ∧ SameOutput s s' ∧ exec .move s = .next t ∧
      exec .move s' = .next t') ∧
    ∃ s s' t t' : State, s.inputs = s'.inputs ∧ s.olen ≠ s'.olen ∧ exec .bfExtract s = .next t ∧
      exec .bfExtract s' = .next t' ∧ t.status.err = false :=
  ⟨⟨lengths 0 0 4, lengths 0 3 4, _, _, rfl, by decide, rfl, rfl, rfl, rfl, fun _ => rfl⟩,
    ⟨State.reset, { State.reset with status := Status.failed .checksum, draws := 9 }, _, _, by decide, rfl,
      ⟨rfl, fun _ _ => rfl⟩, rfl, rfl⟩,
    given [0xA5] 0 8 0, { given [0xA5] 0 8 0 with olen := 3 }, _, _, rfl, by decide, rfl, rfl, rfl⟩

theorem witness_LfsrFollowsItsRecurrence : (7 : Nat) < 8 ∧ (254 : Nat) < 255 := by decide

theorem witness_SequenceHasPeriod255 : (0 : Nat) < 254 ∧ (254 : Nat) < 255 := by decide

theorem witness_FieldOfTheGenerator0x11D : (0xFF : Byte) ≠ 0 := by decide

theorem witness_EncoderOutputIsACodeword : ∃ d : List Byte, d.length = 223 :=
  ⟨List.replicate 223 0xFF, by decide +kernel⟩

theorem witness_EncodingIsLinear : ∃ d e : List Byte, d.length = 223 ∧ e.length = 223 :=
  ⟨List.replicate 223 0xFF, List.replicate 223 1, by decide +kernel, by decide +kernel⟩

/-- Two codewords: zero, and the generator. -/
theorem witness_DistinctCodewordsDifferIn33Positions :
    ∃ c c' : List Byte, isCodeword c = true ∧ isCodeword c' = true ∧ c ≠ c' := by
  refine ⟨List.replicate 255 0, List.replicate 222 0 ++ rsGenerator, isCodeword_zero, ?_, by decide +kernel⟩
  rw [isCodeword_iff]
  refine ⟨by decide +kernel, fun j hj => ?_⟩
  rw [syndrome, evalHigh_zeros_append]
  exact rsGenerator_roots j hj

/-- 16 errors in the check bytes of a codeword, and a block with no codeword within 16 errors. -/
theorem witness_DecodingRecoversFromSixteenErrors :
    (∃ d r : List Byte, d.length = 223 ∧ r.length = 255 ∧ distance (d ++ rsParity d) r = 16) ∧
    ∃ r : List Byte, r.length = 255 ∧ ∀ c, isCodeword c = true → distance c r > 16 :=
  ⟨⟨List.replicate 223 0, sixteenErrors, by decide +kernel, by decide +kernel, by
    rw [rsParity_zero]
    decide +kernel⟩, uncorrectable, by decide +kernel, uncorrectable_far⟩

theorem witness_CheckByteIsThePolynomialRemainder : ∃ (b : List Byte) (i : Nat), b.length = 7 ∧ i < 56 :=
  ⟨[0x41, 0x04, 0x10, 0x41, 0x04, 0x10, 0x40], 55, by decide, by decide⟩

theorem witness_SerialCheckEqualsThePolynomialOne : ∃ b : List Byte, b.length = 7 :=
  ⟨[0x41, 0x04, 0x10, 0x41, 0x04, 0x10, 0x40], by decide⟩

/-- A good codeword with an error of 3 bits, one with an error of 2 bits, and an error in the check byte alone. -/
theorem witness_BchDetectsSmallErrors :
    (∃ c e : List Byte, c.length = 8 ∧ e.length = 8 ∧ CodewordGood .ccsds231 c ∧ bitsSet e = 3) ∧
    (∃ c e : List Byte, c.length = 8 ∧ e.length = 8 ∧ CodewordGood .docG8 c ∧ bitsSet e = 2) ∧
    ∃ (v : Config.BchVariant) (c e : List Byte), c.length = 8 ∧ e.length = 8 ∧ CodewordGood v c ∧
      e.take 7 = List.replicate 7 0 ∧ e.getD 7 0 ≠ 0 :=
  ⟨⟨[0x41, 0x04, 0x10, 0x41, 0x04, 0x10, 0x40, 0xE4], [0x80, 0, 0, 0, 0, 0, 1, 1], by decide, by decide,
      by decide +kernel, by decide +kernel⟩,
    ⟨[0x41, 0x04, 0x10, 0x41, 0x04, 0x10, 0x40, 0xD7], [0x80, 0, 0, 0, 0, 0, 0, 1], by decide, by decide,
      by decide +kernel, by decide +kernel⟩,
    .ccsds231, [0x41, 0x04, 0x10, 0x41, 0x04, 0x10, 0x40, 0xE4], [0, 0, 0, 0, 0, 0, 0, 1], by decide, by decide,
      by decide +kernel, by decide, by decide⟩

/-- The longest input, with a last byte other than 0x55, and the strings of the codec's clauses. -/
theorem witness_CltuRoundTrip :
    (∃ s : State, s.inputs = latch s ∧ s.ilen.toNat = 3570 ∧ s.ibuf.byte (s.ilen.toNat - 1) ≠ 0x55) ∧
    (∃ d : List Byte, d.length = 3570 ∧ d.getD (d.length - 1) 0 ≠ 0x55) ∧
    ∃ d : List Byte, d.length ≤ 3570 ∧ d.getD (d.length - 1) 0 = 0x55 :=
  ⟨⟨{ lengths 3570 0 4 with ibuf := (Memory.unwritten 0).write 3569 0 }, rfl, by decide, by decide⟩,
    ⟨List.replicate 3570 0, List.length_replicate, by
      rw [List.length_replicate, List.getD_eq_getElem _ _ (by rw [List.length_replicate]; decide),
        List.getElem_replicate]
      decide⟩, [1, 0x55], by decide, by decide⟩

/-- An idle block, and the register with the narrowest write. -/
theorem witness_RegistersReadBackWhatWasWritten : ∃ s : State, s.status.busy = false ∧
    (Reg.ctrl, (0x00000001 : Word)) ∈ [(Reg.ctrl, (0x00000001 : Word)), (.ilen, 0x0000FFFF)] :=
  ⟨State.reset, rfl, by decide⟩

/-- The first and the last reserved offset, and the first and the last word of OBUF. -/
theorem witness_ReservedAndReadOnlyLocationsIgnoreWrites :
    (0x02C ≤ 0x02C ∧ 0x02C < 0x1000 ∧ 0x02C % 4 = 0) ∧ (0x02C ≤ 0xFFC ∧ 0xFFC < 0x1000 ∧ 0xFFC % 4 = 0) ∧
    (0 < 4096 ∧ 0 % 4 = 0) ∧ 4092 < 4096 ∧ 4092 % 4 = 0 := by decide

/-- A byte access of the last register offset, and a 16-bit access of the last buffer word. -/
theorem witness_OtherAccessesAreBusErrors :
    ∀ a ∈ [({ kind := .read, offset := 0xFFF, width := 1, data := 0 } : Access),
        { kind := .write, offset := 0x2FFE, width := 2, data := 0 },
        { kind := .read, offset := 0x1001, width := 4, data := 0 }],
      a.offset < 0x3000 ∧ ¬ (a.offset < 0x1000 ∧ a.width = 4 ∧ a.offset % 4 = 0) ∧
        ¬ (0x1000 ≤ a.offset ∧ (a.width = 1 ∨ a.width = 4 ∧ a.offset % 4 = 0)) := by decide

/-- A legal read and a legal write at the edges of the three regions, a queue that begins with an access, and an access
just outside the window. -/
theorem witness_LegalAccessesArePerformed :
    (∃ a b : Access, a.kind = .read ∧ a.offset = 0xFFC ∧ b.kind = .write ∧ b.offset = 0x000 ∧
      (∀ c ∈ [a, b], c.offset < 0x1000 ∧ c.width = 4 ∧ c.offset % 4 = 0)) ∧
    (∃ a b : Access, a.kind = .read ∧ a.offset = 0x2FFF ∧ b.kind = .write ∧ b.offset = 0x1000 ∧
      (∀ c ∈ [a, b], 0x1000 ≤ c.offset ∧ c.offset < 0x3000 ∧ (c.width = 1 ∨ c.width = 4 ∧ c.offset % 4 = 0))) ∧
    (∃ (s : State) (a : Access) (rest : List HostEvent), s.host = .access a :: rest) ∧
    ∃ a : Access, a.offset = 0x3000 :=
  ⟨⟨{ kind := .read, offset := 0xFFC, width := 4, data := 0 }, { kind := .write, offset := 0x000, width := 4, data := 1 },
      rfl, rfl, rfl, rfl, by decide⟩,
    ⟨{ kind := .read, offset := 0x2FFF, width := 1, data := 0 },
      { kind := .write, offset := 0x1000, width := 4, data := 1 }, rfl, rfl, rfl, rfl, by decide⟩,
    ⟨State.reset.withProgram [.setlen 7], _, [], rfl⟩,
    { kind := .read, offset := 0x3000, width := 4, data := 0 }, rfl⟩

/-- R100 through the step: the host's write of a command to CMD of an idle block leaves the block busy with it. -/
theorem test_step_starts_the_command_the_host_writes :
    (match step (State.reset.withProgram [.cmd .rsEncode]) with
      | .next t => some (t.status.word, t.cmd, t.inFlight.map InFlight.word, t.host)
      | _ => none) = some (0x00000001, 0x00000004, some 0x00000004, []) := rfl

theorem witness_ReadsHaveNoSideEffects : ∃ a : Access, a.kind = .read ∧ a.wellFormed = true :=
  ⟨{ kind := .read, offset := 0x2FFF, width := 1, data := 0 }, rfl, by decide⟩

theorem witness_BufferWordsAreBigEndian : ∃ (s : State) (k j i : Nat), s.status.busy = false ∧ k < 1024 ∧ j < 4 ∧
    (i < 4 * k ∨ 4 * k + 4 ≤ i) :=
  ⟨State.reset, 1023, 3, 4096, rfl, by decide, by decide, by decide⟩

theorem witness_MixedWidthAccessesAgree : ∃ (s : State) (i i' k j : Nat), s.status.busy = false ∧ i < 4096 ∧
    i' ≠ i ∧ k < 1024 ∧ j < 4 :=
  ⟨State.reset, 4095, 4094, 1023, 3, rfl, by decide, by decide, by decide, by decide⟩

theorem witness_AcceptanceLatchesTheInputs : ∃ s : State, s.status.busy = false := ⟨State.reset, rfl⟩

theorem witness_BusyWritesAreLost : ∃ (s : State) (a : Access), s.status.busy = true ∧ a.kind = .write ∧
    a.wellFormed = true :=
  ⟨busy 1 0x00000004 [], { kind := .write, offset := 0x1FFF, width := 1, data := 0xA5 }, rfl, rfl, by decide⟩

/-- OLEN of an idle block, an exact register of a busy one, the two kinds of location that read freely, of two busy
states that draw alike, and OLEN of a busy block. -/
theorem witness_BusyReadsAreExactOrUnspecified :
    (∃ s : State, s.status.busy = false) ∧
    (∃ (s : State) (r : Reg), s.status.busy = true ∧
      r ∈ [Reg.cmd, .status, .ctrl, .arg0, .arg1, .asmLen, .asmPat0, .asmPat1]) ∧
    (∃ (s s' : State) (a b : Access), s ≠ s' ∧ s.status.busy = true ∧ s'.status.busy = true ∧ s.draws = s'.draws ∧
      a.kind = .read ∧ a.offset ∈ [0x00C, 0x010, 0x01C] ∧ b.kind = .read ∧ 0x1000 ≤ b.offset) ∧
    ∃ (s : State) (r : Reg), s.status.busy = true ∧ r ∈ [Reg.ilen, .olen] :=
  ⟨⟨State.reset, rfl⟩, ⟨busy 1 0x00000004 [], .status, rfl, by decide⟩, ⟨busy 1 0x00000004 [], busy 1 0x00000006 [],
    { kind := .read, offset := 0x010, width := 4, data := 0 },
    { kind := .read, offset := 0x1000, width := 1, data := 0 }, by decide, rfl, rfl, rfl, rfl, by decide, rfl,
    by decide⟩, busy 1 0x00000004 [], .olen, rfl, by decide⟩

theorem witness_EveryAcceptedCommandCompletes : ∃ (s : State) (f : InFlight), s.inFlight = some f ∧
    s.status.busy = true ∧ s.host ≠ [] ∧ ∀ e ∈ s.host, e.undisturbed = true :=
  ⟨busy 2 0x00000004 [writeAccess .cmd 0x00000006, .wait], _, rfl, rfl, by decide, by decide⟩

theorem witness_WaitReadsStatusUntilIdle : ∃ (s s' : State) (rest : List HostEvent), s.host = .wait :: rest ∧
    s.status.busy = true ∧ s'.host = .wait :: rest ∧ s'.status.busy = false :=
  ⟨busy 2 0x00000004 [.wait], { State.reset with host := [.wait] }, [], rfl, rfl, rfl, rfl⟩

theorem witness_HostProgramsMakeLegalAccesses : ∃ st : Stmt, st.wellFormed = true ∧ st.expand ≠ [] :=
  ⟨.storeb 4095 0xFF, by decide, by decide⟩

/-- A block in the middle of a command, and an idle one. -/
theorem witness_ResetAbandonsTheCommand : ∃ (s s' : State) (rest : List HostEvent), readyWord s = none ∧
    s.host = .reset :: rest ∧ s.inFlight ≠ none ∧ readyWord s' = none ∧ s'.host = .reset :: rest :=
  ⟨busy 3 0x00000004 [.reset], { State.reset with host := [.reset] }, [], by decide, rfl, by decide, by decide, rfl⟩

end Sys2Proof.Machine.Tests
end

section
/-! SUPPORT. The commands by kind: the nine whose result is a byte string for OBUF, the field write that depends on IBUF
only for the bytes it leaves, and the errors of the two field commands. -/

namespace Sys2Proof.Machine

/-- The rule of a command whose result is a byte string for OBUF; `none` for NOP, MOVE, BF_EXTRACT and BF_INSERT, which
leave OBUF alone. -/
def outputRule : Instr → Option (Inputs → Except ErrorKind (List Byte))
  | .asmAttach => some asmAttach
  | .asmDetach => some asmDetach
  | .rand => some rand
  | .rsEncode => some rsEncode
  | .rsDecode => some rsDecode
  | .bchEncode => some (bchEncode Config.bchVariant)
  | .bchDecode => some (bchDecode Config.bchVariant)
  | .cltuEncode => some (cltuEncode Config.bchVariant)
  | .cltuDecode => some (cltuDecode Config.bchVariant)
  | .nop | .bfExtract | .bfInsert | .move => none

/-- A command with a rule for OBUF ends in the completion of its result; before that, only working registers and the
draw count have changed (R103, R107). -/
theorem exec_of_outputRule {i : Instr} {rule : Inputs → Except ErrorKind (List Byte)} (h : outputRule i = some rule)
    (s : State) : ∃ w n, exec i s = .next (finishOutput (rule s.inputs) { s with work := w, draws := n }) := by
  cases i <;> cases h <;> exact ⟨_, _, rfl⟩

/-- What such a command gives fits OBUF, and its errors are kinds the block raises (R28, R230). -/
theorem outputRule_fits {i : Instr} {rule : Inputs → Except ErrorKind (List Byte)} (h : outputRule i = some rule)
    (inp : Inputs) : ResultFits (rule inp) := by
  cases i <;> cases h
  case asmAttach => exact asmAttach_fits inp
  case asmDetach => exact asmDetach_fits inp
  case rand => exact rand_fits inp
  case rsEncode => exact rsEncode_fits inp
  case rsDecode => exact rsDecode_fits inp
  case bchEncode => exact bchEncode_fits _ inp
  case bchDecode => exact bchDecode_fits _ inp
  case cltuEncode => exact cltuEncode_fits _ inp
  case cltuDecode => exact cltuDecode_fits _ inp

/-- An error is the length check's or the rule's own (R102). -/
theorem onInput_eq_error {α : Type} {inp : Inputs} {rule : List Byte → Except ErrorKind α} {k : ErrorKind}
    (h : onInput inp rule = .error k) : k = .structural ∨ rule inp.string = .error k := by
  unfold onInput at h
  split at h
  · cases h
    exact .inl rfl
  · exact .inr h

/-- BF_EXTRACT fails with a kind the block raises (R121). -/
theorem bfExtract_error_kind {inp : Inputs} {k : ErrorKind} (h : bfExtract inp = .error k) : k ≠ .builderState := by
  rcases onInput_eq_error h with rfl | h
  · decide
  · split at h
    · cases h
      decide
    · split at h <;> cases h
      decide

/-- Whether BF_INSERT succeeds, and how it fails, rests on the inputs alone; where it succeeds, its field ends inside
IBUF (R122). -/
theorem bfInsert_cases (inp : Inputs) :
    (∃ k, k ≠ .builderState ∧ ∀ m, bfInsert inp m = .error k) ∨
    (inp.arg0.toNat + inp.arg1.toNat ≤ 8 * Config.bufSize ∧
      ∀ m, bfInsert inp m = .ok (insertField m inp.arg0.toNat inp.arg1.toNat inp.value)) := by
  by_cases hlen : inp.ilen.toNat ≤ Config.bufSize
  · simp only [bfInsert, onInput_of_le hlen, Inputs.string_length]
    split
    · exact .inl ⟨_, by decide, fun _ => rfl⟩
    · split
      · exact .inl ⟨_, by decide, fun _ => rfl⟩
      · split
        · exact .inl ⟨_, by decide, fun _ => rfl⟩
        · exact .inr ⟨by omega, fun _ => rfl⟩
  · exact .inl ⟨.structural, by decide, fun m => onInput_of_gt (by omega)⟩

/-- A field write leaves the same bytes in buffers that held the same bytes (R122). -/
theorem byte_insertField_congr {m m' : Memory} (h : ∀ j, m.byte j = m'.byte j) (off w : Nat) (v : Word) (j : Nat) :
    (insertField m off w v).byte j = (insertField m' off w v).byte j :=
  byte_eq_of_bufferBit_eq (fun k => by
    simp only [bufferBit_insertField]
    simp only [bufferBit, h]) j

/-- A string store leaves the same bytes in buffers that held the same bytes. -/
theorem byte_writeBytes_congr {m m' : Memory} (h : ∀ j, m.byte j = m'.byte j) (i : Nat) (bs : List Byte) (j : Nat) :
    (m.writeBytes i bs).byte j = (m'.writeBytes i bs).byte j := by
  simp only [Memory.byte_writeBytes, h]

end Sys2Proof.Machine
end

section
/-! SUPPORT. What the host's reads and writes of registers do (10_state.md): which locations a command may be writing,
what a register reads back, and what one legal write can do to the block. -/

namespace Sys2Proof.Machine

/-- The registers a command may be writing while it is in flight (R101). -/
theorem resultLocation_register (r : Reg) :
    resultLocation r.offset = decide (r ∈ [Reg.ilen, .olen, .value]) := by
  cases r <;> rfl

/-- A reserved offset holds no result (R34). -/
theorem resultLocation_reserved {off : Nat} (h : 0x02C ≤ off) (h' : off < 0x1000) : resultLocation off = false := by
  simp [resultLocation, h', regAt_reserved off h]

/-- Both buffers hold results (R101). -/
theorem resultLocation_buffer {off : Nat} (h : 0x1000 ≤ off) : resultLocation off = true := by
  simp [resultLocation, Nat.not_lt.2 h]

/-- A reserved offset reads 0 (R34). -/
theorem storedValue_reserved {a : Access} (s : State) (h : 0x02C ≤ a.offset) (h' : a.offset < 0x1000) :
    storedValue a s = 0 := by
  simp [storedValue, h', regAt_reserved a.offset h]

/-- A write to a reserved offset is ignored (R34). -/
theorem busWrite_reserved {a : Access} (s : State) (h : 0x02C ≤ a.offset) (h' : a.offset < 0x1000) :
    busWrite a s = s := by
  simp [busWrite, h', regAt_reserved a.offset h]

/-- What a write can do: nothing, or, on an idle block, write one register or store into IBUF. -/
theorem busWrite_cases (a : Access) (s : State) :
    busWrite a s = s ∨
    (s.status.busy = false ∧ ∃ r, busWrite a s = writeReg r a.data s) ∨
    (s.status.busy = false ∧ 0x1000 ≤ a.offset ∧ a.offset < 0x2000 ∧
      busWrite a s = { s with ibuf := bufferWrite s.ibuf (a.offset - 0x1000) a.width a.data }) := by
  cases hb : s.status.busy with
  | true => exact .inl (busWrite_busy a hb)
  | false =>
    by_cases hreg : a.offset < 0x1000
    · cases hr : regAt a.offset with
      | none => exact .inl (by simp [busWrite, hreg, hr])
      | some r => exact .inr (.inl ⟨rfl, r, by simp [busWrite, hb, hreg, hr]⟩)
    · by_cases hin : a.offset < 0x2000
      · exact .inr (.inr ⟨rfl, by omega, hin, busWrite_ibuf a hb (by omega) hin⟩)
      · exact .inl (busWrite_obuf a s (by omega))

/-- A legal store into IBUF stays inside it and keeps it in canonical form (R52, R55). -/
theorem bufferWrite_wf {m : Memory} {a : Access} (hm : m.wf) (hl : a.legal = true) (h : 0x1000 ≤ a.offset)
    (h' : a.offset < 0x2000) : (bufferWrite m (a.offset - 0x1000) a.width a.data).wf := by
  simp only [Access.legal, if_neg (Nat.not_lt.2 h), decide_eq_true_eq] at hl
  unfold bufferWrite
  split
  · exact Memory.wf_write _ hm (by simp only [Config.bufSize]; omega)
  · exact Memory.wf_writeWord _ hm (by simp only [Config.bufSize]; omega)

/-- The bits a host write to a plain read-write register sets (R26, R27, R29 to R33); none of the three others is
plain. -/
def Reg.writeMask : Reg → Word
  | .ctrl => 0x00000001
  | .ilen => 0x0000FFFF
  | .asmLen => 0x0000000F
  | .arg0 | .arg1 | .value | .asmPat0 | .asmPat1 => 0xFFFFFFFF
  | .cmd | .status | .olen => 0

/-- A register of a bit width reads back the low bits of the word written, zero above. -/
theorem setWidth_setWidth_eq_and (v : Word) (n : Nat) (m : Word)
    (hm : ∀ i, i < 32 → m.getLsbD i = decide (i < n)) : (v.setWidth n).setWidth 32 = v &&& m := by
  apply BitVec.eq_of_getLsbD_eq
  intro i hi
  rw [BitVec.getLsbD_and, hm i hi]
  simp [hi, Bool.and_comm]

/-- A plain register reads back what was written, its reserved bits 0 (R20). -/
theorem readReg_writeReg_same {r : Reg} (h : r ∉ [Reg.cmd, .status, .olen]) (v : Word) (s : State) :
    readReg r (writeReg r v s) = v &&& r.writeMask := by
  have full : v = v &&& 0xFFFFFFFF := (BitVec.and_allOnes (x := v)).symm
  cases r
  case ctrl =>
    have bit0 : BitVec.ofBool (v.getLsbD 0) = v.setWidth 1 := by
      apply BitVec.eq_of_getLsbD_eq
      intro i hi
      simp [show i = 0 by omega]
    exact (congrArg (BitVec.setWidth 32) bit0).trans (setWidth_setWidth_eq_and v 1 _ (by decide))
  case ilen => exact setWidth_setWidth_eq_and v 16 _ (by decide)
  case asmLen => exact setWidth_setWidth_eq_and v 4 _ (by decide)
  case arg0 | arg1 | value | asmPat0 | asmPat1 => exact full
  case cmd | status | olen => exact absurd h (by decide)

/-- A write to a register other than CMD changes no other register. -/
theorem readReg_writeReg_other {r r' : Reg} (hcmd : r ≠ .cmd) (h : r' ≠ r) (v : Word) (s : State) :
    readReg r' (writeReg r v s) = readReg r' s := by
  cases r
  case cmd => exact absurd rfl hcmd
  case status | olen => rfl
  -- A plain register is one field, and `r'` reads another.
  all_goals cases r' <;> first | rfl | exact absurd rfl h

/-- What a write to a register other than CMD leaves: STATUS, OLEN, both buffers, the command in flight, the working
state and the model's own fields. -/
structure OutsideRegisters (s t : State) : Prop where
  status : t.status = s.status
  olen : t.olen = s.olen
  ibuf : t.ibuf = s.ibuf
  obuf : t.obuf = s.obuf
  inFlight : t.inFlight = s.inFlight
  work : t.work = s.work
  draws : t.draws = s.draws
  host : t.host = s.host
  reads : t.reads = s.reads

theorem writeReg_outside {r : Reg} (hcmd : r ≠ .cmd) (v : Word) (s : State) :
    OutsideRegisters s (writeReg r v s) := by
  cases r
  case cmd => exact absurd rfl hcmd
  all_goals exact ⟨rfl, rfl, rfl, rfl, rfl, rfl, rfl, rfl, rfl⟩

end Sys2Proof.Machine
end

section
/-! SUPPORT. The machine's invariant: which part of it is about the buffers, what it takes to meet it with no command in
flight, and that each operation a step is made of keeps it. -/

namespace Sys2Proof.Machine

/-- The part of the invariant that is about the buffers and OLEN (R28, R36). -/
structure BuffersCanonical (s : State) : Prop where
  ibuf : s.ibuf.wf
  obuf : s.obuf.wf
  olen : s.olen.toNat ≤ Config.bufSize
  output : ∀ i, (lookupCell s.obuf.cells i).isSome = decide (i < s.olen.toNat)

/-- An OBUF with nothing written agrees with an OLEN of 0 (R40, R235). -/
theorem buffersCanonical_of_unwritten {s : State} {n : Nat} (hi : s.ibuf.wf) (ho : s.obuf = Memory.unwritten n)
    (hl : s.olen = 0) : BuffersCanonical s where
  ibuf := hi
  obuf := ho ▸ Memory.wf_unwritten n
  olen := by simp [hl]
  output := by simp [ho, hl, Memory.unwritten, lookupCell]

theorem MachineInv.buffers {s : State} (h : MachineInv s) : BuffersCanonical s :=
  ⟨h.ibuf, h.obuf, h.olen, h.output⟩

/-- With no command in flight the invariant is about STATUS and the buffers. -/
theorem machineInv_of_idle {s : State} (hf : s.inFlight = none) (hb : s.status.busy = false)
    (hst : StatusLegal s.status) (h : BuffersCanonical s) : MachineInv s where
  status := hst
  busy := by rw [hf, hb]; rfl
  word := by simp [hf]
  latched := by simp [hf]
  ibuf := h.ibuf
  obuf := h.obuf
  olen := h.olen
  output := h.output

/-- An idle block has no command in flight. -/
theorem MachineInv.inFlight_of_idle {s : State} (h : MachineInv s) (hb : s.status.busy = false) :
    s.inFlight = none := by
  simpa [hb] using h.busy

/-- The invariant says nothing of the draw count, the queue and the record. -/
theorem MachineInv.world {s : State} (h : MachineInv s) (n : Nat) (es : List HostEvent) (vs : List Word) :
    MachineInv { s with draws := n, host := es, reads := vs } :=
  ⟨h.status, h.busy, h.word, h.latched, h.ibuf, h.obuf, h.olen, h.output⟩

/-! ## The completions -/

theorem machineInv_succeed {s : State} (h : BuffersCanonical s) : MachineInv (succeed s) :=
  machineInv_of_idle rfl rfl (.inr (.inr (.inl rfl))) ⟨h.ibuf, h.obuf, h.olen, h.output⟩

/-- A failure that leaves OBUF (R235). -/
theorem machineInv_raiseError {s : State} {k : ErrorKind} (hk : k ≠ .builderState) (h : BuffersCanonical s) :
    MachineInv (raiseError false k s) :=
  machineInv_of_idle rfl rfl (.inr (.inr (.inr ⟨k, hk, rfl⟩))) ⟨h.ibuf, h.obuf, h.olen, h.output⟩

/-- The completion of a command that writes OBUF sets OBUF and OLEN together, whatever they held (R36, R103, R235). -/
theorem machineInv_finishOutput {s : State} {r : Except ErrorKind (List Byte)} (hr : ResultFits r)
    (hi : s.ibuf.wf) : MachineInv (finishOutput r s) := by
  cases r with
  | error k =>
    exact machineInv_of_idle rfl rfl (.inr (.inr (.inr ⟨k, hr, rfl⟩)))
      (buffersCanonical_of_unwritten hi rfl rfl)
  | ok out =>
    have hlen : (BitVec.ofNat 16 out.length).toNat = out.length := by
      have : out.length ≤ 4096 := hr
      rw [BitVec.toNat_ofNat, Nat.mod_eq_of_lt (by omega)]
    refine machineInv_of_idle rfl rfl (.inr (.inr (.inl rfl))) ⟨hi, Memory.wf_holding _ hr, ?_, fun i => ?_⟩
    · exact hlen.trans_le hr
    · rw [finishOutput_ok, deliver_olen, deliver_obuf, hlen, lookupCell_holding]

/-! ## The commands -/

theorem machineInv_exec {i : Instr} {s t : State} (hs : BuffersCanonical s) (h : exec i s = .next t) :
    MachineInv t := by
  cases hrule : outputRule i with
  | some rule =>
    obtain ⟨w, n, hexec⟩ := exec_of_outputRule hrule s
    cases hexec.symm.trans h
    exact machineInv_finishOutput (outputRule_fits hrule _) hs.ibuf
  | none =>
    cases i with
    | nop =>
      cases h
      exact machineInv_succeed hs
    | move =>
      cases h
      refine machineInv_succeed ⟨Memory.wf_writeBytes _ hs.ibuf ?_, hs.obuf, hs.olen, hs.output⟩
      simpa using hs.olen
    | bfExtract =>
      simp only [exec, execBfExtract] at h
      split at h <;> cases h
      next => exact machineInv_succeed ⟨hs.ibuf, hs.obuf, hs.olen, hs.output⟩
      next k hk => exact machineInv_raiseError (bfExtract_error_kind hk) hs
    | bfInsert =>
      rcases bfInsert_cases s.inputs with ⟨k, hk, herr⟩ | ⟨hfield, hok⟩
      · simp only [exec, execBfInsert, herr] at h
        cases h
        exact machineInv_raiseError hk hs
      · simp only [exec, execBfInsert, hok] at h
        cases h
        exact machineInv_succeed ⟨insertField_wf _ hs.ibuf hfield, hs.obuf, hs.olen, hs.output⟩
    | _ => cases hrule

theorem machineInv_execWord {w : Word} {s t : State} (hs : BuffersCanonical s) (h : execWord w s = .next t) :
    MachineInv t := by
  unfold execWord at h
  split at h
  · exact machineInv_exec hs h
  · cases h
    exact machineInv_raiseError (by decide) hs

/-! ## The host's turn -/

/-- The delay is no part of what a command latched. -/
theorem machineInv_countDown {s : State} (h : MachineInv s) : MachineInv (countDown s) := by
  refine ⟨h.status, ?_, ?_, ?_, h.ibuf, h.obuf, h.olen, h.output⟩
  · simpa using h.busy
  · intro f hf
    obtain ⟨g, hg, rfl⟩ := Option.map_eq_some_iff.1 hf
    exact h.word g hg
  · intro f hf
    obtain ⟨g, hg, rfl⟩ := Option.map_eq_some_iff.1 hf
    exact h.latched g hg

/-- Acceptance latches the registers as they stand (R62, R100). -/
theorem machineInv_accept {s : State} (w : Word) (h : BuffersCanonical s) : MachineInv (accept w s) where
  status := .inr (.inl rfl)
  busy := rfl
  word := by rintro f ⟨⟩; rfl
  latched := by rintro f ⟨⟩; rfl
  ibuf := h.ibuf
  obuf := h.obuf
  olen := h.olen
  output := h.output

theorem machineInv_writeReg {s : State} (r : Reg) (v : Word) (hb : s.status.busy = false) (h : MachineInv s) :
    MachineInv (writeReg r v s) := by
  by_cases hr : r = .cmd
  · subst hr
    exact machineInv_accept v h.buffers
  · have ho := writeReg_outside hr v s
    refine machineInv_of_idle ?_ ?_ ?_ ⟨?_, ?_, ?_, ?_⟩
    · rw [ho.inFlight, h.inFlight_of_idle hb]
    · rw [ho.status, hb]
    · rw [ho.status]; exact h.status
    · rw [ho.ibuf]; exact h.ibuf
    · rw [ho.obuf]; exact h.obuf
    · rw [ho.olen]; exact h.olen
    · rw [ho.obuf, ho.olen]; exact h.output

theorem machineInv_busWrite {a : Access} {s : State} (hl : a.legal = true) (h : MachineInv s) :
    MachineInv (busWrite a s) := by
  rcases busWrite_cases a s with hw | ⟨hb, r, hw⟩ | ⟨hb, hlo, hhi, hw⟩ <;> rw [hw]
  · exact h
  · exact machineInv_writeReg r _ hb h
  · exact machineInv_of_idle (h.inFlight_of_idle hb) hb h.status
      ⟨bufferWrite_wf h.ibuf hl hlo hhi, h.obuf, h.olen, h.output⟩

theorem machineInv_busRead {a : Access} {s : State} (h : MachineInv s) : MachineInv (busRead a s).2 := by
  obtain ⟨n, hn⟩ := busRead_state a s
  rw [hn]
  exact h.world n s.host s.reads

theorem machineInv_pollStatus {s : State} (h : MachineInv s) : MachineInv (pollStatus s) := by
  unfold pollStatus
  split
  · exact h.world _ _ _
  · exact h.world _ _ _

/-- The reset input brings the block into the invariant from any state (R260). -/
theorem machineInv_applyReset (s : State) : MachineInv (applyReset s) :=
  machineInv_of_idle rfl rfl (.inl rfl)
    (buffersCanonical_of_unwritten (Memory.wf_unwritten _) rfl rfl)

theorem machineInv_hostTurn {s t : State} (hs : MachineInv s) (h : hostTurn s = .next t) : MachineInv t := by
  have hnext : MachineInv (nextEvent s) := hs.world _ _ _
  rcases hostTurn_cases h with ⟨_, rfl⟩ | ⟨a, _, v, _, _, _, _, _, rfl⟩ | ⟨a, _, _, _, hl, _, rfl⟩ | ⟨_, _, rfl⟩ |
    ⟨_, _, rfl⟩
  · exact hs
  · exact (machineInv_busRead hnext).world _ _ _
  · exact machineInv_busWrite hl hnext
  · exact machineInv_pollStatus hs
  · exact machineInv_applyReset _

/-- Settles O7: a step is the completion of a command or the host's turn, and each keeps the invariant. -/
theorem everyStepKeepsTheInvariant : Obligations.EveryStepKeepsTheInvariant := by
  intro s t hs h
  rcases step_cases h with ⟨f, _, _, hexec⟩ | ⟨_, hturn⟩
  · exact machineInv_execWord hs.buffers hexec
  · exact machineInv_hostTurn (machineInv_countDown hs) hturn

/-- Settles O8: with no command in flight and both buffers unwritten, only OLEN = 0 is left to see. -/
theorem resetMeetsTheInvariant : Obligations.ResetMeetsTheInvariant :=
  machineInv_of_idle rfl rfl (.inl rfl)
    (buffersCanonical_of_unwritten (Memory.wf_unwritten _) rfl rfl)

/-- Settles O9, by the four forms a legal STATUS has. -/
theorem statusOfTheInvariant : Obligations.StatusOfTheInvariant := by
  intro s hs
  rcases hs.status with h | h | h | ⟨k, hk, h⟩ <;> rw [h]
  · decide
  · decide
  · decide
  · cases k
    case builderState => exact absurd rfl hk
    all_goals decide

end Sys2Proof.Machine
end

section
/-! SUPPORT. What a command's result depends on (R38, R39, R62, R75): one lemma per kind of command. -/

namespace Sys2Proof.Machine

/-- Command `i`, run from `s` and from `s'`, left `t` and `t'` alike where it wrote them, and where `s` and `s'` were. -/
structure CompletesAlike (i : Instr) (s s' t t' : State) : Prop where
  status : t.status = t'.status
  writtenOutput : i ∉ [Instr.nop, .bfExtract, .bfInsert] → SameOutput t t'
  keptOutput : SameOutput s s' → SameOutput t t'
  writtenValue : i = .bfExtract → t.status.err = false → t.value = t'.value
  keptValue : s.value = s'.value → t.value = t'.value
  writtenLen : i = .move → t.ilen = t'.ilen
  keptLen : s.ilen = s'.ilen → t.ilen = t'.ilen
  writtenInput : i = .move → ∀ j, j < t.ilen.toNat → t.ibuf.byte j = t'.ibuf.byte j
  keptInput : (∀ j, s.ibuf.byte j = s'.ibuf.byte j) → ∀ j, t.ibuf.byte j = t'.ibuf.byte j

/-- The completion of one result leaves the same specified output in any two states (R36). -/
theorem sameOutput_finishOutput (r : Except ErrorKind (List Byte)) (s s' : State) :
    SameOutput (finishOutput r s) (finishOutput r s') := by
  cases r with
  | error k => exact ⟨rfl, fun j hj => absurd hj (by simp)⟩
  | ok out =>
    refine ⟨rfl, fun j hj => ?_⟩
    have hj' : j < out.length := hj.trans_le (by simpa using Nat.mod_le _ _)
    simp only [finishOutput_ok, deliver_obuf, Memory.byte_holding _ _ _ hj']

theorem status_finishOutput_congr (r : Except ErrorKind (List Byte)) (s s' : State) :
    (finishOutput r s).status = (finishOutput r s').status := by
  cases r <;> rfl

section
variable {s s' t t' : State}

theorem completesAlike_of_outputRule {i : Instr} {rule : Inputs → Except ErrorKind (List Byte)}
    (hin : s.inputs = s'.inputs) (hrule : outputRule i = some rule) (h : exec i s = .next t)
    (h' : exec i s' = .next t') : CompletesAlike i s s' t t' := by
  obtain ⟨w, n, hexec⟩ := exec_of_outputRule hrule s
  obtain ⟨w', n', hexec'⟩ := exec_of_outputRule hrule s'
  cases hexec.symm.trans h
  cases hexec'.symm.trans h'
  rw [hin]
  have hout := sameOutput_finishOutput (rule s'.inputs) { s with work := w, draws := n }
    { s' with work := w', draws := n' }
  have hextract : i ≠ .bfExtract := by rintro rfl; cases hrule
  have hmove : i ≠ .move := by rintro rfl; cases hrule
  exact {
    status := status_finishOutput_congr _ _ _
    writtenOutput := fun _ => hout
    keptOutput := fun _ => hout
    writtenValue := fun e => absurd e hextract
    keptValue := fun hv => by simpa using hv
    writtenLen := fun e => absurd e hmove
    keptLen := fun hl => by simpa using hl
    writtenInput := fun e => absurd e hmove
    keptInput := fun hb => by simpa using hb }

/-- Two completions with one STATUS and no other effect; BF_EXTRACT has one only where it fails. -/
theorem completesAlike_complete {i : Instr} (st : Status) (hi : i ∈ [Instr.nop, .bfExtract, .bfInsert])
    (herr : i = .bfExtract → st.err = true) : CompletesAlike i s s' (complete st s) (complete st s') where
  status := rfl
  writtenOutput := fun e => absurd hi e
  keptOutput := fun ho => ⟨ho.olen, ho.bytes⟩
  writtenValue := fun e he => absurd he (by simp [herr e])
  keptValue := id
  writtenLen := by rintro rfl; exact absurd hi (by decide)
  keptLen := id
  writtenInput := by rintro rfl; exact absurd hi (by decide)
  keptInput := id

theorem completesAlike_nop (h : exec .nop s = .next t) (h' : exec .nop s' = .next t') :
    CompletesAlike .nop s s' t t' := by
  cases h
  cases h'
  exact completesAlike_complete _ (by decide) nofun

/-- MOVE is the one command that reads the output (R105). -/
theorem completesAlike_move (hout : SameOutput s s') (h : exec .move s = .next t) (h' : exec .move s' = .next t') :
    CompletesAlike .move s s' t t' := by
  have hbytes : s.obuf.bytes s.olen.toNat = s'.obuf.bytes s'.olen.toNat := by
    rw [← hout.olen]
    exact Memory.bytes_congr hout.bytes
  cases h
  cases h'
  exact {
    status := rfl
    writtenOutput := fun _ => ⟨hout.olen, hout.bytes⟩
    keptOutput := fun _ => ⟨hout.olen, hout.bytes⟩
    writtenValue := nofun
    keptValue := id
    writtenLen := fun _ => hout.olen
    keptLen := fun _ => hout.olen
    writtenInput := fun _ j hj => by
      simp only [succeed_ibuf, succeed_ilen] at hj ⊢
      rw [hbytes, Memory.byte_writeBytes, Memory.byte_writeBytes, if_pos, if_pos] <;>
        simpa [← hout.olen] using hj
    keptInput := fun hb j => by
      simp only [succeed_ibuf, hbytes]
      exact byte_writeBytes_congr hb _ _ j }

theorem completesAlike_bfExtract (hin : s.inputs = s'.inputs) (h : exec .bfExtract s = .next t)
    (h' : exec .bfExtract s' = .next t') : CompletesAlike .bfExtract s s' t t' := by
  simp only [exec, execBfExtract, hin] at h h'
  split at h <;> rename_i hr <;> simp only [hr] at h' <;> cases h <;> cases h'
  · exact {
      status := rfl
      writtenOutput := fun e => absurd (by decide) e
      keptOutput := fun ho => ⟨ho.olen, ho.bytes⟩
      writtenValue := fun _ _ => rfl
      keptValue := fun _ => rfl
      writtenLen := nofun
      keptLen := id
      writtenInput := nofun
      keptInput := id }
  · exact completesAlike_complete _ (by decide) fun _ => rfl

theorem completesAlike_bfInsert (hin : s.inputs = s'.inputs) (h : exec .bfInsert s = .next t)
    (h' : exec .bfInsert s' = .next t') : CompletesAlike .bfInsert s s' t t' := by
  simp only [exec, execBfInsert, hin] at h h'
  rcases bfInsert_cases s'.inputs with ⟨k, _, herr⟩ | ⟨_, hok⟩
  · simp only [herr] at h h'
    cases h
    cases h'
    exact completesAlike_complete _ (by decide) nofun
  · simp only [hok] at h h'
    cases h
    cases h'
    exact {
      status := rfl
      writtenOutput := fun e => absurd (by decide) e
      keptOutput := fun ho => ⟨ho.olen, ho.bytes⟩
      writtenValue := nofun
      keptValue := id
      writtenLen := nofun
      keptLen := id
      writtenInput := nofun
      keptInput := fun hb => byte_insertField_congr hb _ _ _ }

end

/-- Settles O28, by the kind of the command. -/
theorem resultsDependOnlyOnTheInputs : Obligations.ResultsDependOnlyOnTheInputs := by
  intro i s s' t t' hin hmove h h'
  have alike : CompletesAlike i s s' t t' := by
    cases hrule : outputRule i with
    | some rule => exact completesAlike_of_outputRule hin hrule h h'
    | none =>
      cases i with
      | nop => exact completesAlike_nop h h'
      | move => exact completesAlike_move (hmove rfl) h h'
      | bfExtract => exact completesAlike_bfExtract hin h h'
      | bfInsert => exact completesAlike_bfInsert hin h h'
      | _ => cases hrule
  exact ⟨alike.status, alike.writtenOutput, alike.keptOutput, alike.writtenValue, alike.keptValue, alike.writtenLen,
    alike.keptLen, alike.writtenInput, alike.keptInput⟩

end Sys2Proof.Machine
end

section
/-! SUPPORT. The registers as the host reads and writes them: the statements on single accesses and on reset. -/

namespace Sys2Proof.Machine

/-- A register write to an idle block, as an access (R20, R52). -/
theorem busAccess_writeRegister (r : Reg) (v : Word) {s : State} (hb : s.status.busy = false) :
    busAccess { kind := .write, offset := r.offset, width := 4, data := v } s = (.written, writeReg r v s) := by
  rw [busAccess_write s (legal_register _ _ _ r.offset_lt r.offset_aligned) rfl, busWrite_register r _ _ v hb]

/-- A read of a register of an idle block, or of one no command writes, is exact (R101). -/
theorem busAccess_readRegister (r : Reg) {s : State}
    (h : s.status.busy = false ∨ r ∉ [Reg.ilen, .olen, .value]) :
    busAccess { kind := .read, offset := r.offset, width := 4, data := 0 } s = (.data (readReg r s), s) := by
  have hexact : (s.status.busy && resultLocation r.offset) = false := by
    rw [resultLocation_register, Bool.and_eq_false_iff, decide_eq_false_iff_not]
    exact h
  rw [busAccess_read s (legal_register _ _ _ r.offset_lt r.offset_aligned) rfl, busRead_exact _ hexact,
    storedValue_register]

/-- STATUS and OLEN ignore writes, busy or not (R24, R28). -/
theorem busAccess_writeReadOnly {r : Reg} (h : r = .status ∨ r = .olen) (v : Word) (s : State) :
    busAccess { kind := .write, offset := r.offset, width := 4, data := v } s = (.written, s) := by
  cases hb : s.status.busy with
  | true => rw [busAccess_write s (legal_register _ _ _ r.offset_lt r.offset_aligned) rfl, busWrite_busy _ hb]
  | false =>
    rw [busAccess_writeRegister r v hb]
    rcases h with rfl | rfl <;> rfl

/-- Settles O42: the mask of a plain register is what it reads back, and the rest is the frame of a register write. -/
theorem registersReadBackWhatWasWritten : Obligations.RegistersReadBackWhatWasWritten := by
  intro s v hb r m hm
  obtain ⟨hplain, hmask⟩ : r ∉ [Reg.cmd, .status, .olen] ∧ m = r.writeMask := by
    simp only [List.mem_cons, Prod.mk.injEq, List.not_mem_nil, or_false] at hm
    rcases hm with ⟨rfl, rfl⟩ | ⟨rfl, rfl⟩ | ⟨rfl, rfl⟩ | ⟨rfl, rfl⟩ | ⟨rfl, rfl⟩ | ⟨rfl, rfl⟩ | ⟨rfl, rfl⟩ |
      ⟨rfl, rfl⟩ <;> exact ⟨by decide, rfl⟩
  have hcmd : r ≠ .cmd := by rintro rfl; exact hplain (by decide)
  have ho := writeReg_outside hcmd v s
  refine ⟨writeReg r v s, busAccess_writeRegister r v hb, ?_, fun r' hr' => readReg_writeReg_other hcmd hr' v s,
    ho.ibuf, ho.obuf, ho.inFlight, ho.work, ho.draws, ho.host, ho.reads⟩
  rw [busAccess_readRegister r (.inl (by rw [ho.status, hb])), readReg_writeReg_same hplain, hmask]

/-- Settles O43, by the four kinds of location. -/
theorem reservedAndReadOnlyLocationsIgnoreWrites : Obligations.ReservedAndReadOnlyLocationsIgnoreWrites := by
  intro s v
  refine ⟨fun off hlo hhi hal => ⟨?_, ?_⟩, busAccess_writeReadOnly (.inl rfl) v s,
    busAccess_writeReadOnly (.inr rfl) v s, fun i _ => ⟨?_, fun hal => ?_⟩⟩
  · rw [busAccess_read s (legal_register _ _ _ hhi hal) rfl,
      busRead_exact _ (by simp [resultLocation_reserved hlo hhi]), storedValue_reserved s hlo hhi]
  · rw [busAccess_write s (legal_register _ _ _ hhi hal) rfl, busWrite_reserved s hlo hhi]
  · rw [busAccess_write s (legal_byte _ _ _ (by omega)) rfl, busWrite_obuf _ s (Nat.le_add_right _ _)]
  · rw [busAccess_write s (legal_word _ _ _ (by omega) (by omega)) rfl, busWrite_obuf _ s (Nat.le_add_right _ _)]

/-- Settles O15: the marker bytes are the lanes of the two pattern registers (R33). -/
theorem markerBytesOfThePatternRegisters : Obligations.MarkerBytesOfThePatternRegisters := by
  refine ⟨fun inp i hi => ?_, fun inp i hlo _ => ?_, fun _ => rfl, rfl, rfl, by decide⟩
  · rw [asmByte, if_pos hi, byteOfWord_toNat]
  · rw [asmByte, if_neg (by omega), byteOfWord_toNat]

/-- Settles O50: the write of CMD is `accept`, whose fields are the statement (R100). -/
theorem acceptanceLatchesTheInputs : Obligations.AcceptanceLatchesTheInputs := by
  intro s w hb
  exact ⟨accept w s, _, busAccess_writeRegister .cmd w hb, rfl, rfl, rfl, word_accepted, rfl,
    ⟨rfl, rfl, rfl, rfl, rfl, rfl, rfl, rfl, rfl⟩, ⟨rfl, rfl, fun _ => rfl⟩, ⟨rfl, fun _ => rfl⟩, rfl⟩

/-- The response to a busy read of a result location, legal or not, is the same in every busy state that draws alike
(R101). -/
theorem busAccess_unspecified_congr {s s' : State} {a : Access} (hb : s.status.busy = true)
    (hb' : s'.status.busy = true) (hd : s.draws = s'.draws) (hk : a.kind = .read)
    (hloc : resultLocation a.offset = true) : (busAccess a s).1 = (busAccess a s').1 := by
  cases hl : a.legal with
  | true =>
    rw [busAccess_read s hl hk, busAccess_read s' hl hk, busRead_unspecified a hb hloc,
      busRead_unspecified a hb' hloc, hd]
  | false => rw [busAccess_illegal s hl, busAccess_illegal s' hl]

/-- Settles O52: the exact registers are those no command writes, and a busy read of a result is its free value. -/
theorem busyReadsAreExactOrUnspecified : Obligations.BusyReadsAreExactOrUnspecified := by
  refine ⟨fun s r h => busAccess_readRegister r (h.imp_right fun hr => ?_), fun s s' a hb hb' hd hk hoff => ?_,
    fun s r hb hr => ?_⟩
  · revert hr
    cases r <;> decide
  · refine busAccess_unspecified_congr hb hb' hd hk ?_
    rcases hoff with hreg | hbuf
    · simp only [List.mem_cons, List.not_mem_nil, or_false] at hreg
      rcases hreg with h | h | h <;> rw [h] <;> rfl
    · exact resultLocation_buffer hbuf
  · have hr' : r = .ilen ∨ r = .olen := by simpa using hr
    have hloc : resultLocation r.offset = true := by rcases hr' with rfl | rfl <;> rfl
    refine ⟨_, s.draws + 1, ?_, unspecifiedRead_length_lt .read 0 s.draws hr'⟩
    rw [busAccess_read s (legal_register _ _ _ r.offset_lt r.offset_aligned) rfl, busRead_unspecified _ hb hloc]

/-- Settles O56: the reset state written out (R40). -/
theorem registersAfterReset : Obligations.RegistersAfterReset :=
  ⟨rfl, rfl, rfl, rfl, rfl, rfl, rfl, rfl, rfl, rfl, rfl, rfl, rfl, rfl⟩

end Sys2Proof.Machine
end

section
/-! SUPPORT. Accesses of the window and of the two buffers (20_memory.md): the statements on buffer bytes and words, on
legal and illegal accesses, and on the host's turn. -/

namespace Sys2Proof.Machine

/-! ## Words and bytes of a buffer -/

/-- A word of a buffer as a number: the byte at the lowest index is the highest lane (R56). -/
theorem Memory.word_toNat (m : Memory) (i : Nat) :
    (m.word i).toNat = (m.byte i).toNat * 2 ^ 24 + (m.byte (i + 1)).toNat * 2 ^ 16 + (m.byte (i + 2)).toNat * 2 ^ 8 +
      (m.byte (i + 3)).toNat :=
  wordOfBytes_toNat _ _ _ _

/-- Lane `j` of a word read holds byte `i + j` of the buffer (R58). -/
theorem Memory.word_lane (m : Memory) (i : Nat) {j : Nat} (hj : j < 4) :
    (m.word i).toNat / 2 ^ (24 - 8 * j) % 256 = (m.byte (i + j)).toNat := by
  have h0 := (m.byte i).isLt
  have h1 := (m.byte (i + 1)).isLt
  have h2 := (m.byte (i + 2)).isLt
  have h3 := (m.byte (i + 3)).isLt
  rw [Memory.word_toNat]
  interval_cases j <;> simp only [Nat.reduceMul, Nat.reduceSub, Nat.add_zero] <;> omega

/-- The byte of lane `j` after a word store (R56). -/
theorem byte_writeWord_lane (m : Memory) (i : Nat) (w : Word) {j : Nat} (hj : j < 4) :
    (m.writeWord i w).byte (i + j) = byteOfWord w j := by
  rw [byte_writeWord, if_pos (by omega), Nat.add_sub_cancel_left]

/-- A word store leaves the bytes outside its word (R56). -/
theorem byte_writeWord_outside (m : Memory) {i k : Nat} (w : Word) (h : k < i ∨ i + 4 ≤ k) :
    (m.writeWord i w).byte k = m.byte k := by
  rw [byte_writeWord, if_neg (by omega)]

@[simp] theorem bufferRead_byte (m : Memory) (i : Nat) : bufferRead m i 1 = (m.byte i).setWidth 32 := rfl
@[simp] theorem bufferRead_word (m : Memory) (i : Nat) : bufferRead m i 4 = m.word i := rfl
@[simp] theorem bufferWrite_byte (m : Memory) (i : Nat) (v : Word) :
    bufferWrite m i 1 v = m.write i (v.setWidth 8) := rfl
@[simp] theorem bufferWrite_word (m : Memory) (i : Nat) (v : Word) : bufferWrite m i 4 v = m.writeWord i v := rfl

/-! ## Legal accesses -/

/-- The legal accesses, region by region (R52). -/
theorem legal_iff (a : Access) :
    a.legal = true ↔ a.offset < 0x1000 ∧ a.width = 4 ∧ a.offset % 4 = 0 ∨
      0x1000 ≤ a.offset ∧ (a.width = 1 ∨ a.width = 4 ∧ a.offset % 4 = 0) := by
  unfold Access.legal
  split <;> simp only [decide_eq_true_eq] <;> omega

/-- An access is addressed to the block exactly inside the window (R51). -/
theorem addressed_iff (a : Access) : a.addressed = true ↔ a.offset < 0x3000 := by
  simp [Access.addressed, Config.windowSize]

/-- A legal buffer access of either buffer: one byte, or an aligned word (R52). -/
theorem legal_buffer (k : AccessKind) {off w : Nat} (v : Word) (h : 0x1000 ≤ off)
    (hw : w = 1 ∨ w = 4 ∧ off % 4 = 0) : Access.legal { kind := k, offset := off, width := w, data := v } = true :=
  (legal_iff _).2 (.inr ⟨h, hw⟩)

/-- An idle block reads every location exactly (R101). -/
theorem busRead_idle (a : Access) {s : State} (hb : s.status.busy = false) : busRead a s = (storedValue a s, s) :=
  busRead_exact a (by simp [hb])

/-- A read of IBUF of an idle block, of one byte or of an aligned word (R52, R55). -/
theorem busAccess_readIbuf {s : State} (hb : s.status.busy = false) {i w : Nat} (hi : i < 4096)
    (hw : w = 1 ∨ w = 4 ∧ i % 4 = 0) :
    busAccess { kind := .read, offset := 0x1000 + i, width := w, data := 0 } s =
      (.data (bufferRead s.ibuf i w), s) := by
  rw [busAccess_read s (legal_buffer _ _ (by omega) (by omega)) rfl, busRead_idle _ hb,
    storedValue_ibuf _ _ (Nat.le_add_right ..) (by simpa using Nat.add_lt_add_left hi 0x1000)]
  simp only [Nat.add_sub_cancel_left]

/-- A read of OBUF of an idle block, of one byte or of an aligned word (R52, R55). -/
theorem busAccess_readObuf {s : State} (hb : s.status.busy = false) {i w : Nat} (hw : w = 1 ∨ w = 4 ∧ i % 4 = 0) :
    busAccess { kind := .read, offset := 0x2000 + i, width := w, data := 0 } s =
      (.data (bufferRead s.obuf i w), s) := by
  rw [busAccess_read s (legal_buffer _ _ (by omega) (by omega)) rfl, busRead_idle _ hb,
    storedValue_obuf _ _ (Nat.le_add_right ..)]
  simp only [Nat.add_sub_cancel_left]

/-- A write to IBUF of an idle block, of one byte or of an aligned word (R35, R52, R55). -/
theorem busAccess_writeIbuf {s : State} (hb : s.status.busy = false) {i w : Nat} (v : Word) (hi : i < 4096)
    (hw : w = 1 ∨ w = 4 ∧ i % 4 = 0) :
    busAccess { kind := .write, offset := 0x1000 + i, width := w, data := v } s =
      (.written, { s with ibuf := bufferWrite s.ibuf i w v }) := by
  rw [busAccess_write s (legal_buffer _ _ (by omega) (by omega)) rfl,
    busWrite_ibuf _ hb (Nat.le_add_right ..) (by simpa using Nat.add_lt_add_left hi 0x1000)]
  simp only [Nat.add_sub_cancel_left]

/-- Settles O48: a word read is `Memory.word`, and a word write stores its four lanes (R56). -/
theorem bufferWordsAreBigEndian : Obligations.BufferWordsAreBigEndian := by
  intro s k w hb hk
  have hi : 4 * k < 4096 := by omega
  have hal : 4 = 1 ∨ 4 = 4 ∧ 4 * k % 4 = 0 := .inr ⟨rfl, Nat.mul_mod_right 4 k⟩
  refine ⟨⟨_, busAccess_readIbuf hb hi hal, s.ibuf.word_toNat _⟩, ⟨_, busAccess_readObuf hb hal, s.obuf.word_toNat _⟩,
    _, busAccess_writeIbuf hb w hi hal, rfl, fun j hj => ?_, fun i hout => ?_⟩
  · rw [bufferWrite_word, byte_writeWord_lane _ _ _ hj, byteOfWord_toNat]
  · rw [bufferWrite_word, byte_writeWord_outside _ _ hout]

/-- Settles O49: a byte is the lane of its word, and a store at either width leaves what the other width reads (R58). -/
theorem mixedWidthAccessesAgree : Obligations.MixedWidthAccessesAgree := by
  intro s v hb
  refine ⟨fun i hi => ⟨busAccess_readIbuf hb hi (.inl rfl), busAccess_readObuf hb (.inl rfl)⟩, fun i hi => ?_,
    fun k j hk hj => ?_⟩
  · have stored : ((s.ibuf.write i (v.setWidth 8)).byte i).toNat = v.toNat % 256 := by
      rw [Memory.byte_write, if_pos rfl, BitVec.toNat_setWidth]
    have aligned : (i - i % 4) % 4 = 0 := by omega
    refine ⟨_, _, busAccess_writeIbuf hb v hi (.inl rfl), rfl, stored, fun j hj => ?_,
      busAccess_readIbuf (by exact hb) (by omega) (.inr ⟨rfl, aligned⟩), ?_⟩
    · rw [bufferWrite_byte, Memory.byte_write, if_neg hj]
    · rw [bufferRead_word, Memory.word_lane _ _ (Nat.mod_lt i (by decide)), Nat.sub_add_cancel (Nat.mod_le i 4)]
      exact stored
  · rw [Nat.add_assoc]
    refine ⟨_, _, busAccess_writeIbuf hb v (by omega) (.inr ⟨rfl, Nat.mul_mod_right 4 k⟩),
      busAccess_readIbuf (by exact hb) (by omega) (.inl rfl), ?_⟩
    rw [bufferRead_byte, bufferWrite_word, byte_writeWord_lane _ _ _ hj, BitVec.toNat_setWidth_of_le (by decide),
      byteOfWord_toNat]

/-! ## The step and the host's turn -/

/-- Where no command word is ready, the host has its turn. -/
theorem step_of_readyWord_none {s : State} (h : readyWord s = none) : step s = hostTurn (countDown s) := by
  simp only [step, h]

/-- A waiting command's delay is one less after a step (R106). -/
theorem countDown_of_inFlight {s : State} {f : InFlight} (h : s.inFlight = some f) :
    countDown s = { s with inFlight := some { f with delay := f.delay - 1 } } := by
  simp only [countDown, h, Option.map_some]

/-- Settles O5: no word is ready in either case, and `countDown` says what is left of the delay. -/
theorem stepElseIsTheHostsTurn : Obligations.StepElseIsTheHostsTurn := by
  refine ⟨fun s h => ?_, fun s f h hd => ?_⟩
  · rw [step_of_readyWord_none (readyWord_of_idle h), countDown_of_idle h]
  · rw [step_of_readyWord_none (readyWord_of_waiting h hd), countDown_of_inFlight h]

/-- An illegal access of the window is a fault of the host (R54; log entry 11). -/
theorem performAccess_illegal {a : Access} (s : State) (ha : a.addressed = true) (hl : a.legal = false) :
    performAccess a s = .fault (.busError a) := by
  rw [performAccess, if_pos ha, busAccess_illegal s hl]
  rfl

/-- An access outside the window is refused (R51; log entry 12). -/
theorem performAccess_notAddressed {a : Access} (s : State) (ha : a.addressed = false) :
    performAccess a s = .refused (.notAddressed a) := by
  rw [performAccess, if_neg (by simp [ha])]

/-- Settles O44: what the two regions exclude is what `legal_iff` excludes. -/
theorem otherAccessesAreBusErrors : Obligations.OtherAccessesAreBusErrors := by
  intro s a ha hreg hbuf
  have hl : a.legal = false := Bool.eq_false_iff.2 fun h => ((legal_iff a).1 h).elim hreg hbuf
  exact ⟨busAccess_illegal s hl, performAccess_illegal s ((addressed_iff a).2 ha) hl⟩

/-- Settles O45, by the kind of the access; a read leaves the record to the host. -/
theorem legalAccessesArePerformed : Obligations.LegalAccessesArePerformed := by
  refine ⟨fun s a h => ?_, fun s a rest h => hostTurn_access h,
    fun s a h => performAccess_notAddressed s (Bool.eq_false_iff.2 fun ha => ?_)⟩
  · have ha : a.addressed = true := (addressed_iff a).2 (by omega)
    have hl : a.legal = true := (legal_iff a).2 (by omega)
    refine ⟨fun hk => ⟨_, _, busAccess_read s hl hk, ?_⟩,
      fun hk => ⟨_, busAccess_write s hl hk, performAccess_write s ha hl hk⟩⟩
    rw [performAccess_read s ha hl hk, record, busRead_reads]
  · exact absurd ((addressed_iff a).1 ha) (Nat.not_lt.2 h)

/-- Settles O46, from `BASE` in units of 0x1000 (R51). -/
theorem windowAddressesHaveOffsets : Obligations.WindowAddressesHaveOffsets := by
  refine ⟨Dvd.intro _ rfl, fun address off => ?_⟩
  unfold windowOffset busAddress
  split
  next h =>
    rw [Option.some.injEq]
    simp only [Config.windowSize] at h
    omega
  next h =>
    simp only [Config.windowSize] at h
    exact ⟨nofun, fun hoff => absurd (by omega) h⟩

/-- Settles O47: a legal read is `busRead`, and an illegal one changes nothing. -/
theorem readsHaveNoSideEffects : Obligations.ReadsHaveNoSideEffects := by
  intro s a hk
  cases hl : a.legal with
  | true =>
    rw [busAccess_read s hl hk]
    exact busRead_state a s
  | false => exact ⟨s.draws, by rw [busAccess_illegal s hl]⟩

end Sys2Proof.Machine
end

section
/-! SUPPORT. The decoder against the encoder (R70 to R73), and the completion of a word that names no command (R72). -/

namespace Sys2Proof

/-- The word of every command round-trips, the thirteen cases of `Laws/PerInstr.lean` as one statement. -/
theorem roundTrip : ∀ i : Instr, Laws.RoundTrip.Statement i
  | .nop => Laws.RoundTrip.nop
  | .asmAttach => Laws.RoundTrip.asmAttach
  | .asmDetach => Laws.RoundTrip.asmDetach
  | .rand => Laws.RoundTrip.rand
  | .rsEncode => Laws.RoundTrip.rsEncode
  | .rsDecode => Laws.RoundTrip.rsDecode
  | .bchEncode => Laws.RoundTrip.bchEncode
  | .bchDecode => Laws.RoundTrip.bchDecode
  | .cltuEncode => Laws.RoundTrip.cltuEncode
  | .cltuDecode => Laws.RoundTrip.cltuDecode
  | .bfExtract => Laws.RoundTrip.bfExtract
  | .bfInsert => Laws.RoundTrip.bfInsert
  | .move => Laws.RoundTrip.move

/-- The decoder reads every command back from its word (R71). -/
theorem decode_encode (i : Instr) : decode (encode i) = .ok i := by
  obtain ⟨_, _, _, hdecode⟩ := roundTrip i
  exact hdecode

/-- A word that decodes has RSV zero, and its OPC is the code of the command (R72). -/
theorem fields_of_decode_ok {w : Word} {i : Instr} (h : decode w = .ok i) :
    rsvField w = 0 ∧ opcField w = opcode i := by
  unfold decode at h
  split at h
  next hrsv =>
    split at h <;> cases h
    next hopc => exact ⟨hrsv, BitVec.eq_of_toNat_eq ((ofOpcode_eq_some _ _).1 hopc)⟩
  · cases h

/-- The whole word is matched: the decoder reads a command from its one word alone (R71). -/
theorem decode_eq_ok_iff (w : Word) (i : Instr) : decode w = .ok i ↔ w = encode i := by
  constructor
  · intro h
    obtain ⟨hrsv, hopc⟩ := fields_of_decode_ok h
    rw [word_of_rsv_zero w hrsv, hopc, encode]
  · rintro rfl
    exact decode_encode i

/-- The codes that name no command are those from 0x0D up (R73). -/
theorem ofOpcode_eq_none_iff (n : Nat) : ofOpcode n = none ↔ 0x0D ≤ n := by
  refine ⟨fun h => ?_, ofOpcode_reserved n⟩
  by_contra hlt
  have hnamed := ofOpcode_isSome n (not_le.1 hlt)
  simp [h] at hnamed

/-- The illegal words: a bit of RSV set, or a reserved code in OPC (R72, R73). -/
theorem decode_eq_error_iff (w : Word) :
    (∃ e, decode w = .error e) ↔ rsvField w ≠ 0 ∨ 0x0D ≤ (opcField w).toNat := by
  rw [← ofOpcode_eq_none_iff, decode]
  split
  next hrsv => cases ofOpcode (opcField w).toNat <;> simp [hrsv]
  next hrsv => exact ⟨fun _ => .inl hrsv, fun _ => ⟨_, rfl⟩⟩

/-- A word of the opcode table names a command exactly when it is the word of that command (R71). -/
theorem decodeTableWord_eq_some_iff (nbits w : Nat) (i : Instr) :
    decodeTableWord nbits w = some i ↔ tableWord nbits w = encode i := by
  rw [← decode_eq_ok_iff, decodeTableWord]
  cases decode (tableWord nbits w) <;> simp

/-- A word of the opcode table names no command exactly when it is illegal (R72). -/
theorem decodeTableWord_eq_none_iff (nbits w : Nat) :
    decodeTableWord nbits w = none ↔
      rsvField (tableWord nbits w) ≠ 0 ∨ 0x0D ≤ (opcField (tableWord nbits w)).toNat := by
  rw [← decode_eq_error_iff, decodeTableWord]
  cases decode (tableWord nbits w) <;> simp

/-- Settles O1: the codes of the map in order, and the decoder's inverse `encode`. -/
theorem decoderMatchesTheWholeWord : Obligations.DecoderMatchesTheWholeWord :=
  ⟨by decide, decode_eq_ok_iff⟩

namespace Machine

/-- An illegal word runs as the failure with IllegalCommand (R72). -/
theorem execWord_of_decode_error {w : Word} {e : Illegal} (h : decode w = .error e) (s : State) :
    execWord w s = .next (raiseError false .illegalCommand s) := by
  simp only [execWord, h, execIllegal]

/-- Settles O2: the decoder's two errors, and a failure that leaves everything but STATUS (R72, R235). -/
theorem illegalWordsCompleteWithIllegalCommand : Obligations.IllegalWordsCompleteWithIllegalCommand := by
  refine ⟨decode_eq_error_iff, fun w => ?_, fun s w e h => ⟨_, execWord_of_decode_error h s, ?_⟩⟩
  · cases decode w with
    | ok i => exact .inl ⟨i, rfl⟩
    | error e => exact .inr ⟨e, rfl⟩
  · have code7 : failedWord .illegalCommand = 0x76 := by decide
    exact code7 ▸ onlyStatus_raiseError s .illegalCommand

end Machine

/-- Settles O3: eight words are words of commands; of the other four, two have a reserved code and two a bit of RSV
set. -/
theorem wordsOfTheTableDecode : Obligations.WordsOfTheTableDecode := by
  unfold Obligations.WordsOfTheTableDecode
  simp only [decodeTableWord_eq_some_iff, decodeTableWord_eq_none_iff]
  decide

end Sys2Proof
end

section
/-! SUPPORT. The host's WAIT, and the events a statement of a host program expands to (R77 to R79). -/

namespace Sys2Proof.Machine

/-! ## The WAIT -/

/-- The host's turn where a wait comes first (R78). -/
theorem hostTurn_wait {s : State} {rest : List HostEvent} (h : s.host = .wait :: rest) :
    hostTurn s = .next (pollStatus s) := by
  simp only [hostTurn, h]

/-- A poll records STATUS, and takes the wait off the queue where BUSY is 0 (R24, R78). -/
theorem pollStatus_eq (s : State) :
    pollStatus s = { s with
      host := if s.status.busy = true then s.host else s.host.tail
      reads := s.reads ++ [readReg .status s] } := by
  rw [pollStatus, word_bit0]
  split <;> rfl

/-- Settles O54, from what one poll does. -/
theorem waitReadsStatusUntilIdle : Obligations.WaitReadsStatusUntilIdle := by
  intro s rest h
  refine ⟨pollStatus s, hostTurn_wait h, ?_⟩
  rw [pollStatus_eq, h]
  exact ⟨rfl, rfl, rfl⟩

/-! ## Host programs -/

/-- A legal access inside the window disturbs nothing (R51, R52). -/
theorem undisturbed_access {k : AccessKind} {off w : Nat} {v : Word} (h : off < 0x3000)
    (hl : Access.legal { kind := k, offset := off, width := w, data := v } = true) :
    (HostEvent.access { kind := k, offset := off, width := w, data := v }).undisturbed = true :=
  Bool.and_eq_true_iff.2 ⟨(addressed_iff _).2 h, hl⟩

@[simp] theorem undisturbed_wait : HostEvent.wait.undisturbed = true := rfl

@[simp] theorem undisturbed_writeAccess (r : Reg) (v : Word) : (writeAccess r v).undisturbed = true :=
  undisturbed_access (r.offset_lt.trans (by decide)) (legal_register _ _ _ r.offset_lt r.offset_aligned)

@[simp] theorem undisturbed_readAccess (r : Reg) : (readAccess r).undisturbed = true :=
  undisturbed_access (r.offset_lt.trans (by decide)) (legal_register _ _ _ r.offset_lt r.offset_aligned)

theorem undisturbed_storebAccess {i : Nat} (b : Byte) (h : i < Config.bufSize) :
    (storebAccess i b).undisturbed = true :=
  undisturbed_access (by simp only [Config.bufSize] at h; omega) (legal_byte _ _ _ (Nat.le_add_right ..))

theorem undisturbed_storewAccess {i : Nat} (w : Word) (h : i + 4 ≤ Config.bufSize) (ha : i % 4 = 0) :
    (storewAccess i w).undisturbed = true :=
  undisturbed_access (by simp only [Config.bufSize] at h; omega)
    (legal_word _ _ _ (Nat.le_add_right ..) (by omega))

theorem undisturbed_loadbAccess {i : Nat} (h : i < Config.bufSize) : (loadbAccess i).undisturbed = true :=
  undisturbed_access (by simp only [Config.bufSize] at h; omega) (legal_byte _ _ _ (by omega))

/-- Byte stores that end inside IBUF are legal, one by one (R78). -/
theorem undisturbed_loadAccesses {i : Nat} {bs : List Byte} (h : i + bs.length ≤ Config.bufSize) :
    ∀ e ∈ loadAccesses i bs, e.undisturbed = true := by
  induction bs generalizing i with
  | nil => simp [loadAccesses]
  | cons b rest ih =>
    rw [List.length_cons] at h
    exact List.forall_mem_cons.2 ⟨undisturbed_storebAccess b (by omega), ih (by omega)⟩

/-- Settles O55: a statement is register accesses and waits, which are always legal, or accesses of a buffer it stays
inside. -/
theorem hostProgramsMakeLegalAccesses : Obligations.HostProgramsMakeLegalAccesses := by
  intro st hwf
  cases st with
  | storeb i b => simpa [Stmt.expand] using undisturbed_storebAccess b (of_decide_eq_true hwf)
  | storew i w =>
    obtain ⟨hin, hal⟩ : i + 4 ≤ Config.bufSize ∧ i % 4 = 0 := by simpa [Stmt.wellFormed] using hwf
    simpa [Stmt.expand] using undisturbed_storewAccess w hin hal
  | loadb i => simpa [Stmt.expand] using undisturbed_loadbAccess (of_decide_eq_true hwf)
  | load i bs => exact undisturbed_loadAccesses (of_decide_eq_true hwf)
  | fill i n b => exact undisturbed_loadAccesses (by simpa using of_decide_eq_true hwf)
  | write | read | cmd | wait | run | setlen | randRange | randAll | extract | insert | setasm | chain =>
    simp [Stmt.expand, runEvents]

end Sys2Proof.Machine
end

section
/-! SUPPORT. NOP, MOVE and the life of a command (40_command_common.md): what MOVE leaves behind, the step that runs a
ready command, and the run that brings a command in flight to its completion. -/

namespace Sys2Proof.Machine

/-! ## NOP and MOVE -/

/-- NOP is a success with no other effect (R104). -/
theorem exec_nop (s : State) : exec .nop s = .next (succeed s) := rfl

/-- Settles O10, from what a success leaves unchanged. -/
theorem nopOnlySucceeds : Obligations.NopOnlySucceeds :=
  ⟨by decide, fun s => ⟨succeed s, exec_nop s, onlyStatus_succeed s⟩⟩

/-- Byte `i` of a buffer once the first `n` bytes of another have been copied over its own. -/
theorem Memory.byte_writeBytes_bytes (m m' : Memory) (n i : Nat) :
    (m.writeBytes 0 (m'.bytes n)).byte i = if i < n then m'.byte i else m.byte i := by
  rw [Memory.byte_writeBytes, Memory.bytes_length]
  by_cases hi : i < n
  · rw [if_pos (by omega), if_pos hi, Nat.sub_zero, Memory.bytes_getD _ _ _ hi]
  · rw [if_neg (by omega), if_neg hi]

/-- `t` is `s` after a success that copied the output over the input (R105). -/
structure OutputMoved (s t : State) : Prop where
  status : t.status = Status.succeeded
  idle : t.inFlight = none
  kept : Kept s t
  output : OutputKept s t
  value : t.value = s.value
  work : t.work = s.work
  ilen : t.ilen = s.olen
  ibuf : ∀ i, t.ibuf.byte i = if i < s.olen.toNat then s.obuf.byte i else s.ibuf.byte i

/-- MOVE answers a next state, in which the input is the output (R105). -/
theorem exec_move (s : State) : ∃ t, exec .move s = .next t ∧ OutputMoved s t :=
  ⟨_, rfl, {
    status := rfl
    idle := rfl
    kept := ⟨rfl, rfl, rfl, rfl, rfl, rfl, rfl, rfl, rfl⟩
    output := ⟨rfl, fun _ => rfl⟩
    value := rfl
    work := rfl
    ilen := rfl
    ibuf := Memory.byte_writeBytes_bytes s.ibuf s.obuf s.olen.toNat }⟩

/-- Where the input already is the output, moving it again changes no byte of it. -/
theorem OutputMoved.inputKept {s t u : State} (h : OutputMoved s t) (h' : OutputMoved t u) : InputKept t u where
  ilen := by rw [h'.ilen, h.output.olen, h.ilen]
  value := h'.value
  ibuf i := by
    rw [h'.ibuf, h.output.olen, h.output.obuf]
    split
    next hi => rw [h.ibuf, if_pos hi]
    next => rfl

/-- Settles O11, from what MOVE leaves behind. -/
theorem moveCopiesOutputToInput : Obligations.MoveCopiesOutputToInput := by
  refine ⟨by decide, fun s => ?_⟩
  obtain ⟨t, hexec, h⟩ := exec_move s
  exact ⟨t, hexec, h.status ▸ word_succeeded, h.idle, h.kept, h.output, h.value, h.work, h.ilen, h.ibuf⟩

/-- Settles O12: MOVE keeps the output, so the second one moves what the first one moved. -/
theorem moveTwiceIsMoveOnce : Obligations.MoveTwiceIsMoveOnce := by
  intro s
  obtain ⟨t, hexec, h⟩ := exec_move s
  obtain ⟨u, hexec', h'⟩ := exec_move t
  exact ⟨t, u, hexec, hexec', h'.kept, h'.output, h.inputKept h', h'.status.trans h.status.symm⟩

/-! ## The step of a ready command -/

/-- A word that names a command runs as that command (R102). -/
theorem execWord_of_decode_ok {w : Word} {i : Instr} (h : decode w = .ok i) (s : State) :
    execWord w s = exec i s := by
  simp only [execWord, h]

/-- A ready command's step runs its word (R100). -/
theorem step_of_ready {s : State} {f : InFlight} (h : s.inFlight = some f) (hd : f.delay = 0) :
    step s = execWord f.word s := by
  simp only [step, readyWord_of_ready h hd]

/-- Every command is well formed (R70). -/
theorem instr_wellFormed (i : Instr) : i.wellFormed = true := by
  obtain ⟨hwf, _⟩ := roundTrip i
  exact hwf

/-- Settles O4, from the step of a ready command. -/
theorem stepRunsTheDecodedCommand : Obligations.StepRunsTheDecodedCommand :=
  ⟨fun s _ i hf hd hi => ⟨instr_wellFormed i, (step_of_ready hf hd).trans (execWord_of_decode_ok hi s)⟩,
    fun _ _ _ hf hd _ => step_of_ready hf hd⟩

/-- A word written as a number of 32 bits is that word. -/
theorem tableWord_toNat (w : Word) : tableWord 32 w.toNat = w := by
  rw [tableWord, Nat.mod_eq_of_lt w.isLt, BitVec.ofNat_toNat, BitVec.setWidth_eq]

/-- The state prepared for a command's word has that word accepted, with no delay (log entry 9). -/
theorem withFetchWord_encode (s : State) (i : Instr) :
    s.withFetchWord 32 (encode i).toNat = acceptFor 0 (encode i) s := by
  rw [State.withFetchWord, tableWord_toNat]

/-- Settles O6: the word is accepted with no delay, and acceptance changes CMD and STATUS alone. -/
theorem fetchWordRunsNext : Obligations.FetchWordRunsNext := by
  intro s i
  rw [withFetchWord_encode]
  refine ⟨?_, inputs_acceptFor _ _ _, rfl, word_accepted, ⟨rfl, rfl, rfl, rfl, rfl, rfl, rfl, rfl, rfl⟩,
    ⟨rfl, rfl, fun _ => rfl⟩, ⟨rfl, fun _ => rfl⟩⟩
  rw [step_of_ready (acceptFor_inFlight 0 (encode i) s) rfl]
  exact execWord_of_decode_ok (decode_encode i) _

/-! ## The run to completion -/

/-- After a command word, legal or not, the block is idle, DONE is 1 and CMD still holds the word (R24, R100). -/
theorem execWord_idles {w : Word} {s t : State} (h : execWord w s = .next t) :
    t.inFlight = none ∧ t.status.busy = false ∧ t.status.done = true ∧ t.cmd = s.cmd := by
  unfold execWord at h
  split at h
  · exact exec_idles h
  · cases h
    exact ⟨rfl, rfl, rfl, rfl⟩

/-- A run whose first step answers a next state goes on from there. -/
theorem run_succ {M : Host.Core} {s t : M.State} (h : M.step s = .next t) (n : Nat) :
    M.run (n + 1) s = M.run n t := by
  simp only [Host.Core.run, h]

/-- While a command waits, a step with an undisturbed host takes one from its delay and leaves STATUS and CMD alone
(R101, R106). -/
theorem step_of_waiting {s : State} {f : InFlight} (hf : s.inFlight = some f) (hd : f.delay ≠ 0)
    (hb : s.status.busy = true) (hh : ∀ e ∈ s.host, e.undisturbed = true) :
    ∃ t, step s = .next t ∧ t.inFlight = some { f with delay := f.delay - 1 } ∧ t.status = s.status ∧
      t.cmd = s.cmd ∧ ∀ e ∈ t.host, e.undisturbed = true := by
  rw [step_of_readyWord_none (readyWord_of_waiting hf hd), countDown_of_inFlight hf]
  exact hostTurn_busy hb hh

/-- Settles O53, by induction on the delay: the step at delay 0 completes the command, and the steps before it lead
there. -/
theorem everyAcceptedCommandCompletes : Obligations.EveryAcceptedCommandCompletes := by
  intro s f hf hb hh
  obtain ⟨w, inp, d⟩ := f
  induction d generalizing s with
  | zero =>
    obtain ⟨t, ht⟩ := execWord_completes w s
    exact ⟨t, run_succ (M := core) ((step_of_ready hf rfl).trans ht) 0, execWord_idles ht⟩
  | succ d ih =>
    obtain ⟨u, hstep, hflight, hstatus, hcmd, hhost⟩ := step_of_waiting hf (Nat.succ_ne_zero d) hb hh
    obtain ⟨t, hrun, hidle, hbusy, hdone, hcmd'⟩ := ih u (hstatus ▸ hb) hhost hflight
    exact ⟨t, (run_succ (M := core) hstep _).trans hrun, hidle, hbusy, hdone, hcmd'.trans hcmd⟩

end Sys2Proof.Machine
end

section
/-! SUPPORT. The bit-field commands (41_bitfield.md): when BF_EXTRACT and BF_INSERT fail, what a field reads as, and
what each command leaves behind where it succeeds; and the header maps they serve. -/

namespace Sys2Proof.Machine

/-! ## The rules of the two commands -/

/-- The word BF_EXTRACT puts in VALUE where it succeeds (R121). -/
def fieldWord (inp : Inputs) : Word := BitVec.ofNat 32 (streamField inp.string inp.arg0.toNat inp.arg1.toNat)

/-- BF_EXTRACT's errors in their order, and its result (R121). -/
theorem bfExtract_eq (inp : Inputs) : bfExtract inp =
    if inp.ilen.toNat > 4096 then .error .structural
    else if inp.arg1.toNat = 0 ∨ inp.arg1.toNat > 32 then .error .fieldConstraint
    else if inp.arg0.toNat + inp.arg1.toNat > 8 * inp.ilen.toNat then .error .structural
    else .ok (fieldWord inp) := by
  simp only [bfExtract, onInput, Inputs.string_length, widthLegal_eq_false, fieldWord]

/-- BF_INSERT's errors in their order, and its result (R122). -/
theorem bfInsert_eq (inp : Inputs) (m : Memory) : bfInsert inp m =
    if inp.ilen.toNat > 4096 then .error .structural
    else if inp.arg1.toNat = 0 ∨ inp.arg1.toNat > 32 then .error .fieldConstraint
    else if inp.value.toNat ≥ 2 ^ inp.arg1.toNat then .error .fieldConstraint
    else if inp.arg0.toNat + inp.arg1.toNat > 8 * inp.ilen.toNat then .error .structural
    else .ok (insertField m inp.arg0.toNat inp.arg1.toNat inp.value) := by
  simp only [bfInsert, onInput, Inputs.string_length, widthLegal_eq_false]

/-- The inputs name a field both commands accept: a width of 1 to 32, ending inside an input that fits IBUF (R120). -/
structure FieldLegal (inp : Inputs) : Prop where
  length : inp.ilen.toNat ≤ 4096
  width_pos : 1 ≤ inp.arg1.toNat
  width_le : inp.arg1.toNat ≤ 32
  inside : inp.arg0.toNat + inp.arg1.toNat ≤ 8 * inp.ilen.toNat

theorem bfExtract_of_legal {inp : Inputs} (h : FieldLegal inp) : bfExtract inp = .ok (fieldWord inp) := by
  obtain ⟨hlen, hpos, hle, hin⟩ := h
  rw [bfExtract_eq, if_neg (by omega), if_neg (by omega), if_neg (by omega)]

theorem bfInsert_of_legal {inp : Inputs} (h : FieldLegal inp) (hv : inp.value.toNat < 2 ^ inp.arg1.toNat)
    (m : Memory) : bfInsert inp m = .ok (insertField m inp.arg0.toNat inp.arg1.toNat inp.value) := by
  obtain ⟨hlen, hpos, hle, hin⟩ := h
  rw [bfInsert_eq, if_neg (by omega), if_neg (by omega), if_neg (Nat.not_le.2 hv), if_neg (by omega)]

/-! ## What a field reads as -/

theorem fieldWord_toNat {inp : Inputs} (h : FieldLegal inp) :
    (fieldWord inp).toNat = streamField inp.string inp.arg0.toNat inp.arg1.toNat :=
  Nat.mod_eq_of_lt ((streamField_lt _ _ _).trans_le (Nat.pow_le_pow_right (by decide) h.width_le))

/-- The value of a field fits its width: BF_INSERT takes back what BF_EXTRACT gives. -/
theorem fieldWord_lt {inp : Inputs} (h : FieldLegal inp) : (fieldWord inp).toNat < 2 ^ inp.arg1.toNat :=
  fieldWord_toNat h ▸ streamField_lt _ _ _

/-- A word below `2 ^ w` has no bit set from `w` on. -/
theorem getLsbD_of_toNat_lt {v : Word} {w k : Nat} (h : v.toNat < 2 ^ w) (hk : w ≤ k) : v.getLsbD k = false :=
  Nat.testBit_lt_two_pow (h.trans_le (Nat.pow_le_pow_right (by decide) hk))

/-- The first stream bit of the field is the most significant bit of its value (R120). -/
theorem fieldWord_getLsbD {inp : Inputs} (h : FieldLegal inp) {k : Nat} (hk : k < inp.arg1.toNat) :
    (fieldWord inp).getLsbD (inp.arg1.toNat - 1 - k) = bufferBit inp.ibuf (inp.arg0.toNat + k) := by
  have hin := h.inside
  calc (fieldWord inp).getLsbD (inp.arg1.toNat - 1 - k)
      = (streamField inp.string inp.arg0.toNat inp.arg1.toNat).testBit (inp.arg1.toNat - 1 - k) := by
        rw [← fieldWord_toNat h]; rfl
    _ = streamBit inp.string (inp.arg0.toNat + k) := streamField_testBit _ _ _ _ hk
    _ = bufferBit inp.ibuf (inp.arg0.toNat + k) := streamBit_bytes _ _ _ (by omega)

/-- The stream bits of a field determine its value. -/
theorem fieldWord_eq_of_bits {inp : Inputs} (h : FieldLegal inp) {v : Word} (hv : v.toNat < 2 ^ inp.arg1.toNat)
    (hbits : ∀ k < inp.arg1.toNat, bufferBit inp.ibuf (inp.arg0.toNat + k) = v.getLsbD (inp.arg1.toNat - 1 - k)) :
    fieldWord inp = v := by
  apply BitVec.eq_of_getLsbD_eq
  intro i _
  by_cases hi : i < inp.arg1.toNat
  · have hk : inp.arg1.toNat - 1 - i < inp.arg1.toNat := by omega
    have hbit := (fieldWord_getLsbD h hk).trans (hbits _ hk)
    rwa [show inp.arg1.toNat - 1 - (inp.arg1.toNat - 1 - i) = i by omega] at hbit
  · rw [getLsbD_of_toNat_lt (fieldWord_lt h) (by omega), getLsbD_of_toNat_lt hv (by omega)]

/-- A field reads back the value just inserted (R122). -/
theorem fieldWord_insertField {inp : Inputs} (h : FieldLegal inp) {v : Word} (hv : v.toNat < 2 ^ inp.arg1.toNat) :
    fieldWord { inp with ibuf := insertField inp.ibuf inp.arg0.toNat inp.arg1.toNat v } = v := by
  have h' : FieldLegal { inp with ibuf := insertField inp.ibuf inp.arg0.toNat inp.arg1.toNat v } :=
    ⟨h.length, h.width_pos, h.width_le, h.inside⟩
  refine fieldWord_eq_of_bits h' hv fun k hk => ?_
  rw [bufferBit_insertField, if_pos ⟨Nat.le_add_right .., Nat.add_lt_add_left hk _⟩, Nat.add_sub_cancel_left]

/-- Inserting what the field already reads as changes no byte (R122). -/
theorem byte_insertField_fieldWord {inp : Inputs} (h : FieldLegal inp) (i : Nat) :
    (insertField inp.ibuf inp.arg0.toNat inp.arg1.toNat (fieldWord inp)).byte i = inp.ibuf.byte i := by
  refine byte_eq_of_bufferBit_eq (fun j => ?_) i
  rw [bufferBit_insertField]
  split
  next hj => rw [fieldWord_getLsbD h (by omega), Nat.add_sub_cancel' hj.1]
  next => rfl

/-! ## What the two commands leave behind -/

theorem exec_bfExtract_of_error {s : State} {k : ErrorKind} (h : bfExtract s.inputs = .error k) :
    exec .bfExtract s = .next (raiseError false k s) := by
  simp only [exec, execBfExtract, h]

theorem exec_bfInsert_of_error {s : State} {k : ErrorKind} (h : bfInsert s.inputs s.ibuf = .error k) :
    exec .bfInsert s = .next (raiseError false k s) := by
  simp only [exec, execBfInsert, h]

theorem exec_bfExtract_of_legal {s : State} (h : FieldLegal s.inputs) :
    exec .bfExtract s = .next (succeed { s with value := fieldWord s.inputs }) := by
  simp only [exec, execBfExtract, bfExtract_of_legal h]

theorem exec_bfInsert_of_legal {s : State} (h : FieldLegal s.inputs)
    (hv : s.inputs.value.toNat < 2 ^ s.inputs.arg1.toNat) :
    exec .bfInsert s = .next (succeed { s with
      ibuf := insertField s.ibuf s.inputs.arg0.toNat s.inputs.arg1.toNat s.inputs.value }) := by
  simp only [exec, execBfInsert, bfInsert_of_legal h hv]

/-- A command that fails without writing OBUF ends with STATUS alone changed (R235). -/
theorem onlyStatus_of_error {i : Instr} {s : State} {k : ErrorKind} {st : Word}
    (h : exec i s = .next (raiseError false k s)) (hst : failedWord k = st) :
    ∃ t, exec i s = .next t ∧ OnlyStatus s t st :=
  ⟨_, h, hst ▸ onlyStatus_raiseError s k⟩

/-- A success that changes no more than IBUF and VALUE keeps what no command changes. -/
theorem kept_succeed_of_edit (s : State) (m : Memory) (v : Word) :
    Kept s (succeed { s with ibuf := m, value := v }) :=
  ⟨rfl, rfl, rfl, rfl, rfl, rfl, rfl, rfl, rfl⟩

/-- Settles O23, by the clauses of BF_EXTRACT's rule. -/
theorem bfExtractUnpacksTheField : Obligations.BfExtractUnpacksTheField := by
  refine ⟨by decide, fun s => ?_⟩
  dsimp only
  split_ifs with hlen hw hin
  · refine onlyStatus_of_error (k := .structural) (exec_bfExtract_of_error ?_) (by decide)
    rw [bfExtract_eq, if_pos hlen]
  · refine onlyStatus_of_error (k := .fieldConstraint) (exec_bfExtract_of_error ?_) (by decide)
    rw [bfExtract_eq, if_neg hlen, if_pos hw]
  · refine onlyStatus_of_error (k := .structural) (exec_bfExtract_of_error ?_) (by decide)
    rw [bfExtract_eq, if_neg hlen, if_neg hw, if_pos hin]
  · have hfield : FieldLegal s.inputs := ⟨by omega, by omega, by omega, by omega⟩
    exact ⟨_, exec_bfExtract_of_legal hfield, word_succeeded, rfl, kept_succeed_of_edit s s.ibuf _,
      ⟨rfl, fun _ => rfl⟩, rfl, rfl, fun _ => rfl, fun _ => fieldWord_getLsbD hfield,
      fun _ => getLsbD_of_toNat_lt (fieldWord_lt hfield)⟩

/-- Settles O24, by the clauses of BF_INSERT's rule. -/
theorem bfInsertPacksTheField : Obligations.BfInsertPacksTheField := by
  refine ⟨by decide, fun s => ?_⟩
  dsimp only
  split_ifs with hlen hw hv hin
  · refine onlyStatus_of_error (k := .structural) (exec_bfInsert_of_error ?_) (by decide)
    rw [bfInsert_eq, if_pos hlen]
  · refine onlyStatus_of_error (k := .fieldConstraint) (exec_bfInsert_of_error ?_) (by decide)
    rw [bfInsert_eq, if_neg hlen, if_pos hw]
  · refine onlyStatus_of_error (k := .fieldConstraint) (exec_bfInsert_of_error ?_) (by decide)
    rw [bfInsert_eq, if_neg hlen, if_neg hw, if_pos hv]
  · refine onlyStatus_of_error (k := .structural) (exec_bfInsert_of_error ?_) (by decide)
    rw [bfInsert_eq, if_neg hlen, if_neg hw, if_neg hv, if_pos hin]
  · have hfield : FieldLegal s.inputs := ⟨by omega, by omega, by omega, by omega⟩
    exact ⟨_, exec_bfInsert_of_legal hfield (Nat.not_le.1 hv), word_succeeded, rfl,
      kept_succeed_of_edit s _ s.value, ⟨rfl, fun _ => rfl⟩, rfl, rfl, rfl, bufferBit_insertField _ _ _ _⟩

/-- Settles O25: after either command the other reads the same field, and at the level of the field each undoes the
other. -/
theorem insertAndExtractAreInverse : Obligations.InsertAndExtractAreInverse := by
  intro s hinp hlen hpos hle hin
  have hlegal : FieldLegal (latch s) := ⟨hlen, hpos, hle, hin⟩
  have hfield : FieldLegal s.inputs := hinp ▸ hlegal
  constructor
  · intro hv
    have hinsert := exec_bfInsert_of_legal hfield (by rwa [hinp])
    rw [hinp] at hinsert
    exact ⟨_, _, hinsert, exec_bfExtract_of_legal ⟨hlen, hpos, hle, hin⟩, word_succeeded,
      fieldWord_insertField hlegal hv⟩
  · have hextract := exec_bfExtract_of_legal hfield
    rw [hinp] at hextract
    exact ⟨_, _, hextract, exec_bfInsert_of_legal ⟨hlen, hpos, hle, hin⟩ (fieldWord_lt hlegal), word_succeeded,
      byte_insertField_fieldWord (inp := latch s) hlegal⟩

/-! ## The header maps -/

/-- Fields that stand one after the other end where their widths sum to. -/
theorem sum_width_of_fieldsTile {start stop : Nat} {fs : List HeaderField} (h : fieldsTile start stop fs = true) :
    start + (fs.map HeaderField.width).sum = stop := by
  induction fs generalizing start with
  | nil => simpa [fieldsTile] using h
  | cons f rest ih =>
    obtain ⟨_, hrest⟩ := Bool.and_eq_true_iff.1 h
    rw [List.map_cons, List.sum_cons, ← Nat.add_assoc]
    exact ih hrest

/-- Settles O58: each map tiles its header, which fixes the sum of its widths. -/
theorem headerFieldsFillTheirHeaders : Obligations.HeaderFieldsFillTheirHeaders := by
  have tm : fieldsTile 0 48 tmHeader = true := by decide
  have aos : fieldsTile 0 48 aosHeader = true := by decide
  have tc : fieldsTile 0 40 tcHeader = true := by decide
  refine ⟨tm, aos, tc, ?_, ?_, ?_⟩
  · simpa using sum_width_of_fieldsTile tm
  · simpa using sum_width_of_fieldsTile aos
  · simpa using sum_width_of_fieldsTile tc

end Sys2Proof.Machine
end

section
/-! SUPPORT. Attached sync marker framing (42_asm.md): the completion of a result as the statements say it, when the two
commands fail, and the way of an output through MOVE into the next command's input. -/

namespace Sys2Proof.Machine

/-! ## The completion of a result -/

/-- `t` is `s` after a command whose result is `r`: a delivery of its bytes or a failure of its kind. -/
def OutputWritten (s t : State) (r : Except ErrorKind (List Byte)) : Prop :=
  match r with
  | .ok out => Delivered s t out
  | .error k => FailedOutput s t k

/-- A completion leaves its result, whatever the command spent before it (R103, R235). -/
theorem outputWritten_finishOutput {s u : State} {r : Except ErrorKind (List Byte)} (hk : Kept s u)
    (hi : InputKept s u) (hr : ResultFits r) : OutputWritten s (finishOutput r u) r := by
  cases r with
  | ok out => exact delivered_deliver hk hi (Nat.lt_of_le_of_lt hr (by decide))
  | error k => exact failedOutput_raiseError k hk hi

theorem exec_asmAttach (s : State) : ∃ t, exec .asmAttach s = .next t ∧ t.work = s.work ∧
    OutputWritten s t (asmAttach s.inputs) :=
  ⟨_, rfl, finishOutput_work _ _,
    outputWritten_finishOutput (Kept.refl s) (InputKept.refl s) (asmAttach_fits s.inputs)⟩

theorem exec_asmDetach (s : State) : ∃ t, exec .asmDetach s = .next t ∧ t.work = s.work ∧
    OutputWritten s t (asmDetach s.inputs) :=
  ⟨_, rfl, finishOutput_work _ _,
    outputWritten_finishOutput (Kept.refl s) (InputKept.refl s) (asmDetach_fits s.inputs)⟩

/-! ## The rules of the two commands -/

/-- ASM_ATTACH's errors in their order, and its result (R150). -/
theorem asmAttach_eq (inp : Inputs) : asmAttach inp =
    if inp.ilen.toNat > 4096 then .error .structural
    else if inp.asmLen.toNat = 0 ∨ inp.asmLen.toNat > 8 then .error .fieldConstraint
    else if inp.ilen.toNat + inp.asmLen.toNat > 4096 then .error .capacity
    else .ok (asmMarker inp ++ inp.string) := by
  simp only [asmAttach, onInput, asmLenLegal_eq_false, Inputs.string_length]

/-- The input fails to start with the marker where one of its first bytes differs from the marker's (R151). -/
theorem take_string_ne_asmMarker_iff {inp : Inputs} (h : inp.asmLen.toNat ≤ inp.ilen.toNat) :
    inp.string.take inp.asmLen.toNat ≠ asmMarker inp ↔
      ∃ i, i < inp.asmLen.toNat ∧ inp.ibuf.byte i ≠ asmByte inp i := by
  rw [Inputs.string, Memory.take_bytes _ _ _ h, Memory.bytes, asmMarker, Ne, List.map_inj_left]
  simp only [List.mem_range, not_forall, exists_prop, ne_eq]

/-- ASM_DETACH's errors in their order, and its result (R151). -/
theorem asmDetach_eq (inp : Inputs) : asmDetach inp =
    if inp.ilen.toNat > 4096 then .error .structural
    else if inp.asmLen.toNat = 0 ∨ inp.asmLen.toNat > 8 then .error .fieldConstraint
    else if inp.ilen.toNat < inp.asmLen.toNat then .error .markerNotFound
    else if ∃ i, i < inp.asmLen.toNat ∧ inp.ibuf.byte i ≠ asmByte inp i then .error .markerNotFound
    else .ok (inp.string.drop inp.asmLen.toNat) := by
  simp only [asmDetach, onInput, asmLenLegal_eq_false, Inputs.string_length]
  by_cases hshort : inp.ilen.toNat < inp.asmLen.toNat
  · simp only [if_pos hshort]
  · simp only [take_string_ne_asmMarker_iff (Nat.not_lt.1 hshort)]

/-- The inputs name a marker length the commands accept (R32). -/
structure MarkerLegal (inp : Inputs) : Prop where
  pos : 1 ≤ inp.asmLen.toNat
  le : inp.asmLen.toNat ≤ 8

theorem asmAttach_of_fits {inp : Inputs} (hm : MarkerLegal inp) (h : inp.ilen.toNat + inp.asmLen.toNat ≤ 4096) :
    asmAttach inp = .ok (asmMarker inp ++ inp.string) := by
  obtain ⟨hpos, hle⟩ := hm
  rw [asmAttach_eq, if_neg (by omega), if_neg (by omega), if_neg (by omega)]

/-- ASM_DETACH strips the marker from a string that was made by prepending it. -/
theorem asmDetach_of_string_eq {inp : Inputs} {d : List Byte} (hm : MarkerLegal inp) (hlen : inp.ilen.toNat ≤ 4096)
    (h : inp.string = asmMarker inp ++ d) : asmDetach inp = .ok d := by
  obtain ⟨hpos, hle⟩ := hm
  have htotal : inp.ilen.toNat = inp.asmLen.toNat + d.length := by
    simpa using congrArg List.length h
  have hsame : ¬ ∃ i, i < inp.asmLen.toNat ∧ inp.ibuf.byte i ≠ asmByte inp i := by
    rw [← take_string_ne_asmMarker_iff (by omega), h, not_not, List.take_left' (asmMarker_length inp)]
  have hdrop : inp.string.drop inp.asmLen.toNat = d := by
    rw [h, List.drop_left' (asmMarker_length inp)]
  rw [asmDetach_eq, if_neg (by omega), if_neg (by omega), if_neg (by omega), if_neg hsame, hdrop]

/-- Settles O13: the clauses of ASM_ATTACH's rule, each with what its completion leaves. -/
theorem asmAttachPrependsTheMarker : Obligations.AsmAttachPrependsTheMarker := by
  refine ⟨by decide, fun s => ?_⟩
  obtain ⟨t, hexec, hwork, h⟩ := exec_asmAttach s
  refine ⟨t, hexec, hwork, ?_⟩
  rw [asmAttach_eq] at h
  dsimp only
  split_ifs at h ⊢ <;> exact h

/-- Settles O14: the clauses of ASM_DETACH's rule, each with what its completion leaves. -/
theorem asmDetachStripsTheMarker : Obligations.AsmDetachStripsTheMarker := by
  refine ⟨by decide, fun s => ?_⟩
  obtain ⟨t, hexec, hwork, h⟩ := exec_asmDetach s
  refine ⟨t, hexec, hwork, ?_⟩
  rw [asmDetach_eq] at h
  dsimp only
  split_ifs at h ⊢ <;> exact h

/-! ## An output as the next input -/

theorem Kept.trans {s t u : State} (h : Kept s t) (h' : Kept t u) : Kept s u where
  cmd := h'.cmd.trans h.cmd
  ctrl := h'.ctrl.trans h.ctrl
  arg0 := h'.arg0.trans h.arg0
  arg1 := h'.arg1.trans h.arg1
  asmLen := h'.asmLen.trans h.asmLen
  asmPat0 := h'.asmPat0.trans h.asmPat0
  asmPat1 := h'.asmPat1.trans h.asmPat1
  host := h'.host.trans h.host
  reads := h'.reads.trans h.reads

theorem Kept.asmLen_latch {s t : State} (h : Kept s t) : (latch t).asmLen = (latch s).asmLen := h.asmLen

theorem MarkerLegal.of_kept {s t : State} (hm : MarkerLegal (latch s)) (h : Kept s t) : MarkerLegal (latch t) := by
  obtain ⟨hpos, hle⟩ := hm
  rw [← h.asmLen_latch] at hpos hle
  exact ⟨hpos, hle⟩

/-- The marker is the same after any commands, as they change none of its registers (R33, R107). -/
theorem Kept.asmMarker_latch {s t : State} (h : Kept s t) : asmMarker (latch t) = asmMarker (latch s) := by
  have hbyte : ∀ i, asmByte (latch t) i = asmByte (latch s) i := fun i => by
    simp only [asmByte, latch, h.asmPat0, h.asmPat1]
  rw [asmMarker, asmMarker, h.asmLen_latch]
  exact List.map_congr_left fun i _ => hbyte i

/-- MOVE makes the delivered bytes the next command's input string (R102, R105). -/
theorem Delivered.string_of_moved {s t u : State} {out : List Byte} (h : Delivered s t out) (h' : OutputMoved t u) :
    (latch u).string = out := by
  have hlen : u.ilen.toNat = out.length := by rw [h'.ilen, h.olen]
  calc (latch u).string
      = u.ibuf.bytes out.length := by rw [← hlen]; rfl
    _ = t.obuf.bytes out.length := Memory.bytes_congr fun i hi => by rw [h'.ibuf, if_pos (by rwa [h.olen])]
    _ = out := h.bytes

/-- Where the input string of `s` is delivered, OLEN is its length and OBUF reads as IBUF did (R36, R102). -/
theorem Delivered.eq_input {s t v : State} (h : Delivered t v (latch s).string) :
    v.olen = s.ilen ∧ ∀ i, i < s.ilen.toNat → v.obuf.byte i = s.ibuf.byte i := by
  have hlen : (latch s).string.length = s.ilen.toNat := Inputs.string_length _
  refine ⟨BitVec.eq_of_toNat_eq (h.olen.trans hlen), fun i hi => ?_⟩
  have hbytes : v.obuf.bytes s.ilen.toNat = (latch s).string := by rw [← hlen, h.bytes]
  rw [← Memory.bytes_getD v.obuf _ i hi, hbytes, Inputs.string_getD (latch s) i hi]
  rfl

/-- Settles O26: MOVE makes the attached string the input, and its marker is the one ASM_DETACH reads. -/
theorem detachUndoesAttach : Obligations.DetachUndoesAttach := by
  intro s hinp hpos hle hfit
  obtain ⟨t, hattach, _, hout⟩ := exec_asmAttach s
  have hlegal : MarkerLegal (latch s) := ⟨hpos, hle⟩
  rw [hinp, asmAttach_of_fits hlegal hfit] at hout
  have ht : Delivered s t (asmMarker (latch s) ++ (latch s).string) := hout
  obtain ⟨u, hmove, hu⟩ := exec_move t
  obtain ⟨v, hdetach, _, hout'⟩ := exec_asmDetach u
  have hkept : Kept s u := ht.kept.trans hu.kept
  have hlen : u.ilen.toNat ≤ 4096 := by
    rw [hu.ilen, ht.olen, List.length_append, asmMarker_length, Inputs.string_length]
    exact (Nat.add_comm ..).trans_le hfit
  have hstring : (latch u).string = asmMarker (latch u) ++ (latch s).string := by
    rw [ht.string_of_moved hu, hkept.asmMarker_latch]
  rw [inputs_of_idle u hu.idle, asmDetach_of_string_eq (hlegal.of_kept hkept) hlen hstring] at hout'
  have hv : Delivered u v (latch s).string := hout'
  obtain ⟨holen, hobuf⟩ := hv.eq_input
  exact ⟨t, u, v, hattach, hmove, hdetach, hv.status, holen, hobuf⟩

end Sys2Proof.Machine
end

section
/-! SUPPORT. The randomizer (43_randomizer.md): the bits of the LFSR's states, the period of the sequence, and RAND's
result as a change of the input byte by byte, which undoes itself. -/

namespace Sys2Proof.Machine

/-! ## The bit sequence -/

/-- The states the LFSR passes through hold the bit sequence: bit `i` of the state after `n` bits is still to go up
`7 - i` places before it is the oldest (R160). -/
theorem lfsrSteps_seed_getLsbD (n i : Nat) (h : i < 8) :
    (lfsrSteps n lfsrSeed).getLsbD i = lfsrBit (n + (7 - i)) := by
  have hup := lfsrSteps_getLsbD (lfsrSteps n lfsrSeed) (7 - i) i (by omega)
  rw [← lfsrSteps_add, show i + (7 - i) = 7 by omega] at hup
  exact hup.symm

theorem lfsrSteps_succ (n : Nat) (r : BitVec 8) : lfsrSteps (n + 1) r = lfsrStep1 (lfsrSteps n r) :=
  lfsrSteps_add n 1 r

/-- The first eight bits are those of the seed (R160). -/
theorem lfsrBit_of_lt_eight (n : Nat) (h : n < 8) : lfsrBit n = true := by
  have hseed : ∀ i < 8, lfsrSeed.getLsbD i = true := by decide
  have hbit := lfsrSteps_seed_getLsbD 0 (7 - n) (by omega)
  rw [show 0 + (7 - (7 - n)) = n by omega] at hbit
  exact hbit.symm.trans (hseed _ (by omega))

/-- The bit that enters the register is the recurrence's, read at the register's taps (R160). -/
theorem lfsrBit_add_eight (n : Nat) :
    lfsrBit (n + 8) = (lfsrBit (n + 7) ^^ lfsrBit (n + 5) ^^ lfsrBit (n + 3) ^^ lfsrBit n) := by
  have hnew := lfsrStep1_bit0 (lfsrSteps n lfsrSeed)
  rw [← lfsrSteps_succ] at hnew
  simp only [lfsrSteps_seed_getLsbD, Nat.reduceLT, Nat.reduceSub, Nat.reduceAdd, Nat.add_zero, Nat.add_assoc] at hnew
  rw [hnew]
  simp only [Bool.xor_assoc, Bool.xor_comm]

theorem pnByte_getLsbD (k j : Nat) (h : j < 8) : (pnByte k).getLsbD (7 - j) = lfsrBit (8 * k + j) := by
  rw [pnByte, lfsrSteps_seed_getLsbD _ _ (by omega), show 7 - (7 - j) = j by omega]

/-- The register form outputs PN (R160). -/
theorem pnRun_getD (n k : Nat) (h : k < n) : (pnRun n).getD k 0 = pnByte k := pnFrom_getD _ n k h

/-- Settles O29, from the bits of the LFSR's states. -/
theorem lfsrFollowsItsRecurrence : Obligations.LfsrFollowsItsRecurrence :=
  ⟨lfsrBit_of_lt_eight, lfsrBit_add_eight, pnByte_getLsbD, pnRun_getD⟩

/-! ## The period of the sequence -/

theorem lfsrSteps_eq_iterate (n : Nat) (r : BitVec 8) : lfsrSteps n r = lfsrStep1^[n] r := by
  induction n generalizing r with
  | zero => rfl
  | succ n ih => exact ih (lfsrStep1 r)

/-- The first 32 bytes of a run (R163). -/
def firstBytes : List Byte :=
  [0xFF, 0x48, 0x0E, 0xC0, 0x9A, 0x0D, 0x70, 0xBC, 0x8E, 0x2C, 0x93, 0xAD, 0xA7, 0xB7, 0x46, 0xCE, 0x5A, 0x97, 0x7D,
    0xCC, 0x32, 0xA2, 0xBF, 0x3E, 0x0A, 0x10, 0xF1, 0x88, 0x94, 0xCD, 0xEA, 0xB1]

theorem pnRun_32 : pnRun 32 = firstBytes := by decide

/-- Within the first 32 bytes the LFSR's state after a number of bits is a few steps from the byte they end in. -/
theorem lfsrSteps_seed_of_firstBytes (k j : Nat) (h : k < 32) :
    lfsrSteps (8 * k + j) lfsrSeed = lfsrSteps j (firstBytes.getD k 0) := by
  rw [lfsrSteps_add, ← pnRun_32, pnRun_getD _ _ h, pnByte]

theorem lfsrSteps_seed_255 : lfsrSteps 255 lfsrSeed = lfsrSeed :=
  (lfsrSteps_seed_of_firstBytes 31 7 (by decide)).trans (by decide)

theorem lfsrSteps_seed_85_ne : lfsrSteps 85 lfsrSeed ≠ lfsrSeed :=
  (lfsrSteps_seed_of_firstBytes 10 5 (by decide)).trans_ne (by decide)

theorem lfsrSteps_seed_51_ne : lfsrSteps 51 lfsrSeed ≠ lfsrSeed :=
  (lfsrSteps_seed_of_firstBytes 6 3 (by decide)).trans_ne (by decide)

theorem lfsrSteps_seed_15_ne : lfsrSteps 15 lfsrSeed ≠ lfsrSeed :=
  (lfsrSteps_seed_of_firstBytes 1 7 (by decide)).trans_ne (by decide)

/-- A number of bits brings the LFSR back to its seed exactly where it is a multiple of 255: the period divides 255, and
none of `255 / 3`, `255 / 5` and `255 / 17` is a multiple of it, as one of them would be were it smaller (R163). -/
theorem lfsrSteps_seed_eq_iff (n : Nat) : lfsrSteps n lfsrSeed = lfsrSeed ↔ 255 ∣ n := by
  have hiff : ∀ m, lfsrSteps m lfsrSeed = lfsrSeed ↔ Function.minimalPeriod lfsrStep1 lfsrSeed ∣ m := fun m => by
    rw [lfsrSteps_eq_iterate]
    exact Function.isPeriodicPt_iff_minimalPeriod_dvd
  have hdiv : ∀ d ∈ Nat.divisors 255, ¬ d ∣ 85 → ¬ d ∣ 51 → ¬ d ∣ 15 → d = 255 := by decide
  have hmem : Function.minimalPeriod lfsrStep1 lfsrSeed ∈ Nat.divisors 255 :=
    Nat.mem_divisors.2 ⟨(hiff 255).1 lfsrSteps_seed_255, by decide⟩
  rw [hiff, hdiv _ hmem ((hiff 85).not.1 lfsrSteps_seed_85_ne) ((hiff 51).not.1 lfsrSteps_seed_51_ne)
    ((hiff 15).not.1 lfsrSteps_seed_15_ne)]

/-- Any multiple of 255 bits after a state, the LFSR is in that state again (R163). -/
theorem lfsrSteps_seed_add (n p : Nat) (h : 255 ∣ p) : lfsrSteps (n + p) lfsrSeed = lfsrSteps n lfsrSeed := by
  rw [Nat.add_comm, lfsrSteps_add, (lfsrSteps_seed_eq_iff p).2 h]

/-- A period of the bit sequence brings the LFSR back to its seed, as the state is eight bits of the sequence. -/
theorem dvd_of_lfsrBit_periodic {p : Nat} (h : ∀ n, lfsrBit (n + p) = lfsrBit n) : 255 ∣ p := by
  refine (lfsrSteps_seed_eq_iff p).1 (BitVec.eq_of_getLsbD_eq fun i hi => ?_)
  calc (lfsrSteps p lfsrSeed).getLsbD i
      = lfsrBit (p + (7 - i)) := lfsrSteps_seed_getLsbD p i hi
    _ = lfsrBit (0 + (7 - i)) := by rw [Nat.add_comm, h, Nat.zero_add]
    _ = lfsrSeed.getLsbD i := (lfsrSteps_seed_getLsbD 0 i hi).symm

/-- Where PN[p] is PN[0], `8 p` bits bring the LFSR back to its seed. -/
theorem dvd_of_pnByte_eq_zero {p : Nat} (h : pnByte p = pnByte 0) : 255 ∣ p :=
  Nat.Coprime.dvd_of_dvd_mul_left (by decide : Nat.Coprime 255 8) ((lfsrSteps_seed_eq_iff _).1 h)

/-- Settles O30: the sequences repeat with the LFSR's states, and the listed bytes are the first of a run. -/
theorem sequenceHasPeriod255 : Obligations.SequenceHasPeriod255 := by
  refine ⟨fun n => ?_, fun p hpos hlt => ?_, fun k => ?_, fun p hpos hlt => ⟨0, fun h => ?_⟩, pnRun_32, by decide⟩
  · rw [lfsrBit, lfsrSteps_seed_add n 255 dvd_rfl, lfsrBit]
  · by_contra! hperiod
    exact Nat.not_dvd_of_pos_of_lt hpos hlt (dvd_of_lfsrBit_periodic hperiod)
  · rw [pnByte, Nat.mul_add, lfsrSteps_seed_add _ _ (Nat.dvd_mul_left 255 8), pnByte]
  · rw [Nat.zero_add] at h
    exact Nat.not_dvd_of_pos_of_lt hpos hlt (dvd_of_pnByte_eq_zero h)

/-! ## The rule of RAND -/

/-- What RAND makes of byte `i` of its input for the range `[start, stop)` (R162). -/
def randByte (start stop i : Nat) (b : Byte) : Byte :=
  if start ≤ i ∧ i < stop then b ^^^ pnByte (i - start) else b

/-- A byte randomized twice is as it was (R164). -/
theorem randByte_randByte (start stop i : Nat) (b : Byte) :
    randByte start stop i (randByte start stop i b) = b := by
  simp only [randByte]
  split
  · rw [BitVec.xor_assoc, BitVec.xor_self, BitVec.xor_zero]
  · rfl

/-- A string randomized twice is as it was (R164). -/
theorem mapIdx_randByte_mapIdx (start stop : Nat) (d : List Byte) :
    (d.mapIdx (randByte start stop)).mapIdx (randByte start stop) = d := by
  rw [List.mapIdx_mapIdx]
  refine List.ext_getElem (List.length_mapIdx ..) fun i _ _ => ?_
  rw [List.getElem_mapIdx]
  exact randByte_randByte ..

theorem pnRun_getElem (n i : Nat) (h : i < (pnRun n).length) : (pnRun n)[i] = pnByte i := by
  rw [← pnRun_getD n i (by simpa using h), List.getD_eq_getElem _ _ h]

/-- One run exclusive-ored into a range, between the bytes outside, is the string randomized byte by byte. -/
theorem take_append_xorBytes_append_drop {start stop : Nat} {d : List Byte} (hle : start ≤ stop)
    (hstop : stop ≤ d.length) :
    d.take start ++ xorBytes ((d.drop start).take (stop - start)) (pnRun (stop - start)) ++ d.drop stop =
      d.mapIdx (randByte start stop) := by
  have hbelow : (d.take start).length = start := List.length_take_of_le (hle.trans hstop)
  set run := xorBytes ((d.drop start).take (stop - start)) (pnRun (stop - start)) with hrun
  have hrange : run.length = stop - start := by
    rw [hrun, xorBytes_length, List.length_take, List.length_drop, pnRun_length]
    omega
  have hupto : (d.take start ++ run).length = stop := by
    rw [List.length_append, hbelow, hrange, Nat.add_sub_cancel' hle]
  refine List.ext_getElem ?_ fun i _ _ => ?_
  · rw [List.length_append, hupto, List.length_drop, Nat.add_sub_cancel' hstop, List.length_mapIdx]
  rw [List.getElem_mapIdx, randByte]
  by_cases hstop' : i < stop
  · rw [List.getElem_append_left (by omega)]
    by_cases hstart : i < start
    · rw [List.getElem_append_left (by omega), List.getElem_take, if_neg (by omega)]
    · rw [List.getElem_append_right (by omega), if_pos (by omega)]
      simp only [hrun, xorBytes, List.getElem_zipWith, List.getElem_take, List.getElem_drop, pnRun_getElem, hbelow,
        Nat.add_sub_cancel' (Nat.not_lt.1 hstart)]
  · rw [List.getElem_append_right (by omega), List.getElem_drop, if_neg (by omega)]
    simp only [hupto, Nat.add_sub_cancel' (Nat.not_lt.1 hstop')]

/-- RAND's errors in their order, and its result (R162). -/
theorem rand_eq (inp : Inputs) : rand inp =
    if inp.ilen.toNat > 4096 then .error .structural
    else if inp.arg0.toNat > inp.arg1.toNat ∨ inp.arg1.toNat > inp.ilen.toNat then .error .structural
    else .ok (inp.string.mapIdx (randByte inp.arg0.toNat inp.arg1.toNat)) := by
  simp only [rand, onInput, Inputs.string_length]
  by_cases hrange : inp.arg0.toNat > inp.arg1.toNat ∨ inp.arg1.toNat > inp.ilen.toNat
  · simp only [if_pos hrange]
  · rw [take_append_xorBytes_append_drop (by omega) (by rw [Inputs.string_length]; omega)]

/-- The randomized input byte by byte of IBUF. -/
theorem Inputs.mapIdx_string (inp : Inputs) (f : Nat → Byte → Byte) :
    inp.string.mapIdx f = (List.range inp.ilen.toNat).map fun i => f i (inp.ibuf.byte i) := by
  refine List.ext_getElem (by simp) fun i _ _ => ?_
  simp [Inputs.string]

theorem exec_rand (s : State) : ∃ t, exec .rand s = .next t ∧ OnlyLfsrSpent s t ∧
    OutputWritten s t (rand s.inputs) :=
  ⟨_, rfl, by rw [OnlyLfsrSpent, finishOutput_work, spendLfsr_work],
    outputWritten_finishOutput (Kept.refl s).spendLfsr (InputKept.refl s).spendLfsr (rand_fits s.inputs)⟩

/-- Settles O16: the clauses of RAND's rule, each with what its completion leaves. -/
theorem randExclusiveOrsOneRun : Obligations.RandExclusiveOrsOneRun := by
  refine ⟨by decide, fun s => ?_⟩
  obtain ⟨t, hexec, hwork, h⟩ := exec_rand s
  refine ⟨t, hexec, hwork, ?_⟩
  rw [rand_eq, Inputs.mapIdx_string] at h
  dsimp only
  split_ifs at h ⊢ <;> exact h

/-! ## RAND on its own output -/

/-- The inputs name a range RAND accepts (R162). -/
structure RangeLegal (inp : Inputs) : Prop where
  length : inp.ilen.toNat ≤ 4096
  ordered : inp.arg0.toNat ≤ inp.arg1.toNat
  inside : inp.arg1.toNat ≤ inp.ilen.toNat

theorem rand_of_legal {inp : Inputs} (h : RangeLegal inp) :
    rand inp = .ok (inp.string.mapIdx (randByte inp.arg0.toNat inp.arg1.toNat)) := by
  obtain ⟨hlen, hle, hin⟩ := h
  rw [rand_eq, if_neg (by omega), if_neg (by omega)]

theorem Kept.arg0_latch {s t : State} (h : Kept s t) : (latch t).arg0 = (latch s).arg0 := h.arg0

theorem Kept.arg1_latch {s t : State} (h : Kept s t) : (latch t).arg1 = (latch s).arg1 := h.arg1

/-- A range stays legal for an input of the same length, as no command changes ARG0 and ARG1 (R107). -/
theorem RangeLegal.of_kept {s t : State} (h : RangeLegal (latch s)) (hk : Kept s t)
    (hlen : (latch t).string.length = (latch s).string.length) : RangeLegal (latch t) := by
  obtain ⟨hlen', hle, hin⟩ := h
  rw [Inputs.string_length, Inputs.string_length] at hlen
  rw [← hlen] at hlen' hin
  rw [← hk.arg0_latch, ← hk.arg1_latch] at hle
  rw [← hk.arg1_latch] at hin
  exact ⟨hlen', hle, hin⟩

/-- Settles O27: MOVE makes the randomized string the input, and its second randomization is the original input. -/
theorem randIsSelfInverse : Obligations.RandIsSelfInverse := by
  intro s hinp hlen hle hin
  obtain ⟨t, hrand, _, hout⟩ := exec_rand s
  have hlegal : RangeLegal (latch s) := ⟨hlen, hle, hin⟩
  rw [hinp, rand_of_legal hlegal] at hout
  have ht : Delivered s t ((latch s).string.mapIdx (randByte (latch s).arg0.toNat (latch s).arg1.toNat)) := hout
  obtain ⟨u, hmove, hu⟩ := exec_move t
  obtain ⟨v, hrand', _, hout'⟩ := exec_rand u
  have hkept : Kept s u := ht.kept.trans hu.kept
  have hstring := ht.string_of_moved hu
  have hlegal' : RangeLegal (latch u) := hlegal.of_kept hkept (by rw [hstring, List.length_mapIdx])
  rw [inputs_of_idle u hu.idle, rand_of_legal hlegal', hstring, hkept.arg0_latch, hkept.arg1_latch,
    mapIdx_randByte_mapIdx] at hout'
  have hv : Delivered u v (latch s).string := hout'
  obtain ⟨holen, hobuf⟩ := hv.eq_input
  exact ⟨t, u, v, hrand, hmove, hrand', hv.status, holen, hobuf⟩

end Sys2Proof.Machine
end

section
/-! SUPPORT. The field of the Reed-Solomon code and its generator (44_reed_solomon.md, R180 to R182): the product of two
bytes as the reduced product of two binary polynomials, and the powers of alpha. -/

namespace Sys2Proof.Machine

/-! ## Multiplication as a reduced product of polynomials -/

/-- A product is linear in its second factor too (R12). -/
theorem carryless_xor_right (n a b b' : Nat) : carryless n a (b ^^^ b') = carryless n a b ^^^ carryless n a b' := by
  induction n with
  | zero => exact (Nat.xor_self 0).symm
  | succ n ih =>
    rw [carryless_succ, carryless_succ, carryless_succ, ih, Nat.shiftLeft_xor_distrib]
    split
    · ac_rfl
    · rfl

/-- The product of two bytes as polynomials over GF(2), reduced by the field's generator (R180). -/
def reducedProduct (a b : Byte) : Byte := BitVec.ofNat 8 (polyMod 0x11D 8 7 (carryless 8 a.toNat b.toNat))

theorem reducedProduct_xor_left (a a' b : Byte) :
    reducedProduct (a ^^^ a') b = reducedProduct a b ^^^ reducedProduct a' b := by
  rw [reducedProduct, BitVec.toNat_xor, carryless_xor, polyMod_xor, BitVec.ofNat_xor, reducedProduct, reducedProduct]

theorem reducedProduct_xor_right (a b b' : Byte) :
    reducedProduct a (b ^^^ b') = reducedProduct a b ^^^ reducedProduct a b' := by
  rw [reducedProduct, BitVec.toNat_xor, carryless_xor_right, polyMod_xor, BitVec.ofNat_xor, reducedProduct,
    reducedProduct]

/-- The two products agree on the powers of `x` that a byte holds. -/
theorem gmul_two_pow : ∀ i < 8, ∀ j < 8, gmul (BitVec.ofNat 8 (2 ^ i)) (BitVec.ofNat 8 (2 ^ j)) =
    reducedProduct (BitVec.ofNat 8 (2 ^ i)) (BitVec.ofNat 8 (2 ^ j)) := by decide

/-- Both products are linear in either factor, so they agree on all bytes (R180). -/
theorem gmul_eq_reducedProduct (a b : Byte) : gmul a b = reducedProduct a b := by
  refine additive_ext (f := (gmul · b)) (g := (reducedProduct · b)) (xor_gmul · · b)
    (reducedProduct_xor_left · · b) (fun i hi => ?_) a
  exact additive_ext (gmul_xor _) (reducedProduct_xor_right _) (gmul_two_pow i hi) b

/-! ## The powers of alpha -/

theorem alphaPow_mod (e : Nat) : alphaPow e = alphaPow (e % 255) := by
  rw [alphaPow, alphaPow, Nat.mod_mod]

theorem alphaPow_succ (e : Nat) : alphaPow (e + 1) = gmul (alphaPow e) 0x02 := by
  rw [alphaPow_eq, alphaPow_eq, gpow_succ]

/-- A byte other than 0 is exactly one of the powers 0 to 254 of alpha (R180). -/
theorem exists_unique_alphaPow (b : Byte) (h : b ≠ 0) :
    ∃ e, e < 255 ∧ alphaPow e = b ∧ ∀ e', e' < 255 → alphaPow e' = b → e' = e := by
  obtain ⟨e, he, rfl⟩ := exists_alphaPow b h
  exact ⟨e, he, rfl, fun e' he' heq => alphaPow_injOn he' he heq⟩

/-- Settles O31: multiplication by linearity, the powers of alpha by their distinctness. -/
theorem fieldOfTheGenerator0x11D : Obligations.FieldOfTheGenerator0x11D :=
  ⟨gmul_eq_reducedProduct, exists_unique_alphaPow, fun e => ⟨alphaPow_ne_zero e, alphaPow_mod e, alphaPow_succ e⟩,
    rfl, by decide, by decide, by decide, by decide +kernel, by decide +kernel⟩

/-- Settles O32, by multiplying the 32 linear factors out. -/
theorem generatorIsTheProductOfItsRoots : Obligations.GeneratorIsTheProductOfItsRoots :=
  ⟨rfl, by decide +kernel, rfl⟩

end Sys2Proof.Machine
end

section
/-! SUPPORT. The Reed-Solomon encoder (44_reed_solomon.md, R184 and R185): its shift register divides by the generator,
so the data and the check bytes together are a multiple of it and have its roots. -/

namespace Sys2Proof.Machine

/-! ## The check bytes at the roots of the generator -/

theorem rsParity_append_singleton (d : List Byte) (b : Byte) : rsParity (d ++ [b]) = rsShiftIn (rsParity d) b := by
  rw [rsParity, List.foldl_append]
  rfl

/-- At a root of the generator the check bytes have the value of `d(x) x^32` (R184). -/
theorem evalHigh_rsParity (d : List Byte) {x : Byte} (hx : evalHigh rsGenerator x = 0) :
    evalHigh (rsParity d) x = gmul (gpow x 32) (evalHigh d x) := by
  induction d using List.reverseRecOn with
  | nil => exact (evalHigh_replicate_zero 32 x).trans (gmul_zero _).symm
  | append_singleton d b ih =>
    rw [rsParity_append_singleton, evalHigh_rsShiftIn _ _ (rsParity_length d) _ hx, ih, evalHigh_append_singleton,
      gmul_xor, gmul_assoc]

/-- Settles O33: at a root the data and the check bytes have the same value, and the two cancel. -/
theorem encoderOutputIsACodeword : Obligations.EncoderOutputIsACodeword := by
  intro d hd
  refine (isCodeword_iff _).2 ⟨by rw [List.length_append, hd, rsParity_length], fun j hj => ?_⟩
  rw [syndrome, evalHigh_append, rsParity_length, evalHigh_rsParity d (rsGenerator_roots j hj), byte_xor_self]

/-! ## The quotient of the division -/

theorem productCoefficient_nil (g : List Byte) (k : Nat) : productCoefficient [] g k = 0 := by
  simp only [productCoefficient, List.getD_nil, zero_gmul]
  induction List.range (k + 1) with
  | nil => rfl
  | cons i is ih => rw [List.map_cons, List.foldr_cons, ih, byte_xor_self]

/-- A constant coefficient put below a polynomial, in its product with another. -/
theorem productCoefficient_cons (c : Byte) (q g : List Byte) (k : Nat) : productCoefficient (c :: q) g k =
    gmul c (g.getD k 0) ^^^ if k = 0 then 0 else productCoefficient q g (k - 1) := by
  cases k with
  | zero => simp [productCoefficient]
  | succ k =>
    rw [productCoefficient, List.range_succ_eq_map, List.map_cons, List.map_map, List.foldr_cons]
    simp only [Function.comp_def, Nat.succ_eq_add_one, List.getD_cons_zero, List.getD_cons_succ, Nat.sub_zero,
      Nat.add_sub_add_right, Nat.add_one_sub_one, if_neg (Nat.succ_ne_zero k), productCoefficient]

theorem getD_map_gmul (a : Byte) (p : List Byte) (k : Nat) : (p.map (gmul a)).getD k 0 = gmul a (p.getD k 0) := by
  have h := List.getD_map (l := p) (d := 0) (n := k) (gmul a)
  rwa [gmul_zero] at h

/-- One data byte into the register: the remainder moves up one place, and the multiple of the generator that clears the
place above the register is taken from it (R185). -/
theorem cons_rsShiftIn {rem : List Byte} (h : rem.length = 32) (b : Byte) : b :: rsShiftIn rem b =
    List.zipWith (· ^^^ ·) (rem ++ [0]) (rsGenerator.map (gmul (b ^^^ rem.headD 0))) := by
  obtain ⟨a, rest, rfl⟩ := List.exists_cons_of_length_eq_add_one h
  have hhead : a ^^^ gmul (b ^^^ a) 1 = b := by
    rw [gmul_one, BitVec.xor_comm b, ← BitVec.xor_assoc, byte_xor_self, byte_zero_xor]
  rw [List.zipWith_map_right]
  exact congrArg₂ List.cons hhead.symm rfl

/-- The coefficients of a block after one data byte more, constant one first. -/
theorem reverse_append_rsShiftIn (d : List Byte) {rem : List Byte} (h : rem.length = 32) (b : Byte) (k : Nat) :
    (d ++ [b] ++ rsShiftIn rem b).reverse.getD k 0 = gmul (b ^^^ rem.headD 0) (rsGenerator.reverse.getD k 0) ^^^
      if k = 0 then 0 else (d ++ rem).reverse.getD (k - 1) 0 := by
  have hlen : (rem ++ [0]).length = (rsGenerator.map (gmul (b ^^^ rem.headD 0))).length := by
    rw [List.length_append, h, List.length_map]
    rfl
  have hup : (if k = 0 then 0 else (d ++ rem).reverse.getD (k - 1) 0) =
      (0 :: rem.reverse ++ d.reverse).getD k 0 := by
    rw [List.reverse_append]
    cases k <;> rfl
  rw [List.append_assoc, List.singleton_append, cons_rsShiftIn h, hup, List.reverse_append,
    List.reverse_zipWith hlen, ← List.map_reverse, List.reverse_append, List.reverse_singleton, List.singleton_append]
  have hlow : (0 :: rem.reverse).length = 33 := by rw [List.length_cons, List.length_reverse, h]
  have hgen : (rsGenerator.reverse.map (gmul (b ^^^ rem.headD 0))).length = 33 := by rw [List.length_map]; rfl
  by_cases hk : k < 33
  · rw [List.getD_append _ _ _ _ (by rw [List.length_zipWith]; omega), List.getD_append _ _ _ _ (by omega),
      getD_zipWith_xor _ _ (by omega), getD_map_gmul, BitVec.xor_comm]
  · rw [List.getD_append_right _ _ _ _ (by rw [List.length_zipWith]; omega), List.getD_append_right _ _ _ _ (by omega),
      List.length_zipWith, hgen, hlow, List.getD_eq_default rsGenerator.reverse _ (Nat.not_lt.1 hk), gmul_zero,
      byte_zero_xor]
    rfl

/-- The feedback bytes of the register are the coefficients of a quotient of `d(x) x^32` by the generator, whose
remainder is the check bytes (R184, R185). -/
theorem exists_quotient_of_rsParity (d : List Byte) : ∃ q : List Byte, q.length = d.length ∧
    ∀ k, (d ++ rsParity d).reverse.getD k 0 = productCoefficient q rsGenerator.reverse k := by
  induction d using List.reverseRecOn with
  | nil =>
    refine ⟨[], rfl, fun k => ?_⟩
    rw [productCoefficient_nil, List.nil_append, rsParity, List.foldl_nil, List.reverse_replicate,
      List.getD_eq_getElem?_getD, List.getElem?_getD_replicate_default_eq]
  | append_singleton d b ih =>
    obtain ⟨q, hq, hprod⟩ := ih
    refine ⟨(b ^^^ (rsParity d).headD 0) :: q, by simp [hq], fun k => ?_⟩
    rw [rsParity_append_singleton, reverse_append_rsShiftIn d (rsParity_length d), productCoefficient_cons, hprod]

theorem exec_rsEncode (s : State) : ∃ t, exec .rsEncode s = .next t ∧ OnlyRsSpent s t ∧
    OutputWritten s t (rsEncode s.inputs) :=
  ⟨_, rfl, by simp [OnlyRsSpent, finishOutput_work],
    outputWritten_finishOutput (Kept.refl s).spendRs (InputKept.refl s).spendRs (rsEncode_fits s.inputs)⟩

/-- RS_ENCODE's errors in their order, and its result (R184). -/
theorem rsEncode_eq (inp : Inputs) : rsEncode inp =
    if inp.ilen.toNat > 4096 then .error .structural
    else if inp.ilen.toNat ≠ 223 then .error .lengthMismatch
    else .ok (inp.string ++ rsParity inp.string) := by
  simp only [rsEncode, onInput, Inputs.string_length]

/-- Settles O17: the clauses of RS_ENCODE's rule, each with what its completion leaves, and the quotient of the
division. -/
theorem rsEncodeAppendsTheRemainder : Obligations.RsEncodeAppendsTheRemainder := by
  refine ⟨by decide, fun s => ?_⟩
  obtain ⟨t, hexec, hwork, h⟩ := exec_rsEncode s
  refine ⟨t, hexec, hwork, ?_⟩
  rw [rsEncode_eq] at h
  dsimp only
  split_ifs at h ⊢ with _ hlen
  · exact h
  · exact h
  · obtain ⟨q, hq, hprod⟩ := exists_quotient_of_rsParity s.inputs.string
    have hlen' : q.length = 223 := by rw [hq, Inputs.string_length]; omega
    exact ⟨_, q, rsParity_length _, hlen', h, fun k _ => hprod k⟩

end Sys2Proof.Machine
end

section
/-! SUPPORT. The distance of the Reed-Solomon code (44_reed_solomon.md, R183): the syndromes are power sums of the
errors, and 32 of them determine up to 32 errors at known positions; so given data has but one string of check bytes. -/

namespace Sys2Proof.Machine

/-! ## Errors as weights of power sums -/

/-- The error at position `i` as the syndromes weigh it: times its location's power `RS_FCR` (R183, R187). -/
def errorWeight (c r : List Byte) (i : Nat) : Byte :=
  gmul (c.getD i 0 ^^^ r.getD i 0) (gpow (location i) rsFcr)

theorem errorWeight_eq_zero_iff (c r : List Byte) (i : Nat) : errorWeight c r i = 0 ↔ c.getD i 0 = r.getD i 0 := by
  constructor
  · intro h
    rcases gmul_eq_zero h with h | h
    · exact (xor_eq_zero_iff_eq _ _).1 h
    · exact absurd h (gpow_ne_zero (location_ne_zero i) _)
  · intro h
    rw [errorWeight, h, byte_xor_self, zero_gmul]

theorem mem_errorPositions_of_errorWeight_ne_zero {c r : List Byte} {i : Nat} (hi : i < 255)
    (h : errorWeight c r i ≠ 0) : i ∈ errorPositions c r :=
  (mem_errorPositions c r i).2 ⟨hi, fun heq => h ((errorWeight_eq_zero_iff c r i).2 heq)⟩

/-- The syndromes of a block are the power sums of its errors against any codeword. -/
theorem syndrome_eq_powerSum {c r : List Byte} (hc : isCodeword c = true) (hr : r.length = 255) {j : Nat}
    (hj : j < 32) : syndrome r j = xorSum 255 fun i => gmul (errorWeight c r i) (gpow (location i) j) := by
  rw [syndrome_of_errors c r hc hr j hj]
  refine xorSum_congr fun i _ => ?_
  rw [errorWeight, gpow_add, gmul_assoc]

/-- Weights on at most `w` error positions are 0 where their first `w` power sums are. -/
theorem weights_eq_zero_of_powerSums {c r : List Byte} {w : Nat} (f : Nat → Byte)
    (hw : (errorPositions c r).length ≤ w) (hf : ∀ i, i < 255 → f i ≠ 0 → i ∈ errorPositions c r)
    (h : ∀ j, j < w → xorSum 255 (fun i => gmul (f i) (gpow (location i) j)) = 0) : ∀ i, i < 255 → f i = 0 :=
  weights_eq_zero 255 w f location (errorPositions c r) hw hf
    (fun _ hi _ hj hloc => location_injOn hi ((mem_errorPositions c r _).1 hj).1 hloc) h

/-! ## The minimum distance -/

theorem isCodeword_length {c : List Byte} (h : isCodeword c = true) : c.length = 255 := ((isCodeword_iff c).1 h).1

/-- Two blocks that agree at each of the 255 positions are equal. -/
theorem eq_of_getD_eq {c r : List Byte} (hc : c.length = 255) (hr : r.length = 255)
    (h : ∀ i, i < 255 → c.getD i 0 = r.getD i 0) : c = r := by
  refine List.ext_getElem (hc.trans hr.symm) fun i hi hi' => ?_
  have hget := h i (hc ▸ hi)
  rwa [List.getD_eq_getElem _ _ hi, List.getD_eq_getElem _ _ hi'] at hget

/-- Settles O35: the syndromes of a codeword are 0, and 32 of them determine up to 32 differences from another. -/
theorem distinctCodewordsDifferIn33Positions : Obligations.DistinctCodewordsDifferIn33Positions := by
  intro c c' hc hc' hne
  by_contra hnear
  have hlen := isCodeword_length hc
  obtain ⟨hlen', hzero⟩ := (isCodeword_iff c').1 hc'
  rw [distance_eq_length c c' hlen hlen'] at hnear
  have hweights := weights_eq_zero_of_powerSums (w := 32) (errorWeight c c') (by omega)
    (fun i hi => mem_errorPositions_of_errorWeight_ne_zero hi)
    (fun j hj => (syndrome_eq_powerSum hc hlen' hj).symm.trans (hzero j hj))
  exact hne (eq_of_getD_eq hlen hlen' fun i hi => (errorWeight_eq_zero_iff c c' i).1 (hweights i hi))

/-! ## The check bytes of given data -/

theorem isCodeword_xor {c c' : List Byte} (hc : isCodeword c = true) (hc' : isCodeword c' = true) :
    isCodeword (xorBytes c c') = true := by
  obtain ⟨hlen, hzero⟩ := (isCodeword_iff c).1 hc
  obtain ⟨hlen', hzero'⟩ := (isCodeword_iff c').1 hc'
  refine (isCodeword_iff _).2 ⟨by rw [xorBytes_length, hlen, hlen', Nat.min_self], fun j hj => ?_⟩
  rw [xorBytes, syndrome_xor c c' (hlen.trans hlen'.symm), hzero j hj, hzero' j hj, byte_xor_self]

theorem distance_append_left (d p p' : List Byte) : distance (d ++ p) (d ++ p') = distance p p' := by
  induction d with
  | nil => rfl
  | cons b d ih => simpa [distance] using ih

theorem distance_le_length (c r : List Byte) : distance c r ≤ c.length := by
  induction c generalizing r with
  | nil => exact Nat.le_refl 0
  | cons a c ih =>
    cases r with
    | nil => exact Nat.zero_le _
    | cons b r =>
      have := ih r
      simp only [distance, List.zipWith_cons_cons, List.sum_cons, List.length_cons] at this ⊢
      split <;> omega

/-- Only its own check bytes complete a data string to a codeword (R183, R184). -/
theorem eq_rsParity_of_isCodeword {d p : List Byte} (hd : d.length = 223) (hp : p.length = 32)
    (h : isCodeword (d ++ p) = true) : p = rsParity d := by
  by_contra hne
  have hfar := distinctCodewordsDifferIn33Positions _ _ h (encoderOutputIsACodeword d hd)
    fun heq => hne (List.append_cancel_left heq)
  rw [distance_append_left] at hfar
  have := distance_le_length p (rsParity d)
  omega

/-- Settles O34: the codewords of two strings add up to one of their sum, and that has but one string of check bytes. -/
theorem encodingIsLinear : Obligations.EncodingIsLinear := by
  intro d e hd he
  refine (eq_rsParity_of_isCodeword (by simp [hd, he]) (by simp) ?_).symm
  have hsum := isCodeword_xor (encoderOutputIsACodeword d hd) (encoderOutputIsACodeword e he)
  rwa [xorBytes, List.zipWith_append (hd.trans he.symm)] at hsum

end Sys2Proof.Machine
end

section
/-! SUPPORT. The Reed-Solomon decoder (44_reed_solomon.md, R186 to R188): its locator finds every error where there are
at most 16, its error values are then the errors, and what it delivers it has checked. -/

namespace Sys2Proof.Machine

/-! ## What the locator finds -/

theorem syndromes_getD_drop_take (r : List Byte) {m j : Nat} (hm : m < 16) (hj : j < 17) :
    (((syndromes r).drop m).take 17).getD j 0 = syndrome r (m + j) := by
  rw [← syndromes_getD r (m + j) (by omega), List.getD_eq_getElem?_getD, List.getD_eq_getElem?_getD,
    List.getElem?_take_of_lt hj, List.getElem?_drop]

/-- The locator polynomial vanishes at the location of every error, where there are at most 16: its values there weigh
the errors so that 16 power sums are 0 (R187). -/
theorem rsLocator_root {c r : List Byte} (hc : isCodeword c = true) (hr : r.length = 255) (hnear : distance c r ≤ 16)
    {i : Nat} (hi : i ∈ errorPositions c r) : evalLow (rsLocator (syndromes r)) (location i) = 0 := by
  obtain ⟨t, _, hlead, hrows⟩ := rsLocator_spec (syndromes r)
  set u := rsLocator (syndromes r)
  rw [distance_eq_length c r (isCodeword_length hc) hr] at hnear
  obtain ⟨hlt, hdiff⟩ := (mem_errorPositions c r i).1 hi
  have hsums : ∀ m, m < 16 → xorSum 255
      (fun k => gmul (gmul (errorWeight c r k) (evalLow u (location k))) (gpow (location k) m)) = 0 := by
    intro m hm
    rw [← hrows m hm, dot_powerSums 255 (errorWeight c r) location u _ m (by simp [hlead.length]; omega)
      fun j hj => ?_]
    · exact xorSum_congr fun k _ => by rw [gmul_assoc, gmul_assoc, gmul_comm (gpow _ _)]
    · rw [hlead.length] at hj
      rw [syndromes_getD_drop_take r hm hj, syndrome_eq_powerSum hc hr (by omega)]
  have hweight := weights_eq_zero_of_powerSums (fun k => gmul (errorWeight c r k) (evalLow u (location k))) hnear
    (fun k hk hne => mem_errorPositions_of_errorWeight_ne_zero hk fun h0 => hne (by rw [h0, zero_gmul])) hsums i hlt
  exact (gmul_eq_zero hweight).resolve_left fun h0 => hdiff ((errorWeight_eq_zero_iff c r i).1 h0)

theorem mem_rsPositions (u : List Byte) (i : Nat) : i ∈ rsPositions u ↔ i < 255 ∧ evalLow u (location i) = 0 := by
  simp [rsPositions]

/-- The decoder suspects at most 16 positions (R187). -/
theorem rsPositions_rsLocator_length (syn : List Byte) : (rsPositions (rsLocator syn)).length ≤ 16 := by
  obtain ⟨t, ht, hlead, _⟩ := rsLocator_spec syn
  have hnodup : ((rsPositions (rsLocator syn)).map location).Nodup := by
    refine List.Nodup.map_on (fun i hi j hj => ?_) (List.nodup_range.filter _)
    exact location_injOn ((mem_rsPositions _ i).1 hi).1 ((mem_rsPositions _ j).1 hj).1
  have hroots := hlead.roots_le _ hnodup fun x hx => by
    obtain ⟨i, hi, rfl⟩ := List.mem_map.1 hx
    exact ((mem_rsPositions _ i).1 hi).2
  rw [List.length_map] at hroots
  omega

/-! ## The error values -/

/-- A polynomial that vanishes at the location of every error but one sifts that one's weight out of the syndromes. -/
theorem dot_syndromes_of_other_roots {c r m : List Byte} (hc : isCodeword c = true) (hr : r.length = 255)
    (hm : m.length ≤ 32) {i : Nat} (hi : i < 255)
    (hroots : ∀ k ∈ errorPositions c r, k ≠ i → evalLow m (location k) = 0) :
    dot m (syndromes r) = gmul (errorWeight c r i) (evalLow m (location i)) := by
  have hother : ∀ k, k < 255 → k ≠ i →
      gmul (gmul (errorWeight c r k) (gpow (location k) 0)) (evalLow m (location k)) = 0 := by
    intro k hk hki
    by_cases hzero : errorWeight c r k = 0
    · rw [hzero, zero_gmul, zero_gmul]
    · rw [hroots k (mem_errorPositions_of_errorWeight_ne_zero hk hzero) hki, gmul_zero]
  rw [dot_powerSums 255 (errorWeight c r) location m _ 0 (by rwa [syndromes_length]) fun j hj => ?_,
    xorSum_single hi hother, gpow_zero, gmul_one]
  rw [Nat.zero_add, syndromes_getD _ _ (by omega), syndrome_eq_powerSum hc hr (by omega)]

/-- Where all errors are among a few suspected positions, the value found at each of these is the error there. -/
theorem rsErrorValue_eq {c r : List Byte} {ps : List Nat} (hc : isCodeword c = true) (hr : r.length = 255)
    (hlen : ps.length ≤ 16) (hps : ∀ i ∈ ps, i < 255) (herr : ∀ i ∈ errorPositions c r, i ∈ ps) {i : Nat}
    (hi : i < 255) : rsErrorValue (syndromes r) ps i = c.getD i 0 ^^^ r.getD i 0 := by
  set others := (ps.filter (· ≠ i)).map location with hothers
  have hself : evalLow (rootProduct others) (location i) ≠ 0 := by
    rw [Ne, evalLow_rootProduct_eq_zero, hothers, List.mem_map]
    rintro ⟨k, hk, hloc⟩
    obtain ⟨hk, hki⟩ := List.mem_filter.1 hk
    exact absurd (location_injOn (hps k hk) hi hloc) (by simpa using hki)
  have hroots : ∀ k ∈ errorPositions c r, k ≠ i → evalLow (rootProduct others) (location k) = 0 := by
    intro k hk hki
    rw [evalLow_rootProduct_eq_zero, hothers]
    exact List.mem_map_of_mem (List.mem_filter.2 ⟨herr k hk, by simpa using hki⟩)
  have hfew : (rootProduct others).length ≤ 32 := by
    have := List.length_filter_le (fun k => decide (k ≠ i)) ps
    rw [rootProduct_length, hothers, List.length_map]
    omega
  have hsum := dot_syndromes_of_other_roots hc hr hfew hi hroots
  rw [errorWeight, gmul_assoc] at hsum
  have hdivisor := gmul_ne_zero (gpow_ne_zero (location_ne_zero i) rsFcr) hself
  rw [rsErrorValue, ← hothers, hsum, gmul_assoc, gmul_ginv _ hdivisor, gmul_one]

/-! ## The bounded-distance decoder -/

theorem rsCorrect_getD (r : List Byte) {i : Nat} (hi : i < 255) : (rsCorrect r).getD i 0 =
    if i ∈ rsPositions (rsLocator (syndromes r)) then
      r.getD i 0 ^^^ rsErrorValue (syndromes r) (rsPositions (rsLocator (syndromes r))) i
    else r.getD i 0 := by
  rw [List.getD_eq_getElem _ _ (by rwa [rsCorrect_length])]
  simp [rsCorrect]

/-- The decoder corrects a block to the codeword within 16 errors of it (R186). -/
theorem rsCorrect_eq_of_near {c r : List Byte} (hc : isCodeword c = true) (hr : r.length = 255)
    (hnear : distance c r ≤ 16) : rsCorrect r = c := by
  have herr : ∀ i ∈ errorPositions c r, i ∈ rsPositions (rsLocator (syndromes r)) := fun i hi =>
    (mem_rsPositions _ i).2 ⟨((mem_errorPositions c r i).1 hi).1, rsLocator_root hc hr hnear hi⟩
  refine eq_of_getD_eq (rsCorrect_length r) (isCodeword_length hc) fun i hi => ?_
  rw [rsCorrect_getD r hi]
  split
  next =>
    rw [rsErrorValue_eq hc hr (rsPositions_rsLocator_length _) (fun i hi => ((mem_rsPositions _ i).1 hi).1) herr hi,
      BitVec.xor_comm (c.getD i 0), ← BitVec.xor_assoc, byte_xor_self, byte_zero_xor]
  next hout =>
    by_contra hdiff
    exact hout (herr i ((mem_errorPositions c r i).2 ⟨hi, Ne.symm hdiff⟩))

theorem rsDecodeBlock_of_near {c r : List Byte} (hc : isCodeword c = true) (hr : r.length = 255)
    (hnear : distance c r ≤ 16) : rsDecodeBlock r = .ok (c.take 223) := by
  simp only [rsDecodeBlock, rsCorrect_eq_of_near hc hr hnear, hc, hnear, decide_true, Bool.and_self, if_true]

/-- The decoder delivers nothing but a codeword within 16 errors, so it fails where there is none (R186). -/
theorem rsDecodeBlock_of_far {r : List Byte} (hfar : ∀ c, isCodeword c = true → distance c r > 16) :
    rsDecodeBlock r = .error .checksum := by
  refine if_neg fun h => ?_
  obtain ⟨hc, hnear⟩ := Bool.and_eq_true_iff.1 h
  exact absurd (of_decide_eq_true hnear) (Nat.not_le.2 (hfar _ hc))

theorem rsDecodeBlock_eq_error_iff {r : List Byte} (hr : r.length = 255) :
    rsDecodeBlock r = .error .checksum ↔ ∀ c, isCodeword c = true → distance c r > 16 := by
  refine ⟨fun herr c hc => ?_, rsDecodeBlock_of_far⟩
  by_contra hnear
  rw [rsDecodeBlock_of_near hc hr (Nat.not_lt.1 hnear)] at herr
  cases herr

theorem rsDecodeBlock_of_near_encoded {d r : List Byte} (hd : d.length = 223) (hr : r.length = 255)
    (hnear : distance (d ++ rsParity d) r ≤ 16) : rsDecodeBlock r = .ok d := by
  rw [rsDecodeBlock_of_near (encoderOutputIsACodeword d hd) hr hnear, List.take_left' hd]

theorem distance_self (c : List Byte) : distance c c = 0 := by
  simp [distance, List.zipWith_self]

/-- Settles O36: a block near an encoded one is near its codeword, and an encoded block is at distance 0 of itself. -/
theorem decodingRecoversFromSixteenErrors : Obligations.DecodingRecoversFromSixteenErrors :=
  ⟨fun d hd => rsDecodeBlock_of_near_encoded hd (by rw [List.length_append, hd, rsParity_length])
      ((distance_self _).trans_le (Nat.zero_le 16)),
    fun _ _ => rsDecodeBlock_of_near_encoded, fun _ => rsDecodeBlock_eq_error_iff⟩

/-! ## The command -/

theorem exec_rsDecode (s : State) : ∃ t, exec .rsDecode s = .next t ∧ OnlyRsSpent s t ∧
    OutputWritten s t (rsDecode s.inputs) :=
  ⟨_, rfl, by simp [OnlyRsSpent, finishOutput_work],
    outputWritten_finishOutput (Kept.refl s).spendRs (InputKept.refl s).spendRs (rsDecode_fits s.inputs)⟩

/-- RS_DECODE's errors in their order, and its result (R186). -/
theorem rsDecode_eq (inp : Inputs) : rsDecode inp =
    if inp.ilen.toNat > 4096 then .error .structural
    else if inp.ilen.toNat ≠ 255 then .error .lengthMismatch
    else rsDecodeBlock inp.string := by
  simp only [rsDecode, onInput, Inputs.string_length]

/-- Settles O18: the clauses of RS_DECODE's rule, each with what its completion leaves. -/
theorem rsDecodeIsBoundedDistance : Obligations.RsDecodeIsBoundedDistance := by
  refine ⟨by decide, fun s => ?_⟩
  obtain ⟨t, hexec, hwork, h⟩ := exec_rsDecode s
  refine ⟨t, hexec, hwork, ?_⟩
  rw [rsDecode_eq] at h
  dsimp only
  split_ifs at h ⊢ with _ hlen
  · exact h
  · exact h
  · have hr : s.inputs.string.length = 255 := (Inputs.string_length _).trans (not_not.1 hlen)
    refine ⟨fun c hc hnear => ?_, fun hfar => ?_⟩
    · rwa [rsDecodeBlock_of_near hc hr hnear] at h
    · rwa [rsDecodeBlock_of_far hfar] at h

end Sys2Proof.Machine
end

section
/-! SUPPORT. The pseudo-BCH code (45_bch_cltu.md, R200 to R205): the check byte as a remainder and as a shift register's
contents, and a syndrome, linear in the codeword, whose columns show which errors the check detects. -/

namespace Sys2Proof.Machine

/-! ## The check byte as a remainder -/

theorem blockPoly_lt {b : List Byte} (h : b.length = 7) : blockPoly b < 2 ^ 56 := by
  obtain ⟨hlt, _⟩ := blockPoly_bits b
  rwa [h] at hlt

/-- Coefficient `55 - i` of a 7-byte block is its stream bit `i` (R200). -/
theorem blockPoly_testBit {b : List Byte} (h : b.length = 7) {i : Nat} (hi : i < 56) :
    (blockPoly b).testBit (55 - i) = streamBit b i := by
  obtain ⟨_, hbits⟩ := blockPoly_bits b
  rw [h] at hbits
  exact hbits i hi

/-- The parity of CCSDS_231: the remainder of `x^7 D(x)` by the generator, of degree below 7 (R200). -/
theorem parity231_lt {b : List Byte} (h : b.length = 7) : polyMod 0xC5 7 56 (blockPoly b <<< 7) < 2 ^ 7 :=
  polyMod_lt (by decide) (by decide) (Nat.shiftLeft_lt (blockPoly_lt h))

/-- The remainder of `x^8 D(x)` by the generator of DOC_G8, of degree below 8 (R201). -/
theorem parityG8_lt {b : List Byte} (h : b.length = 7) : polyMod 0x1A9 8 56 (blockPoly b <<< 8) < 2 ^ 8 :=
  polyMod_lt (by decide) (by decide) (Nat.shiftLeft_lt (blockPoly_lt h))

/-- The complement of seven bits. -/
theorem xor_0x7F {p : Nat} (h : p < 2 ^ 7) : p ^^^ 0x7F = 127 - p := by
  revert p
  decide

/-- Under CCSDS_231 the check byte is the complement of the parity, then a 0 bit (R200). -/
theorem check231_toNat {b : List Byte} (h : b.length = 7) :
    (check231 b).toNat = 2 * (127 - polyMod 0xC5 7 56 (blockPoly b <<< 7)) := by
  rw [check231, xor_0x7F (parity231_lt h), BitVec.toNat_ofNat, Nat.shiftLeft_eq]
  omega

/-- Under DOC_G8 the check byte is the remainder (R201). -/
theorem checkG8_toNat {b : List Byte} (h : b.length = 7) :
    (checkG8 b).toNat = polyMod 0x1A9 8 56 (blockPoly b <<< 8) := by
  rw [checkG8, BitVec.toNat_ofNat, Nat.mod_eq_of_lt (parityG8_lt h)]

/-- Settles O37: the model's long division leaves a remainder of lower degree than the generator. -/
theorem checkByteIsThePolynomialRemainder : Obligations.CheckByteIsThePolynomialRemainder := by
  intro b hb
  obtain ⟨q, hq⟩ := polyMod_multiple 0xC5 7 56 56 (blockPoly b <<< 7) le_rfl
  obtain ⟨q', hq'⟩ := polyMod_multiple 0x1A9 8 56 56 (blockPoly b <<< 8) le_rfl
  exact ⟨blockPoly_lt hb, fun i hi => blockPoly_testBit hb hi, ⟨q, _, parity231_lt hb, hq, check231_toNat hb⟩,
    q', _, parityG8_lt hb, hq', checkG8_toNat hb⟩

/-! ## The long division bit by bit -/

theorem two_mul_testBit_succ (p i : Nat) : (2 * p).testBit (i + 1) = p.testBit i := by
  rw [Nat.testBit_succ, Nat.mul_div_cancel_left p (by decide)]

theorem two_mul_xor (p q : Nat) : 2 * (p ^^^ q) = 2 * p ^^^ 2 * q := by
  have h := Nat.shiftLeft_xor_distrib (a := p) (b := q) (i := 1)
  simpa only [Nat.shiftLeft_eq, pow_one, Nat.mul_comm] using h

/-- A dividend with no bits at or above the generator's degree is its own remainder. -/
theorem polyMod_of_lt {g deg n p : Nat} (h : p < 2 ^ deg) : polyMod g deg n p = p := by
  induction n with
  | zero => rfl
  | succ n ih =>
    have htop : p.testBit (deg + n) = false :=
      Nat.testBit_lt_two_pow (h.trans_le (Nat.pow_le_pow_right (by decide) (Nat.le_add_right deg n)))
    rw [polyMod, htop, if_neg Bool.false_ne_true, ih]

/-- Where only the lowest step of the division can find a bit to clear, the steps above it do nothing. -/
theorem polyMod_succ_of_lt {g deg p : Nat} (h : p < 2 ^ (deg + 1)) (n : Nat) :
    polyMod g deg (n + 1) p = polyMod g deg 1 p := by
  induction n with
  | zero => rfl
  | succ n ih =>
    have htop : p.testBit (deg + (n + 1)) = false :=
      Nat.testBit_lt_two_pow (h.trans_le (Nat.pow_le_pow_right (by decide) (by omega)))
    rw [polyMod, htop, if_neg Bool.false_ne_true, ih]

/-- A multiple of `x` is divided by dividing without that factor first. -/
theorem polyMod_two_mul (g deg n p : Nat) :
    polyMod g deg (n + 1) (2 * p) = polyMod g deg 1 (2 * polyMod g deg n p) := by
  induction n generalizing p with
  | zero => rfl
  | succ n ih =>
    rw [polyMod, ← Nat.add_assoc, two_mul_testBit_succ, Nat.shiftLeft_succ, ← two_mul_xor, ← apply_ite (2 * ·), ih,
      ← polyMod]

/-- One bit more at the low end of a dividend takes one step more of the division (R202). -/
theorem polyMod_append_bit (g deg n D : Nat) (bit : Bool) :
    polyMod g deg (n + 1) ((2 * D + bit.toNat) <<< deg) =
      polyMod g deg 1 (2 * polyMod g deg n (D <<< deg) ^^^ (bit.toNat <<< deg)) := by
  have hbit : bit.toNat <<< deg < 2 ^ (deg + 1) := Nat.add_comm deg 1 ▸ Nat.shiftLeft_lt (n := 1) (Bool.toNat_lt bit)
  have hxor : 2 * D + bit.toNat = 2 * D ^^^ bit.toNat := by
    apply Nat.eq_of_testBit_eq
    rintro (_ | i) <;> cases bit <;> simp [Nat.testBit_succ]
  rw [hxor, Nat.shiftLeft_xor_distrib, polyMod_xor, polyMod_succ_of_lt hbit, polyMod_xor, ← polyMod_two_mul]
  congr 2
  simp only [Nat.shiftLeft_eq, Nat.mul_assoc]

/-! ## The check byte bit by bit -/

/-- One bit into a register of `w` bits that divides by `x^w + low` (R202). -/
def serialStep {w : Nat} (low r : BitVec w) (bit : Bool) : BitVec w :=
  if r.getLsbD (w - 1) ^^ bit then (r <<< 1) ^^^ low else r <<< 1

theorem serial231_eq : serial231 = serialStep 0x45 := rfl

theorem serialG8_eq : serialG8 = serialStep 0xA9 := rfl

/-- The top bit of a register leaves it at a shift. -/
theorem two_mul_toNat {w : Nat} (hw : 0 < w) (r : BitVec w) :
    2 * r.toNat = ((r.getLsbD (w - 1)).toNat <<< w) ^^^ (r <<< 1).toNat := by
  have htop : ∀ b : Bool, ∀ i, (b.toNat <<< w).testBit i = (decide (i = w) && b) := fun b i => by
    cases b <;> simp [Nat.one_shiftLeft, Nat.testBit_two_pow, eq_comm]
  apply Nat.eq_of_testBit_eq
  intro i
  rw [Nat.testBit_xor, htop, BitVec.testBit_toNat, BitVec.getLsbD_shiftLeft]
  cases i with
  | zero => simp [hw.ne]
  | succ i =>
    rw [two_mul_testBit_succ, BitVec.testBit_toNat]
    rcases lt_trichotomy (i + 1) w with h | rfl | h
    · simp [h, h.ne]
    · simp
    · simp [h.ne', h.not_gt, BitVec.getLsbD_of_ge r i (Nat.lt_succ_iff.1 h)]

/-- One bit into the register is one step of the long division. -/
theorem serialStep_toNat {w : Nat} (hw : 0 < w) (low r : BitVec w) (bit : Bool) :
    (serialStep low r bit).toNat =
      polyMod (2 ^ w ^^^ low.toNat) w 1 (2 * r.toNat ^^^ (bit.toNat <<< w)) := by
  have htop : (2 ^ w).testBit (w + 0) = true := Nat.testBit_two_pow_self
  have hone : polyMod (2 ^ w ^^^ low.toNat) w 1 (2 ^ w) = low.toNat := by
    rw [polyMod, htop, if_pos rfl, polyMod, Nat.shiftLeft_zero, ← Nat.xor_assoc, Nat.xor_self, Nat.zero_xor]
  have hfed : ∀ b : Bool, polyMod (2 ^ w ^^^ low.toNat) w 1 (b.toNat <<< w) = if b then low.toNat else 0 := by
    rintro (_ | _)
    · rw [Bool.toNat_false, Nat.zero_shiftLeft, polyMod_zero, if_neg Bool.false_ne_true]
    · rw [Bool.toNat_true, Nat.one_shiftLeft, hone, if_pos rfl]
  rw [two_mul_toNat hw, Nat.xor_right_comm, polyMod_xor, polyMod_of_lt (r <<< 1).isLt, polyMod_xor, hfed, hfed,
    serialStep]
  cases r.getLsbD (w - 1) <;> cases bit <;> simp [Nat.xor_comm]

/-- The register holds the remainder of the bits it has taken in, the first the highest coefficient (R202). -/
theorem foldl_serialStep_toNat {w : Nat} (hw : 0 < w) (low : BitVec w) (n D : Nat) (hD : D < 2 ^ n) :
    (((List.range n).map fun i => D.testBit (n - 1 - i)).foldl (serialStep low) 0).toNat =
      polyMod (2 ^ w ^^^ low.toNat) w n (D <<< w) := by
  induction n generalizing D with
  | zero => simp [Nat.lt_one_iff.1 hD]
  | succ n ih =>
    have hbits : ((List.range n).map fun i => D.testBit (n + 1 - 1 - i)) =
        (List.range n).map fun i => (D / 2).testBit (n - 1 - i) :=
      List.map_congr_left fun i hi => by
        have := List.mem_range.1 hi
        rw [show n + 1 - 1 - i = n - 1 - i + 1 by omega, Nat.testBit_succ]
    have hlast : 2 * (D / 2) + (D.testBit 0).toNat = D := by
      rcases Nat.mod_two_eq_zero_or_one D with h | h <;> simp [h] <;> omega
    rw [List.range_succ, List.map_append, List.foldl_append, hbits, List.map_singleton, List.foldl_cons,
      List.foldl_nil, serialStep_toNat hw, ih _ (by omega), ← polyMod_append_bit]
    simp only [Nat.add_sub_cancel, Nat.sub_self, hlast]

/-- The bits of a block are the coefficients of its polynomial, the highest first (R200). -/
theorem blockBits_eq {b : List Byte} (h : b.length = 7) :
    blockBits b = (List.range 56).map fun i => (blockPoly b).testBit (56 - 1 - i) :=
  List.map_congr_left fun _ hi => (blockPoly_testBit h (List.mem_range.1 hi)).symm

/-- Under CCSDS_231 the register ends with the parity (R202). -/
theorem foldl_serial231 {b : List Byte} (h : b.length = 7) :
    ((blockBits b).foldl serial231 0).toNat = polyMod 0xC5 7 56 (blockPoly b <<< 7) := by
  rw [blockBits_eq h, serial231_eq]
  exact foldl_serialStep_toNat (by decide) 0x45 56 (blockPoly b) (blockPoly_lt h)

/-- Under DOC_G8 the register ends with the check byte (R202). -/
theorem foldl_serialG8 {b : List Byte} (h : b.length = 7) :
    ((blockBits b).foldl serialG8 0).toNat = polyMod 0x1A9 8 56 (blockPoly b <<< 8) := by
  rw [blockBits_eq h, serialG8_eq]
  exact foldl_serialStep_toNat (by decide) 0xA9 56 (blockPoly b) (blockPoly_lt h)

/-- Settles O38: the register divides bit by bit as the long division does. -/
theorem serialCheckEqualsThePolynomialOne : Obligations.SerialCheckEqualsThePolynomialOne := by
  intro v b hb
  apply BitVec.eq_of_toNat_eq
  cases v with
  | ccsds231 =>
    have hparity := parity231_lt hb
    rw [serialCheck, bchCheck, check231_toNat hb, BitVec.toNat_shiftLeft, BitVec.toNat_setWidth, BitVec.toNat_not,
      foldl_serial231 hb, Nat.shiftLeft_eq]
    omega
  | docG8 => rw [serialCheck, bchCheck, checkG8_toNat hb, foldl_serialG8 hb]

/-! ## The syndrome of a codeword -/

/-- The generator of 8-bit check bytes: under CCSDS_231 the generator of R200 times `x`, for the filler bit. -/
def bchModulus : Config.BchVariant → Nat
  | .ccsds231 => 0x18A
  | .docG8 => 0x1A9

/-- The check byte of the zero block: the complemented parity of CCSDS_231, nothing under DOC_G8. -/
def bchResidue : Config.BchVariant → Nat
  | .ccsds231 => 0xFE
  | .docG8 => 0

/-- The remainder of a codeword, its check byte included, by the generator. -/
def bchSyndrome (v : Config.BchVariant) (c : List Byte) : Nat := polyMod (bchModulus v) 8 56 (blockPoly c)

theorem bchSyndrome_xorBytes (v : Config.BchVariant) {c e : List Byte} (h : c.length = e.length) :
    bchSyndrome v (xorBytes c e) = bchSyndrome v c ^^^ bchSyndrome v e := by
  rw [bchSyndrome, blockPoly_xorBytes c e h, polyMod_xor]
  rfl

/-- Dividend and generator may be multiplied by `x` alike. -/
theorem polyMod_two_mul_two_mul (g deg n p : Nat) :
    polyMod (2 * g) (deg + 1) n (2 * p) = 2 * polyMod g deg n p := by
  induction n generalizing p with
  | zero => rfl
  | succ n ih =>
    have hshift : (2 * g) <<< n = 2 * (g <<< n) := by
      rw [Nat.shiftLeft_eq, Nat.shiftLeft_eq, Nat.mul_assoc]
    rw [polyMod, Nat.add_right_comm, two_mul_testBit_succ, hshift, ← two_mul_xor, ← apply_ite (2 * ·), ih, polyMod]

/-- What the generator leaves of the data is the check byte, up to its complement. -/
theorem polyMod_bchModulus (v : Config.BchVariant) {b : List Byte} (h : b.length = 7) :
    polyMod (bchModulus v) 8 56 (blockPoly b <<< 8) = (bchCheck v b).toNat ^^^ bchResidue v := by
  cases v with
  | ccsds231 =>
    have hparity := parity231_lt h
    have hxor : 2 * (127 - polyMod 0xC5 7 56 (blockPoly b <<< 7)) ^^^ 0xFE =
        2 * polyMod 0xC5 7 56 (blockPoly b <<< 7) := by
      rw [← xor_0x7F hparity, show 0xFE = 2 * 0x7F from rfl, ← two_mul_xor, Nat.xor_assoc, Nat.xor_self, Nat.xor_zero]
    rw [bchCheck, check231_toNat h]
    exact (Nat.shiftLeft_succ (blockPoly b) 7 ▸ polyMod_two_mul_two_mul 0xC5 7 56 _).trans hxor.symm
  | docG8 => exact (checkG8_toNat h).symm.trans (Nat.xor_zero _).symm

theorem blockPoly_append_singleton (b : List Byte) (x : Byte) :
    blockPoly (b ++ [x]) = (blockPoly b <<< 8) ^^^ x.toNat := by
  have h := xor_mul_256_add (blockPoly b) 0 0 x
  simpa [blockPoly, Nat.shiftLeft_eq] using h.symm

/-- A codeword's syndrome compares its check byte with that of its data. -/
theorem bchSyndrome_append_singleton (v : Config.BchVariant) {b : List Byte} (h : b.length = 7) (x : Byte) :
    bchSyndrome v (b ++ [x]) = (bchCheck v b).toNat ^^^ bchResidue v ^^^ x.toNat := by
  rw [bchSyndrome, blockPoly_append_singleton, polyMod_xor, polyMod_bchModulus v h, polyMod_of_lt x.isLt]

/-- An 8-byte string is its first seven bytes and its last. -/
theorem eq_take_append_getD {c : List Byte} (h : c.length = 8) : c = c.take 7 ++ [c.getD 7 0] := by
  rw [List.getD_eq_getElem _ _ (by omega), List.take_append_getElem, List.take_of_length_le (by omega)]

/-- A codeword is good exactly where its syndrome is that of the zero block with its check byte (R204). -/
theorem codewordGood_iff (v : Config.BchVariant) {c : List Byte} (h : c.length = 8) :
    CodewordGood v c ↔ bchSyndrome v c = bchResidue v := by
  have hlen : (c.take 7).length = 7 := by rw [List.length_take]; omega
  have hsyn := bchSyndrome_append_singleton v hlen (c.getD 7 0)
  rw [← eq_take_append_getD h, Nat.xor_right_comm] at hsyn
  rw [hsyn, xor_right_eq_self_iff, Nat.xor_eq_zero_iff, ← BitVec.toNat_eq, eq_comm]

/-- An error that turns one good codeword into another has syndrome 0. -/
theorem bchSyndrome_eq_zero_of_good {v : Config.BchVariant} {c e : List Byte} (hc : c.length = 8) (he : e.length = 8)
    (hgood : CodewordGood v c) (hgood' : CodewordGood v (xorBytes c e)) : bchSyndrome v e = 0 := by
  have hlen : (xorBytes c e).length = 8 := by rw [xorBytes_length, hc, he, Nat.min_self]
  rw [codewordGood_iff v hc] at hgood
  rw [codewordGood_iff v hlen, bchSyndrome_xorBytes v (hc.trans he.symm), hgood] at hgood'
  exact xor_left_eq_self_iff.1 hgood'

/-- An error in the check byte alone is its own syndrome. -/
theorem bchSyndrome_of_checkByte (v : Config.BchVariant) {e : List Byte} (h : e.length = 8)
    (hdata : e.take 7 = List.replicate 7 0) : bchSyndrome v e = (e.getD 7 0).toNat := by
  have hzero : blockPoly (List.replicate 7 0) = 0 := by decide
  have he : blockPoly e = (e.getD 7 0).toNat := by
    conv_lhs => rw [eq_take_append_getD h, hdata, blockPoly_append_singleton, hzero, Nat.zero_shiftLeft, Nat.zero_xor]
  rw [bchSyndrome, he, polyMod_of_lt (BitVec.isLt _)]

/-! ## The columns of the syndrome -/

/-- The syndrome of an error in stream bit `i` alone. -/
def bchColumn (v : Config.BchVariant) (i : Nat) : Nat := polyMod (bchModulus v) 8 56 (2 ^ (63 - i))

/-- The exclusive-or of a list of numbers. -/
def xorAll (xs : List Nat) : Nat := xs.foldr (· ^^^ ·) 0

/-- The stream bits of an 8-byte string that are set. -/
def setBits (e : List Byte) : List Nat := (List.range 64).filter (streamBit e)

theorem mem_setBits {e : List Byte} {i : Nat} : i ∈ setBits e ↔ i < 64 ∧ streamBit e i = true := by
  rw [setBits, List.mem_filter, List.mem_range]

theorem setBits_nodup (e : List Byte) : (setBits e).Nodup := List.nodup_range.filter _

theorem bitsSet_eq {e : List Byte} (h : e.length = 8) : bitsSet e = (setBits e).length := by
  rw [bitsSet, h]
  rfl

theorem xorAll_cons (x : Nat) (xs : List Nat) : xorAll (x :: xs) = x ^^^ xorAll xs := rfl

/-- A sum of distinct powers of `x` has the coefficients it lists. -/
theorem xorAll_powers_testBit {is : List Nat} (hnodup : is.Nodup) (hlt : ∀ i ∈ is, i < 64) {k : Nat} (hk : k < 64) :
    (xorAll (is.map fun i => 2 ^ (63 - i))).testBit (63 - k) = decide (k ∈ is) := by
  induction is with
  | nil => exact Nat.zero_testBit _
  | cons i is ih =>
    obtain ⟨hi, hnodup⟩ := List.nodup_cons.1 hnodup
    have hrest := ih hnodup fun j hj => hlt j (List.mem_cons_of_mem _ hj)
    have hi64 := hlt i List.mem_cons_self
    rw [List.map_cons, xorAll_cons, Nat.testBit_xor, Nat.testBit_two_pow, hrest]
    by_cases hki : k = i
    · subst hki
      simp [hi]
    · have hne : 63 - i ≠ 63 - k := by omega
      simp [hki, hne]

theorem xorAll_powers_lt (is : List Nat) : xorAll (is.map fun i => 2 ^ (63 - i)) < 2 ^ 64 := by
  induction is with
  | nil => decide
  | cons i is ih =>
    exact Nat.xor_lt_two_pow (Nat.pow_lt_pow_right (by decide) (by omega)) ih

/-- An 8-byte string as the sum of the powers of `x` at its set bits (R200). -/
theorem blockPoly_eq_xorAll {e : List Byte} (h : e.length = 8) :
    blockPoly e = xorAll ((setBits e).map fun i => 2 ^ (63 - i)) := by
  obtain ⟨hlt, hbits⟩ := blockPoly_bits e
  rw [h] at hlt hbits
  apply Nat.eq_of_testBit_eq
  intro m
  by_cases hm : m < 64
  · have hk : 63 - m < 64 := by omega
    have hsum := xorAll_powers_testBit (setBits_nodup e) (fun i hi => (mem_setBits.1 hi).1) hk
    have hbit := hbits (63 - m) hk
    rw [show 8 * 8 - 1 - (63 - m) = m by omega] at hbit
    rw [show 63 - (63 - m) = m by omega] at hsum
    rw [hbit, hsum]
    simp [mem_setBits, hk]
  · have hm : 2 ^ 64 ≤ 2 ^ m := Nat.pow_le_pow_right (by decide) (by omega)
    rw [Nat.testBit_lt_two_pow (hlt.trans_le hm), Nat.testBit_lt_two_pow ((xorAll_powers_lt _).trans_le hm)]

theorem polyMod_xorAll (g deg n : Nat) (xs : List Nat) :
    polyMod g deg n (xorAll xs) = xorAll (xs.map (polyMod g deg n)) := by
  induction xs with
  | nil => exact polyMod_zero g deg n
  | cons x xs ih => exact (polyMod_xor g deg n x _).trans (congrArg (_ ^^^ ·) ih)

/-- The syndrome of an error is the sum of the columns of its bits. -/
theorem bchSyndrome_eq_xorAll (v : Config.BchVariant) {e : List Byte} (h : e.length = 8) :
    bchSyndrome v e = xorAll ((setBits e).map (bchColumn v)) := by
  rw [bchSyndrome, blockPoly_eq_xorAll h, polyMod_xorAll, List.map_map]
  rfl

theorem bchColumn_ne_zero (v : Config.BchVariant) : ∀ i < 64, bchColumn v i ≠ 0 := by
  cases v <;> decide +kernel

theorem bchColumns_nodup (v : Config.BchVariant) : ((List.range 64).map (bchColumn v)).Nodup := by
  cases v <;> decide +kernel

theorem bchColumn_injOn (v : Config.BchVariant) {i j : Nat} (hi : i < 64) (hj : j < 64)
    (h : bchColumn v i = bchColumn v j) : i = j :=
  List.inj_on_of_nodup_map (bchColumns_nodup v) (List.mem_range.2 hi) (List.mem_range.2 hj) h

/-- The generator of CCSDS_231 has the factor `x + 1`, so each of its columns has an odd number of bits. -/
theorem bchColumn_odd : ∀ i < 64, polyMod 3 1 7 (bchColumn .ccsds231 i) = 1 := by
  decide +kernel

/-- One or two columns do not add up to 0. -/
theorem xorAll_columns_ne_zero (v : Config.BchVariant) {is : List Nat} (hnodup : is.Nodup) (hlt : ∀ i ∈ is, i < 64)
    (hpos : 1 ≤ is.length) (hle : is.length ≤ 2) : xorAll (is.map (bchColumn v)) ≠ 0 := by
  match is with
  | [i] => simpa [xorAll] using bchColumn_ne_zero v i (hlt i (by simp))
  | [i, j] =>
    intro hzero
    have hcols : bchColumn v i = bchColumn v j := by simpa [xorAll, Nat.xor_eq_zero_iff] using hzero
    have hij := bchColumn_injOn v (hlt i (by simp)) (hlt j (by simp)) hcols
    simp [hij] at hnodup

/-- Under CCSDS_231 three columns do not add up to 0 either, as their sum has an odd number of bits. -/
theorem xorAll_three_columns_ne_zero {i j k : Nat} (hi : i < 64) (hj : j < 64) (hk : k < 64) :
    xorAll ([i, j, k].map (bchColumn .ccsds231)) ≠ 0 := by
  intro hzero
  have hodd := congrArg (polyMod 3 1 7) hzero
  rw [polyMod_xorAll, List.map_map, List.map_cons, List.map_cons, List.map_cons] at hodd
  simp [bchColumn_odd, xorAll, hi, hj, hk] at hodd

/-- Settles O39: an undetected error has syndrome 0, and the columns of few bits do not add up to that. -/
theorem bchDetectsSmallErrors : Obligations.BchDetectsSmallErrors := by
  intro c e hc he
  have hlt : ∀ i ∈ setBits e, i < 64 := fun i hi => (mem_setBits.1 hi).1
  have hsum : ∀ v, CodewordGood v c → CodewordGood v (xorBytes c e) → xorAll ((setBits e).map (bchColumn v)) = 0 :=
    fun v hgood hgood' => (bchSyndrome_eq_xorAll v he).symm.trans (bchSyndrome_eq_zero_of_good hc he hgood hgood')
  rw [bitsSet_eq he]
  refine ⟨fun hgood hpos hle hgood' => ?_, fun hgood hpos hle hgood' => ?_, fun v hgood hdata hcheck hgood' => ?_⟩
  · by_cases hthree : (setBits e).length = 3
    · obtain ⟨i, j, k, hbits⟩ := List.length_eq_three.1 hthree
      rw [hbits] at hlt hsum
      exact xorAll_three_columns_ne_zero (hlt i (by simp)) (hlt j (by simp)) (hlt k (by simp)) (hsum _ hgood hgood')
    · exact xorAll_columns_ne_zero _ (setBits_nodup e) hlt hpos (by omega) (hsum _ hgood hgood')
  · exact xorAll_columns_ne_zero _ (setBits_nodup e) hlt hpos hle (hsum _ hgood hgood')
  · refine hcheck (BitVec.eq_of_toNat_eq ?_)
    rw [← bchSyndrome_of_checkByte v he hdata]
    exact bchSyndrome_eq_zero_of_good hc he hgood hgood'

end Sys2Proof.Machine
end

section
/-! SUPPORT. The pseudo-BCH commands (45_bch_cltu.md, R203 and R204): their errors in their order, and their results. -/

namespace Sys2Proof.Machine

theorem exec_bchEncode (s : State) : ∃ t, exec .bchEncode s = .next t ∧ OnlyBchSpent s t ∧
    OutputWritten s t (bchEncode Config.bchVariant s.inputs) :=
  ⟨_, rfl, by rw [OnlyBchSpent, finishOutput_work, spendBch_work],
    outputWritten_finishOutput (Kept.refl s).spendBch (InputKept.refl s).spendBch (bchEncode_fits _ s.inputs)⟩

theorem exec_bchDecode (s : State) : ∃ t, exec .bchDecode s = .next t ∧ OnlyBchSpent s t ∧
    OutputWritten s t (bchDecode Config.bchVariant s.inputs) :=
  ⟨_, rfl, by rw [OnlyBchSpent, finishOutput_work, spendBch_work],
    outputWritten_finishOutput (Kept.refl s).spendBch (InputKept.refl s).spendBch (bchDecode_fits _ s.inputs)⟩

/-- BCH_ENCODE's errors in their order, and its result (R203). -/
theorem bchEncode_eq (v : Config.BchVariant) (inp : Inputs) : bchEncode v inp =
    if inp.ilen.toNat > 4096 then .error .structural
    else if inp.ilen.toNat ≠ 7 then .error .lengthMismatch
    else .ok (inp.string ++ [bchCheck v inp.string]) := by
  simp only [bchEncode, onInput, Inputs.string_length]

/-- The codeword check of an 8-byte input, byte by byte of IBUF (R204). -/
theorem checkCodeword_string {inp : Inputs} (v : Config.BchVariant) (h : inp.ilen.toNat = 8) :
    checkCodeword v inp.string =
      if inp.ibuf.byte 7 ≠ bchCheck v (inp.ibuf.bytes 7) then .error .checksum else .ok (inp.ibuf.bytes 7) := by
  have htake : inp.string.take 7 = inp.ibuf.bytes 7 := Memory.take_bytes _ _ _ (by omega)
  rw [checkCodeword, Inputs.string_getD inp 7 (by omega), htake]

/-- BCH_DECODE's errors in their order, and its result (R204). -/
theorem bchDecode_eq (v : Config.BchVariant) (inp : Inputs) : bchDecode v inp =
    if inp.ilen.toNat > 4096 then .error .structural
    else if inp.ilen.toNat ≠ 8 then .error .lengthMismatch
    else if inp.ibuf.byte 7 ≠ bchCheck v (inp.ibuf.bytes 7) then .error .checksum
    else .ok (inp.ibuf.bytes 7) := by
  simp only [bchDecode, onInput, Inputs.string_length]
  by_cases hlen : inp.ilen.toNat = 8
  · rw [checkCodeword_string v hlen]
  · simp only [if_pos hlen]

/-- Settles O19: the clauses of BCH_ENCODE's rule, each with what its completion leaves. -/
theorem bchEncodeAppendsTheCheckByte : Obligations.BchEncodeAppendsTheCheckByte := by
  refine ⟨by decide, fun s => ?_⟩
  obtain ⟨t, hexec, hwork, h⟩ := exec_bchEncode s
  refine ⟨t, hexec, hwork, ?_⟩
  rw [bchEncode_eq] at h
  dsimp only
  split_ifs at h ⊢ <;> exact h

/-- Settles O20: the clauses of BCH_DECODE's rule, each with what its completion leaves. -/
theorem bchDecodeChecksAndStrips : Obligations.BchDecodeChecksAndStrips := by
  refine ⟨by decide, fun s => ?_⟩
  obtain ⟨t, hexec, hwork, h⟩ := exec_bchDecode s
  refine ⟨t, hexec, hwork, ?_⟩
  rw [bchDecode_eq] at h
  dsimp only
  split_ifs at h ⊢ <;> exact h

end Sys2Proof.Machine
end

section
/-! SUPPORT. CLTU framing (45_bch_cltu.md, R206 to R209): the codewords of a frame one by one, the cases of the
unframing, and the frame's own unframing, which gives back its data without the trailing filler. -/

namespace Sys2Proof.Machine

/-! ## The frame codeword by codeword -/

/-- Piece `b` of a run of pieces of 8 bytes. -/
theorem take_drop_flatMap_eight {f : Nat → List Byte} (h : ∀ b, (f b).length = 8) {n b : Nat} (hb : b < n)
    (rest : List Byte) : (((List.range n).flatMap f ++ rest).drop (8 * b)).take 8 = f b := by
  have hl : ((List.range n).flatMap f).length = 8 * n := length_flatMap_const h n
  have hlen : ((((List.range n).flatMap f ++ rest).drop (8 * b)).take 8).length = 8 := by
    rw [List.length_take, List.length_drop, List.length_append]
    omega
  refine List.ext_getElem (hlen.trans (h b).symm) fun j hj hj' => ?_
  rw [List.getElem_take, List.getElem_drop, ← List.getD_eq_getElem _ 0 hj',
    ← getD_flatMap_eight h hb (by omega) rest, List.getD_eq_getElem]

/-- Codeword `b` of a frame stands after its start sequence and the codewords before it (R206). -/
theorem take_drop_cltuFrame (v : Config.BchVariant) (rnd : Bool) (d : List Byte) {b : Nat} (hb : b < cltuBlocks d) :
    ((cltuFrame v rnd d).drop (2 + 8 * b)).take 8 = cltuCodeword v rnd (cltuBlock d b) := by
  rw [← List.drop_drop, cltuFrame, List.append_assoc, List.drop_left' (by rfl)]
  exact take_drop_flatMap_eight (fun b => cltuCodeword_length v rnd _ (cltuBlock_length d b)) hb _

/-- One data byte of a codeword: the block's, masked (R206). -/
theorem cltuCodeword_getD (v : Config.BchVariant) (rnd : Bool) {blk : List Byte} (h : blk.length = 7) {j : Nat}
    (hj : j < 7) : (cltuCodeword v rnd blk).getD j 0 = maskByte rnd (blk.getD j 0) j := by
  have hm := cltuMask_length rnd blk (by omega)
  rw [cltuCodeword, List.getD_append _ _ _ _ (by omega), cltuMask_getD rnd blk j (by omega) (by omega)]

/-- A codeword made from a block is good (R206). -/
theorem codewordGood_cltuCodeword (v : Config.BchVariant) (rnd : Bool) {blk : List Byte} (h : blk.length = 7) :
    CodewordGood v (cltuCodeword v rnd blk) := by
  rw [CodewordGood, cltuCodeword_check v rnd blk h, cltuCodeword_take v rnd blk h]

/-! ## CLTU_ENCODE -/

theorem exec_cltuEncode (s : State) : ∃ t, exec .cltuEncode s = .next t ∧ OnlyLfsrBchSpent s t ∧
    OutputWritten s t (cltuEncode Config.bchVariant s.inputs) :=
  ⟨_, rfl, by rw [OnlyLfsrBchSpent, finishOutput_work, spendBch_work, spendLfsr_work],
    outputWritten_finishOutput (Kept.refl s).spendLfsr.spendBch (InputKept.refl s).spendLfsr.spendBch
      (cltuEncode_fits _ s.inputs)⟩

/-- CLTU_ENCODE's errors in their order, and its result (R206). -/
theorem cltuEncode_eq (v : Config.BchVariant) (inp : Inputs) : cltuEncode v inp =
    if inp.ilen.toNat > 4096 then .error .structural
    else if 2 + 8 * max 1 ((inp.ilen.toNat + 6) / 7) + 8 > 4096 then .error .capacity
    else .ok (cltuFrame v inp.cltuRand inp.string) := by
  simp only [cltuEncode, onInput, cltuBlocks, Inputs.string_length]

/-- A data byte of a frame: the input's, or the filler past its end, masked (R206). -/
theorem cltuFrame_dataByte (v : Config.BchVariant) (inp : Inputs) {b j : Nat} (hb : b < cltuBlocks inp.string)
    (hj : j < 7) : (cltuFrame v inp.cltuRand inp.string).getD (2 + 8 * b + j) 0 =
      maskByte inp.cltuRand (if 7 * b + j < inp.ilen.toNat then inp.ibuf.byte (7 * b + j) else 0x55) j := by
  rw [cltuFrame_getD _ _ _ hb (by omega), cltuCodeword_getD _ _ (cltuBlock_length _ _) hj, cltuBlock_getD _ _ _ hj,
    Inputs.string_length]
  by_cases hin : 7 * b + j < inp.ilen.toNat
  · rw [if_pos hin, if_pos hin, Inputs.string_getD _ _ hin]
  · rw [if_neg hin, if_neg hin]

/-- A check byte of a frame is that of the seven bytes before it (R206). -/
theorem cltuFrame_checkByte (v : Config.BchVariant) (rnd : Bool) (d : List Byte) {b : Nat} (hb : b < cltuBlocks d) :
    (cltuFrame v rnd d).getD (2 + 8 * b + 7) 0 =
      bchCheck v (((cltuFrame v rnd d).drop (2 + 8 * b)).take 7) := by
  have htake : ((cltuFrame v rnd d).drop (2 + 8 * b)).take 7 = (cltuCodeword v rnd (cltuBlock d b)).take 7 := by
    rw [← take_drop_cltuFrame v rnd d hb, List.take_take]
    rfl
  rw [cltuFrame_getD _ _ _ hb (by decide), htake]
  exact codewordGood_cltuCodeword v rnd (cltuBlock_length d b)

/-- Settles O21: the clauses of CLTU_ENCODE's rule, and the bytes of the frame it delivers. -/
theorem cltuEncodeFramesTheInput : Obligations.CltuEncodeFramesTheInput := by
  refine ⟨by decide, fun s => ?_⟩
  obtain ⟨t, hexec, hwork, h⟩ := exec_cltuEncode s
  refine ⟨t, hexec, hwork, ?_⟩
  rw [cltuEncode_eq] at h
  have hblocks : cltuBlocks s.inputs.string = max 1 ((s.inputs.ilen.toNat + 6) / 7) := by
    rw [cltuBlocks, Inputs.string_length]
  dsimp only
  rw [← hblocks] at h ⊢
  split_ifs at h ⊢
  · exact h
  · exact h
  · exact ⟨_, h, cltuFrame_length _ _ _, rfl, cltuFrame_drop _ _ _, fun b hb =>
      ⟨fun j hj => cltuFrame_dataByte _ _ hb hj, cltuFrame_checkByte _ _ _ hb⟩⟩

/-! ## The cases of the unframing -/

theorem cltuUnframe_of_no_start (v : Config.BchVariant) (rnd : Bool) {d : List Byte}
    (h : ∀ i, ¬ StandsAt [0xEB, 0x90] d i) : cltuUnframe v rnd d = .error .markerNotFound := by
  rw [cltuUnframe, findStart_eq_none h]

theorem cltuUnframe_of_no_stop (v : Config.BchVariant) (rnd : Bool) {d : List Byte} {i : Nat} (hi : FirstStart d i)
    (h : ∀ j, i + 2 ≤ j → ¬ StandsAt (List.replicate 8 0xC5) d j) :
    cltuUnframe v rnd d = .error .markerNotFound := by
  simp only [cltuUnframe, findStart_eq_some hi, findStop_eq_none h]

theorem cltuUnframe_of_marks (v : Config.BchVariant) (rnd : Bool) {d : List Byte} {i j : Nat} (hi : FirstStart d i)
    (hj : LastStop d i j) : cltuUnframe v rnd d = unwrapSpan v rnd ((d.drop (i + 2)).take (j - (i + 2))) := by
  simp only [cltuUnframe, findStart_eq_some hi, findStop_eq_some hj]

/-- What is delivered of a span: an error where it is empty or ragged or has a bad codeword, else its data without the
trailing filler (R208). -/
theorem unwrapSpan_eq (v : Config.BchVariant) (rnd : Bool) (span : List Byte) : unwrapSpan v rnd span =
    if span.length = 0 ∨ span.length % 8 ≠ 0 then .error .structural
    else if ∃ q, q < span.length / 8 ∧ ¬ CodewordGood v (codewordAt span q) then .error .checksum
    else .ok (stripFiller (spanData rnd span)) := by
  unfold unwrapSpan
  by_cases hempty : span.length = 0
  · rw [if_pos hempty, if_pos (.inl hempty)]
  by_cases hragged : span.length % 8 ≠ 0
  · rw [if_neg hempty, if_pos hragged, if_pos (.inr hragged)]
  rw [if_neg hempty, if_neg hragged, if_neg (not_or.2 ⟨hempty, hragged⟩)]
  by_cases hbad : ∃ q, q < span.length / 8 ∧ ¬ CodewordGood v (codewordAt span q)
  · obtain ⟨q, hq, hb⟩ := hbad
    rw [if_pos ⟨q, hq, hb⟩, unwrapCodewords_bad rnd hq hb]
  · rw [if_neg hbad]
    push Not at hbad
    rw [unwrapCodewords_good rnd hbad, spanData_eq rnd span (not_not.1 hragged)]

/-! ## CLTU_DECODE -/

theorem exec_cltuDecode (s : State) : ∃ t, exec .cltuDecode s = .next t ∧ OnlyLfsrBchSpent s t ∧
    OutputWritten s t (cltuDecode Config.bchVariant s.inputs) :=
  ⟨_, rfl, by rw [OnlyLfsrBchSpent, finishOutput_work, spendBch_work, spendLfsr_work],
    outputWritten_finishOutput (Kept.refl s).spendLfsr.spendBch (InputKept.refl s).spendLfsr.spendBch
      (cltuDecode_fits _ s.inputs)⟩

/-- CLTU_DECODE's length check, and its rule on an input that passes it (R208). -/
theorem cltuDecode_eq (v : Config.BchVariant) (inp : Inputs) : cltuDecode v inp =
    if inp.ilen.toNat > 4096 then .error .structural else cltuUnframe v inp.cltuRand inp.string := by
  simp only [cltuDecode, onInput]

/-- Settles O22: the clauses of CLTU_DECODE's rule are the cases of the unframing. -/
theorem cltuDecodeUnwrapsTheInput : Obligations.CltuDecodeUnwrapsTheInput := by
  refine ⟨by decide, fun s => ?_⟩
  obtain ⟨t, hexec, hwork, h⟩ := exec_cltuDecode s
  refine ⟨t, hexec, hwork, ?_⟩
  rw [cltuDecode_eq] at h
  dsimp only
  split_ifs at h ⊢
  · exact h
  · refine ⟨fun hnone => ?_, fun i hi => ⟨fun hnone => ?_, fun j hj => ?_⟩⟩
    · rwa [cltuUnframe_of_no_start _ _ hnone] at h
    · rwa [cltuUnframe_of_no_stop _ _ hi hnone] at h
    · rw [cltuUnframe_of_marks _ _ hi hj, unwrapSpan_eq] at h
      split_ifs at h ⊢
      · exact h
      · exact h
      · exact ⟨_, stripped_stripFiller _, h⟩

/-! ## The round trip -/

theorem firstStart_cltuFrame (v : Config.BchVariant) (rnd : Bool) (d : List Byte) :
    FirstStart (cltuFrame v rnd d) 0 :=
  ⟨rfl, fun i hi => absurd hi (Nat.not_lt_zero i)⟩

/-- The stop sequence ends a frame, so it stands nowhere later, whatever the codewords before it hold (R207). -/
theorem lastStop_cltuFrame (v : Config.BchVariant) (rnd : Bool) (d : List Byte) :
    LastStop (cltuFrame v rnd d) 0 (2 + 8 * cltuBlocks d) := by
  refine ⟨by omega, ?_, fun j hj hstands => ?_⟩
  · rw [StandsAt, cltuFrame_drop]
    rfl
  · have hlen := congrArg List.length hstands
    rw [List.length_take, List.length_drop, cltuFrame_length, List.length_replicate] at hlen
    omega

/-- The blocks of an input are the input and the filler of the last one (R206). -/
theorem flatMap_cltuBlock (d : List Byte) : ((List.range (cltuBlocks d)).flatMap fun b => cltuBlock d b) =
    d ++ List.replicate (7 * cltuBlocks d - d.length) 0x55 := by
  have hlen : ((List.range (cltuBlocks d)).flatMap fun b => cltuBlock d b).length = 7 * cltuBlocks d :=
    length_flatMap_const (cltuBlock_length d) _
  have hfits : d.length ≤ 7 * cltuBlocks d := by
    rw [cltuBlocks]
    omega
  refine List.ext_getElem ?_ fun k hk hk' => ?_
  · rw [hlen, List.length_append, List.length_replicate]
    omega
  rw [← List.getD_eq_getElem _ 0 hk, getD_flatMap_seven (cltuBlock_length d) _ _ (by omega),
    cltuBlock_getD _ _ _ (Nat.mod_lt k (by decide)), Nat.div_add_mod]
  split
  next hin => rw [List.getElem_append_left hin, List.getD_eq_getElem _ _ hin]
  next hout => rw [List.getElem_append_right (by omega), List.getElem_replicate]

theorem Stripped.append_filler {d out : List Byte} (h : Stripped d out) (n : Nat) :
    Stripped (d ++ List.replicate n 0x55) out := by
  obtain ⟨⟨m, rfl⟩, hlast⟩ := h
  exact ⟨⟨m + n, by rw [List.append_assoc, List.replicate_append_replicate]⟩, hlast⟩

theorem stripFiller_append_filler (d : List Byte) (n : Nat) :
    stripFiller (d ++ List.replicate n 0x55) = stripFiller d :=
  (stripped_stripFiller _).unique ((stripped_stripFiller d).append_filler n)

/-- A string that does not end in the filler byte has none to strip. -/
theorem stripFiller_of_last {d : List Byte} (h : d = [] ∨ d.getD (d.length - 1) 0 ≠ 0x55) : stripFiller d = d :=
  (stripped_stripFiller d).unique ⟨⟨0, (List.append_nil d).symm⟩, h⟩

/-- Codeword `b` of what stands between a frame's start and stop sequence (R206). -/
theorem codewordAt_cltuFrame (v : Config.BchVariant) (rnd : Bool) (d : List Byte) {b : Nat} (hb : b < cltuBlocks d) :
    codewordAt (((cltuFrame v rnd d).drop 2).take (8 * cltuBlocks d)) b = cltuCodeword v rnd (cltuBlock d b) := by
  rw [codewordAt, List.drop_take, List.take_take, List.drop_drop, Nat.min_eq_left (by omega)]
  exact take_drop_cltuFrame v rnd d hb

theorem cltuFrame_span_length (v : Config.BchVariant) (rnd : Bool) (d : List Byte) :
    (((cltuFrame v rnd d).drop 2).take (8 * cltuBlocks d)).length = 8 * cltuBlocks d := by
  rw [List.length_take, List.length_drop, cltuFrame_length]
  omega

/-- The data of a frame's codewords is its input and the filler of the last block (R208, R210). -/
theorem spanData_cltuFrame (v : Config.BchVariant) (rnd : Bool) (d : List Byte) :
    spanData rnd (((cltuFrame v rnd d).drop 2).take (8 * cltuBlocks d)) =
      d ++ List.replicate (7 * cltuBlocks d - d.length) 0x55 := by
  have hlen := cltuFrame_span_length v rnd d
  rw [spanData_eq rnd _ (by omega), hlen, Nat.mul_div_cancel_left _ (by decide), ← flatMap_cltuBlock]
  refine List.flatMap_congr fun b hb => ?_
  rw [codewordAt_cltuFrame v rnd d (List.mem_range.1 hb), cltuCodeword_take v rnd _ (cltuBlock_length d b),
    cltuMask_cltuMask rnd _ (cltuBlock_length d b).le]

/-- Unframing a frame gives its input without the trailing filler (R209). -/
theorem cltuUnframe_cltuFrame (v : Config.BchVariant) (rnd : Bool) (d : List Byte) :
    cltuUnframe v rnd (cltuFrame v rnd d) = .ok (stripFiller d) := by
  have hlen := cltuFrame_span_length v rnd d
  have hblocks : 1 ≤ cltuBlocks d := le_max_left ..
  have hgood : ¬ ∃ q, q < 8 * cltuBlocks d / 8 ∧
      ¬ CodewordGood v (codewordAt (((cltuFrame v rnd d).drop 2).take (8 * cltuBlocks d)) q) := by
    rintro ⟨q, hq, hbad⟩
    rw [codewordAt_cltuFrame v rnd d (by omega)] at hbad
    exact hbad (codewordGood_cltuCodeword v rnd (cltuBlock_length d q))
  rw [cltuUnframe_of_marks v rnd (firstStart_cltuFrame v rnd d) (lastStop_cltuFrame v rnd d), Nat.zero_add,
    Nat.add_sub_cancel_left, unwrapSpan_eq, hlen, if_neg (by omega), if_neg hgood, spanData_cltuFrame,
    stripFiller_append_filler]

theorem Kept.cltuRand_latch {s t : State} (h : Kept s t) : (latch t).cltuRand = (latch s).cltuRand := h.ctrl

/-- An input of at most 3570 bytes makes at most 510 codewords, which fit OBUF (R206). -/
theorem cltuEncode_of_fits (v : Config.BchVariant) {inp : Inputs} (h : inp.ilen.toNat ≤ 3570) :
    cltuEncode v inp = .ok (cltuFrame v inp.cltuRand inp.string) := by
  rw [cltuEncode_eq, if_neg (by omega), if_neg (by omega)]

/-- CLTU_DECODE of a frame made under the same CTRL.CLTU_RAND (R209). -/
theorem cltuDecode_of_string_eq (v : Config.BchVariant) {inp : Inputs} {d : List Byte} (hlen : inp.ilen.toNat ≤ 4096)
    (h : inp.string = cltuFrame v inp.cltuRand d) : cltuDecode v inp = .ok (stripFiller d) := by
  rw [cltuDecode_eq, if_neg (by omega), h, cltuUnframe_cltuFrame]

/-- The input string of a state is not stripped where the last byte of the input is not the filler. -/
theorem stripFiller_string {inp : Inputs} (h : inp.ilen = 0 ∨ inp.ibuf.byte (inp.ilen.toNat - 1) ≠ 0x55) :
    stripFiller inp.string = inp.string := by
  by_cases hempty : inp.ilen.toNat = 0
  · exact stripFiller_of_last (.inl (List.eq_nil_of_length_eq_zero (by rw [Inputs.string_length, hempty])))
  · have hlast := h.resolve_left fun h0 => hempty (by rw [h0]; rfl)
    refine stripFiller_of_last (.inr ?_)
    rwa [Inputs.string_length, Inputs.string_getD _ _ (by omega)]

/-- Settles O40: MOVE makes the frame the input, and unframing a frame gives its input without trailing filler. -/
theorem cltuRoundTrip : Obligations.CltuRoundTrip := by
  refine ⟨fun s hinp hlen hlast => ?_, fun v rnd d _ => ⟨fun hlast => ?_, _, stripped_stripFiller d,
    cltuUnframe_cltuFrame v rnd d⟩⟩
  · obtain ⟨t, hencode, _, hout⟩ := exec_cltuEncode s
    rw [hinp, cltuEncode_of_fits _ hlen] at hout
    have ht : Delivered s t (cltuFrame Config.bchVariant (latch s).cltuRand (latch s).string) := hout
    obtain ⟨u, hmove, hu⟩ := exec_move t
    obtain ⟨v, hdecode, _, hout'⟩ := exec_cltuDecode u
    have hkept : Kept s u := ht.kept.trans hu.kept
    have hfits : u.ilen.toNat ≤ 4096 := by
      have hlen' : (latch s).string.length ≤ 3570 := (Inputs.string_length _).trans_le hlen
      rw [hu.ilen, ht.olen, cltuFrame_length, cltuBlocks]
      omega
    have hstring : (latch u).string = cltuFrame Config.bchVariant (latch u).cltuRand (latch s).string := by
      rw [ht.string_of_moved hu, hkept.cltuRand_latch]
    rw [inputs_of_idle u hu.idle, cltuDecode_of_string_eq _ hfits hstring, stripFiller_string hlast] at hout'
    have hv : Delivered u v (latch s).string := hout'
    obtain ⟨holen, hobuf⟩ := hv.eq_input
    exact ⟨t, u, v, hencode, hmove, hdecode, hv.status, holen, hobuf⟩
  · rw [cltuUnframe_cltuFrame, stripFiller_of_last hlast]

end Sys2Proof.Machine
end

section
/-! SUPPORT. The status words of the outcomes (60_exceptions.md, R233). -/

namespace Sys2Proof.Machine

/-- Settles O41: `word_failed` gives the word of every kind as `failedWord`, which is the rule's formula; the seven words
the rule lists are its values at seven kinds. -/
theorem statusWordsOfTheOutcomes : Obligations.StatusWordsOfTheOutcomes := by
  refine ⟨word_succeeded, word_failed, ?_⟩
  simp only [word_failed]
  decide

end Sys2Proof.Machine
end

section
/-! SUPPORT. Reset, and the writes a busy block loses (70_reset_and_hazards.md). -/

namespace Sys2Proof.Machine

/-- Settles O51: a well-formed write is legal, and a legal write does what `busWrite` does. -/
theorem busyWritesAreLost : Obligations.BusyWritesAreLost := by
  intro s a hb hk hwf
  obtain ⟨_, hl⟩ : a.addressed = true ∧ a.legal = true := Bool.and_eq_true_iff.1 hwf
  rw [busAccess_write s hl hk, busWrite_busy a hb]

/-- The reset input gives every register its value after reset, whatever the state (R40, R260). -/
@[simp] theorem readReg_applyReset (r : Reg) (s : State) : readReg r (applyReset s) = readReg r State.reset := by
  cases r <;> rfl

/-- The host's turn where a reset comes first (R260; log entry 10). -/
theorem hostTurn_reset {s : State} {rest : List HostEvent} (h : s.host = .reset :: rest) :
    hostTurn s = .next (applyReset { s with host := rest }) := by
  simp only [hostTurn, nextEvent, h, List.tail_cons]

/-- Settles O57: with no word ready the host has its turn, and the delay counted down before it is lost with the
command. -/
theorem resetAbandonsTheCommand : Obligations.ResetAbandonsTheCommand := by
  intro s rest hready hhost
  have hstep : step s = .next (applyReset { countDown s with host := rest }) :=
    (step_of_readyWord_none hready).trans (hostTurn_reset hhost)
  exact ⟨_, hstep, fun r => readReg_applyReset r _, rfl, rfl, rfl, rfl, rfl⟩

end Sys2Proof.Machine
end
